-- ==== Sys2Proof/Word.lean ====
section
/-! DEFINITION. The two machine word types: registers are 64 bits wide and memory is byte-addressed (R7, R60). -/

namespace Sys2Proof

/-- A control register, a command word or a data address: 64 bits (00_scope.md R7). -/
abbrev Word := BitVec 64

/-- One byte of data memory (20_memory.md R60). -/
abbrev Byte := BitVec 8

end Sys2Proof
end

