-- ==== Sys2Proof/Config.lean ====
section
/-! DEFINITION. What the platform fixes and the spec leaves open (00_scope.md R7, 93_implementation_defined.md):
constants with no body, so that no proof can see their value. The parameters a statement must range over
(`BUS_ERR`, `COHERENT`, memory with side effects) are plain data in `State.platform` instead (log 4, 12, 13). -/

namespace Sys2Proof.Config

/-- `BLOCK_ID`, the value of the `ID` register; no rule depends on it (10_state.md R23, D38; log 6). -/
opaque blockId : Word

/-- `REG_BASE`, the bus address of the register block (10_state.md R22, D37; log 7). The spec gives the
host bus no width; 64 bits are the model's (DESIGN CHOICE, log 27). -/
opaque regBase : Word

/-- `IRQ_LINE`, the input of the platform's interrupt controller that the interrupt output drives, by its number
(10_state.md R53, D37; 00_scope.md R7; log 7). -/
opaque irqLine : Nat

/-- Free value: the byte at `addr` of an output region that free choice number `draw` leaves at "any value"
(20_memory.md R66, 93 I1 and I2; log 2). -/
opaque freeByte (draw addr : Nat) : Byte

/-- Free value: `FAULT_POS` of a command that meets a bus error (60_exceptions.md R290; log 5). -/
opaque freePos (draw : Nat) : Word

/-- Free value: whether a command that meets a bus error reports the fault it would report without it, where there
is one, rather than BUS_ERROR (60_exceptions.md R290; log 5). -/
opaque busReportsOther (draw : Nat) : Bool

/-- Free value: whether the engine's prefetch makes an access that answers with an error although the command does
not need that byte (20_memory.md R65, 60_exceptions.md R290; log 5). -/
opaque prefetchMeets (draw : Nat) : Bool

end Sys2Proof.Config
end

