-- ==== Sys2Proof/Syntax.lean ====
section
/-! DEFINITION. The syntax of PQDEC: the eight commands of the opcode table (30_encoding.md R95) and the two ways a
command word spells no command (R99). -/

namespace Sys2Proof

/-- The commands of "PQDEC command set version 1" (00_scope.md R2, 30_encoding.md R95). `width` is `CMD[15:8]` and
`lenx` is `CMD[16]` (R91). -/
inductive Instr where
  | varint
  | bitunpack (width : BitVec 8)
  | rle (width : BitVec 8)
  | hybrid (width : BitVec 8) (lenx : Bool)
  | delta32
  | delta64
  | bss32
  | bss64
  deriving DecidableEq, Repr

/-- Why a command word spells no command (30_encoding.md R99). -/
inductive DecodeError where
  /-- A reserved opcode (30_encoding.md R96). -/
  | invalidType
  /-- An illegal form of a legal opcode (30_encoding.md R97). -/
  | badArg
  deriving DecidableEq, Repr

end Sys2Proof
end

