-- ==== Sys2Proof/Machine/State.lean ====
section
/-! DEFINITION. The state of PQDEC as plain data (10_state.md R22, R54; 20_memory.md R60), the reasons the model stops,
and the state right after reset (10_state.md R52). -/

namespace Sys2Proof.Machine

/-- `STATUS.STATE` (10_state.md R29). -/
inductive EngineState where
  /-- No command since reset. -/
  | idle
  /-- A command runs. -/
  | busy
  /-- The last command completed without fault. -/
  | done
  /-- The last command ended with a fault. -/
  | error
  deriving DecidableEq, Repr

/-- The codes of `STATUS.FAULT` (60_exceptions.md R280). Codes 7 to 255 are never produced (R286), so they have no
constructor (log 20). -/
inductive FaultCode where
  | none
  | truncated
  | malformed
  | invalidType
  | badArg
  | capacity
  | busError
  deriving DecidableEq, Repr

/-- The kind of an engine access to data memory (20_memory.md R69). -/
inductive Access where
  | read
  | write
  deriving DecidableEq, Repr

/-- The addresses `lo`, …, `hi - 1`. -/
structure AddrRange where
  lo : Nat
  hi : Nat
  deriving DecidableEq, Repr

/-- The addresses at which engine accesses of one kind receive an error response (`BUS_ERR`, 20_memory.md R69). -/
structure BusRange where
  range : AddrRange
  kind : Access
  deriving DecidableEq, Repr

/-- What the platform fixes and a statement ranges over; no step changes it (log 4, 12, 13). -/
structure Platform where
  /-- Where `BUS_ERR(address, kind)` holds (60_exceptions.md R287). -/
  busErr : List BusRange
  /-- Memory with side effects on access (20_memory.md R67). -/
  sideEffect : List AddrRange
  /-- `COHERENT` (20_memory.md R78). -/
  coherent : Bool
  deriving DecidableEq, Repr

/-- Bytes the spec leaves at "any value": the byte at `a` of the region is free choice number `draw`, at `a`
(20_memory.md R66; log 2). -/
structure FreeRegion where
  base : Nat
  size : Nat
  draw : Nat
  deriving DecidableEq, Repr

/-- Data memory (20_memory.md R60): the listed bytes, and the regions whose bytes are free values. An address in
neither reads 0 (log 1). `Memory.wf` says the form is canonical. -/
structure Memory where
  cells : List Host.Cell
  free : List FreeRegion
  deriving DecidableEq, Repr

/-- What a command owns from START until the host has seen it complete: its input window from `CURSOR` on, and its
output region (20_memory.md R71). -/
structure Window where
  input : AddrRange
  output : AddrRange
  deriving DecidableEq, Repr

/-- What may happen next: a host access, an edge of the reset input, or the engine's completion (00_scope.md R18,
40_command_execution.md R142; log 8). -/
inductive Event where
  /-- The engine takes its completion step if a command is in flight (40_command_execution.md R142). -/
  | engine
  /-- A completion, and in the same instant a host write of `data` to `STATUS` (10_state.md R31). -/
  | engineWithStatusWrite (data : Word)
  /-- A host read of `size` bytes at an offset of the register block (10_state.md R44). -/
  | regRead (offset : BitVec 8) (size : Nat)
  /-- A host write of `size` bytes at an offset of the register block (10_state.md R44). -/
  | regWrite (offset : BitVec 8) (size : Nat) (data : Word)
  /-- A read of `n` bytes of data memory by an agent other than the engine (20_memory.md R71). -/
  | memRead (addr : Word) (n : Nat)
  /-- A write to data memory by an agent other than the engine (20_memory.md R71, 30_encoding.md R108). -/
  | memWrite (addr : Word) (bytes : List Byte)
  /-- The power-on reset input is asserted (70_reset_and_hazards.md R320). -/
  | assertReset
  /-- The power-on reset input is released (70_reset_and_hazards.md R320). -/
  | releaseReset
  deriving DecidableEq, Repr

/-- The state of the machine. The registers are those of 10_state.md R22, with the fields of `CTRL` and `STATUS` of R24
and R29 held one by one, as R54 says. -/
structure State where
  /-- `ID` (10_state.md R23). -/
  id : Word
  /-- `CTRL.IRQ_EN` (10_state.md R26). -/
  irqEn : Bool
  /-- `STATUS.STATE` (10_state.md R29). -/
  state : EngineState
  /-- `STATUS.FAULT` (10_state.md R30). -/
  fault : FaultCode
  /-- `STATUS.IRQ_PENDING` (10_state.md R31). -/
  irqPending : Bool
  /-- `STATUS.WR_IGNORED` (10_state.md R32). -/
  wrIgnored : Bool
  /-- `CMD` (10_state.md R34). -/
  cmd : Word
  /-- `IN_BASE` (10_state.md R35). -/
  inBase : Word
  /-- `IN_LEN` (10_state.md R36). -/
  inLen : Word
  /-- `CURSOR` (10_state.md R37). -/
  cursor : Word
  /-- `OUT_BASE` (10_state.md R38). -/
  outBase : Word
  /-- `OUT_CAP` (10_state.md R39). -/
  outCap : Word
  /-- `ARG0` (10_state.md R40). -/
  arg0 : Word
  /-- `OUT_COUNT` (10_state.md R41). -/
  outCount : Word
  /-- `FAULT_POS` (10_state.md R42). -/
  faultPos : Word
  /-- Data memory (20_memory.md R60). -/
  mem : Memory
  /-- The power-on reset input is asserted (70_reset_and_hazards.md R320). -/
  inReset : Bool
  /-- What the engine owns and the host has not yet seen completed (20_memory.md R71). -/
  owned : List Window
  /-- The platform's parameters (log 4, 12, 13). -/
  platform : Platform
  /-- The model's own: how many free choices have been made (log 2). -/
  draws : Nat
  /-- The model's own: the events to come, first one next (log 8). -/
  inputs : List Event
  /-- The model's own: what the last host register read returned (log 18). -/
  hostReg : Word
  /-- The model's own: what the last data-memory read by the host returned (log 18). -/
  hostBytes : List Byte
  deriving DecidableEq, Repr

/-- The machine stops because the environment did something the address space has no place for. A fault of a command
is no such stop: it is a completion with `STATE` = ERROR (60_exceptions.md R291). -/
inductive Fault where
  /-- Raised by a host data access that passes address 2^64-1, which does not exist (20_memory.md R60). Safe: nothing
  is claimed of such a run. -/
  | outsideAddressSpace
  deriving DecidableEq, Repr

/-- The model gives the run no meaning. -/
inductive Refusal where
  /-- Raised by an arm of `exec` with no meaning yet. Safe: nothing is claimed of such an instruction. No arm raises
  it. -/
  | notModelled (mnemonic : String)
  /-- Raised by a register access that is not an aligned 8-byte access: "a model refuses it" (10_state.md R44). Safe. -/
  | registerAccessShape
  /-- Raised by a register access while power-on reset is asserted: "a model refuses them" (70_reset_and_hazards.md
  R320). Safe. -/
  | registerAccessInReset
  /-- Raised by a data access that breaks the engine's ownership: "A model refuses such a run" (20_memory.md R71).
  Safe. -/
  | ownershipViolated
  /-- Raised by a command whose input window or output region has access side effects, at its START and at its
  completion: "a model refuses the command" (20_memory.md R67; log 13). Safe. -/
  | sideEffectMemory
  /-- Raised by every command when `COHERENT` is false, at its START and at its completion: the model "refuses every
  command" (20_memory.md R78; log 12). Safe. -/
  | notCoherent
  /-- Raised by a host data access to memory with access side effects, whose behaviour the spec does not give: R67
  speaks of commands only (DESIGN CHOICE, log 26). Safe: nothing is claimed of such a run. -/
  | deviceAccess
  deriving DecidableEq, Repr

/-- Right after reset (10_state.md R52): every register 0, `ID` = `BLOCK_ID`, the engine IDLE, nothing owned. Memory
lists nothing (log 1); the platform answers every access and is coherent (log 4, 12, 13); no event is to come (log 8,
log 9). -/
def State.reset : State where
  id := Config.blockId
  irqEn := false
  state := .idle
  fault := .none
  irqPending := false
  wrIgnored := false
  cmd := 0
  inBase := 0
  inLen := 0
  cursor := 0
  outBase := 0
  outCap := 0
  arg0 := 0
  outCount := 0
  faultPos := 0
  mem := { cells := [], free := [] }
  inReset := false
  owned := []
  platform := { busErr := [], sideEffect := [], coherent := true }
  draws := 0
  inputs := []
  hostReg := 0
  hostBytes := []

end Sys2Proof.Machine
end

