-- ==== Sys2Proof/Machine/Flags.lean ====
section
/-! DEFINITION. The status and control fields: their codes, the words `STATUS` and `CTRL` read as, and the interrupt
output (10_state.md R24 to R33, R48, R53; 60_exceptions.md R280). PQDEC has no condition codes. -/

namespace Sys2Proof.Machine

/-- The two-bit code of `STATUS.STATE` (10_state.md R29). -/
def EngineState.code : EngineState → BitVec 2
  | .idle => 0
  | .busy => 1
  | .done => 2
  | .error => 3

/-- The eight-bit code of `STATUS.FAULT` (60_exceptions.md R280). -/
def FaultCode.code : FaultCode → BitVec 8
  | .none => 0
  | .truncated => 1
  | .malformed => 2
  | .invalidType => 3
  | .badArg => 4
  | .capacity => 5
  | .busError => 6

/-- A read of `CTRL` gives `IRQ_EN << 1` (10_state.md R27, R28). -/
def ctrlWord (s : State) : Word := 0#62 ++ BitVec.ofBool s.irqEn ++ 0#1

/-- A read of `STATUS` gives `{0^46, WR_IGNORED, IRQ_PENDING, FAULT, 0^6, STATE}` (10_state.md R33). -/
def statusWord (s : State) : Word :=
  0#46 ++ BitVec.ofBool s.wrIgnored ++ BitVec.ofBool s.irqPending ++ s.fault.code ++ 0#6 ++ s.state.code

/-- The interrupt output `irq = CTRL.IRQ_EN & STATUS.IRQ_PENDING`, level-sensitive (10_state.md R53). -/
def State.irq (s : State) : Bool := s.irqEn && s.irqPending

/-- The block raises the interrupt controller's input of a given number: the input is `IRQ_LINE` and the output is 1
(10_state.md R53, 60_exceptions.md R293; log 7). -/
def State.raisesLine (s : State) (line : Nat) : Bool := line = Config.irqLine && s.irq

/-- A host write of `w` to `STATUS`: 1 to bit 16 clears `IRQ_PENDING`, 1 to bit 17 clears `WR_IGNORED`, every other bit
is ignored (10_state.md R33). -/
def writeStatus (w : Word) (s : State) : State :=
  { s with irqPending := s.irqPending && !w.getLsbD 16, wrIgnored := s.wrIgnored && !w.getLsbD 17 }

end Sys2Proof.Machine
end

