-- ==== Sys2Proof/WellFormed.lean ====
section
/-! DEFINITION. The legal operand ranges of a command (30_encoding.md R95, R98). -/

namespace Sys2Proof

/-- `WIDTH` is in the opcode's legal range: 0 to 64 for `BITUNPACK`, 0 to 32 for `RLE` and `HYBRID`; the other
commands have no width (30_encoding.md R98). -/
def Instr.wellFormed : Instr → Bool
  | .varint => true
  | .bitunpack w => w.toNat ≤ 64
  | .rle w => w.toNat ≤ 32
  | .hybrid w _ => w.toNat ≤ 32
  | .delta32 => true
  | .delta64 => true
  | .bss32 => true
  | .bss64 => true

end Sys2Proof
end

