-- ==== Sys2Proof/Decode.lean ====
section
/-! DEFINITION. The decoder of a command word, total on all 2^64 words (30_encoding.md R99, the checks 1 to 4 of
40_command_execution.md R133), the encoder (30_encoding.md R107), and the host's entry to the decoder. -/

namespace Sys2Proof

/-- `OPC` = `CMD[7:0]` (30_encoding.md R91). -/
def opcField (w : Word) : BitVec 8 := w.extractLsb' 0 8

/-- `WIDTH` = `CMD[15:8]`, an unsigned number (30_encoding.md R91, R92). -/
def widthField (w : Word) : BitVec 8 := w.extractLsb' 8 8

/-- `LENX` = `CMD[16]` (30_encoding.md R91, R93). -/
def lenxField (w : Word) : Bool := w.getLsbD 16

/-- The reserved bits `CMD[63:17]` (30_encoding.md R91). -/
def reservedField (w : Word) : BitVec 47 := w.extractLsb' 17 47

/-- The opcode number of a command (30_encoding.md R95). -/
def Instr.opcode : Instr → BitVec 8
  | .varint => 0x01
  | .bitunpack _ => 0x02
  | .rle _ => 0x03
  | .hybrid _ _ => 0x04
  | .delta32 => 0x05
  | .delta64 => 0x06
  | .bss32 => 0x07
  | .bss64 => 0x08

/-- A command that takes no width is legal only with `WIDTH` = 0 (30_encoding.md R97, R98). -/
def withoutWidth (width : BitVec 8) (i : Instr) : Except DecodeError Instr :=
  if width = 0 then .ok i else .error .badArg

/-- A command that takes a width is legal only within its range (30_encoding.md R97, R98). -/
def withWidth (i : Instr) : Except DecodeError Instr :=
  if i.wellFormed then .ok i else .error .badArg

/-- The command that `OPC` selects, with the width check of its row (30_encoding.md R95; check 4 of
40_command_execution.md R133). A reserved opcode selects none (check 1). -/
def selectCommand (opc : Nat) (width : BitVec 8) (lenx : Bool) : Except DecodeError Instr :=
  match opc with
  | 1 => withoutWidth width .varint
  | 2 => withWidth (.bitunpack width)
  | 3 => withWidth (.rle width)
  | 4 => withWidth (.hybrid width lenx)
  | 5 => withoutWidth width .delta32
  | 6 => withoutWidth width .delta64
  | 7 => withoutWidth width .bss32
  | 8 => withoutWidth width .bss64
  | _ => .error .invalidType

/-- `OPC` spells a command (30_encoding.md R95, R96). -/
def opcodeLegal (opc : BitVec 8) : Bool := 1 ≤ opc.toNat && opc.toNat ≤ 8

/-- The decoder of a command word, with the checks in the order of 40_command_execution.md R133: reserved opcode,
reserved bits, `LENX` outside `HYBRID`, width range. -/
def decode (w : Word) : Except DecodeError Instr :=
  if !opcodeLegal (opcField w) then .error .invalidType
  else if reservedField w ≠ 0 then .error .badArg
  else if lenxField w && opcField w ≠ 0x04 then .error .badArg
  else selectCommand (opcField w).toNat (widthField w) (lenxField w)

/-- A command word put together from its fields (30_encoding.md R91, R107). -/
def packCommand (opc width : BitVec 8) (lenx : Bool) : Word :=
  opc.zeroExtend 64 ||| (width.zeroExtend 64 <<< 8) ||| ((BitVec.ofBool lenx).zeroExtend 64 <<< 16)

/-- The command word of a command (30_encoding.md R107). -/
def encode (i : Instr) : Word :=
  match i with
  | .varint => packCommand i.opcode 0 false
  | .bitunpack width => packCommand i.opcode width false
  | .rle width => packCommand i.opcode width false
  | .hybrid width lenx => packCommand i.opcode width lenx
  | .delta32 => packCommand i.opcode 0 false
  | .delta64 => packCommand i.opcode 0 false
  | .bss32 => packCommand i.opcode 0 false
  | .bss64 => packCommand i.opcode 0 false

/-- The 64-bit command word whose low `nbits` bits are `w`, every bit above them 0. -/
def tableWord (nbits w : Nat) : Word := BitVec.ofNat 64 (w % 2 ^ nbits)

/-- The host's entry to the decoder: the command it reads from the table's bits, none where it refuses. A command is
one 64-bit word written to `CMD`, so there are no bytes in memory to order (10_state.md R34, 20_memory.md R77). -/
def decodeTableWord (nbits w : Nat) : Option Instr :=
  match decode (tableWord nbits w) with
  | .ok i => some i
  | .error _ => none

end Sys2Proof
end

