-- ==== Sys2Proof/Machine/Operands.lean ====
section
/-! DEFINITION. The operands of a command: the element size its opcode fixes, the registers it reads, the address
ranges it uses, and the operand checks made before any input is read (30_encoding.md R94, R95;
40_command_execution.md R132, R133). -/

namespace Sys2Proof.Machine

/-- The output element size E in bytes of an opcode, 0 for a reserved opcode, which has none (30_encoding.md R95). -/
def elementSizeOf (opc : BitVec 8) : Nat :=
  if opc = 0x01 || opc = 0x02 || opc = 0x06 || opc = 0x08 then 8
  else if opc = 0x03 || opc = 0x04 || opc = 0x05 || opc = 0x07 then 4
  else 0

/-- The output element size E in bytes of a command (30_encoding.md R95). -/
def elementSize (i : Instr) : Nat := elementSizeOf i.opcode

/-- The operands of a command as unbounded numbers, and the data memory it reads: the arguments of `Exec`
(40_command_execution.md R132, R142; 30_encoding.md R94). -/
structure Operands where
  inBase : Nat
  inLen : Nat
  cursor : Nat
  outBase : Nat
  outCap : Nat
  arg0 : Nat
  mem : Memory
  deriving DecidableEq, Repr

/-- The operands as the registers and data memory hold them (40_command_execution.md R132). -/
def captureOperands (s : State) : Operands where
  inBase := s.inBase.toNat
  inLen := s.inLen.toNat
  cursor := s.cursor.toNat
  outBase := s.outBase.toNat
  outCap := s.outCap.toNat
  arg0 := s.arg0.toNat
  mem := s.mem

/-- The input window `[IN_BASE, IN_BASE + IN_LEN)` (10_state.md R36). -/
def inputWindow (s : State) : AddrRange := ⟨s.inBase.toNat, s.inBase.toNat + s.inLen.toNat⟩

/-- The bytes of the input window the engine may read, those from `CURSOR` on (20_memory.md R65). -/
def readableWindow (s : State) : AddrRange :=
  ⟨s.inBase.toNat + s.cursor.toNat, s.inBase.toNat + s.inLen.toNat⟩

/-- The output region `[OUT_BASE, OUT_BASE + OUT_CAP * E)` (10_state.md R39). -/
def outputRegion (esize : Nat) (s : State) : AddrRange :=
  ⟨s.outBase.toNat, s.outBase.toNat + s.outCap.toNat * esize⟩

/-- What the command in `CMD` owns while BUSY (20_memory.md R71). -/
def ownedWindow (s : State) : Window :=
  ⟨readableWindow s, outputRegion (elementSizeOf (opcField s.cmd)) s⟩

/-- An address lies in a range. -/
def AddrRange.contains (r : AddrRange) (a : Nat) : Bool := r.lo ≤ a && a < r.hi

/-- Two ranges share an address. -/
def AddrRange.meets (r q : AddrRange) : Bool :=
  r.lo < r.hi && q.lo < q.hi && r.lo < q.hi && q.lo < r.hi

/-- The width check 4 of 40_command_execution.md R133 on the command itself. -/
def checkWidth (i : Instr) : Bool := i.wellFormed

/-- Check 5 of 40_command_execution.md R133: an `RLE` header is even. -/
def checkRleHeader (i : Instr) (s : State) : Bool :=
  match i with
  | .rle _ => s.arg0.getLsbD 0 = false
  | _ => true

/-- Checks 6 to 10 of 40_command_execution.md R133 on the registers: the input window does not pass 2^64, `CURSOR` is
in it, the output region is aligned to E, does not pass 2^64, and does not overlap the input window. -/
def checkRegions (esize : Nat) (s : State) : Bool :=
  (inputWindow s).hi ≤ 2 ^ 64
    && s.cursor.toNat ≤ s.inLen.toNat
    && s.outBase.toNat % esize = 0
    && (outputRegion esize s).hi ≤ 2 ^ 64
    && !(0 < s.inLen.toNat && 0 < s.outCap.toNat
          && s.inBase.toNat < (outputRegion esize s).hi && s.outBase.toNat < (inputWindow s).hi)

/-- Checks 4 to 10 of 40_command_execution.md R133, on a command the decoder's checks 1 to 3 have passed. Each raises
BAD_ARG at `CURSOR`, so which of them fails first makes no difference. -/
def operandsLegal (i : Instr) (s : State) : Bool :=
  checkWidth i && checkRleHeader i s && checkRegions (elementSize i) s

/-- The input window or the output region has access side effects (20_memory.md R67; log 13). -/
def touchesSideEffects (i : Instr) (s : State) : Bool :=
  s.platform.sideEffect.any fun r =>
    r.meets (inputWindow s) || r.meets (outputRegion (elementSize i) s)

/-- Why the model refuses the command in `CMD`, if it does: the platform is not coherent (20_memory.md R78), or the
command's checks pass and its window or region has access side effects (R67; log 13). START and completion both ask
it, so that a command the model refuses is never in flight. -/
def commandRefusal (s : State) : Option Refusal :=
  if !s.platform.coherent then some .notCoherent
  else
    match decode s.cmd with
    | .error _ => none
    | .ok i => if operandsLegal i s && touchesSideEffects i s then some .sideEffectMemory else none

/-- Some engine access of kind `k` in `r` receives an error response (60_exceptions.md R287). -/
def meetsBusError (s : State) (k : Access) (r : AddrRange) : Bool :=
  s.platform.busErr.any fun b => b.kind = k && b.range.meets r

end Sys2Proof.Machine
end

