-- ==== Sys2Proof/Machine/Ops.lean ====
section
/-! DEFINITION. The named operations over data memory and over the registers: reading and writing memory
(20_memory.md R60, R61, R66), START (40_command_execution.md R131), completion without fault (R141), taking a fault
(60_exceptions.md R291), and reset (70_reset_and_hazards.md R320 to R322). -/

namespace Sys2Proof.Machine

/-! ### Little-endian numbers -/

/-- The little-endian number of a list of bytes, `LE(b0, b1, …)` (00_scope.md R10). -/
def littleEndian : List Byte → Nat
  | [] => 0
  | b :: bs => b.toNat + 256 * littleEndian bs

/-- The `n`-byte little-endian image of `v`: its low `8n` bits, low byte first (00_scope.md R13, 20_memory.md R61). -/
def bytesOf : Nat → Nat → List Byte
  | 0, _ => []
  | n + 1, v => BitVec.ofNat 8 v :: bytesOf n (v / 256)

/-! ### Data memory -/

/-- The byte listed at an address, if one is. -/
def lookupCell : List Host.Cell → Nat → Option Byte
  | [], _ => none
  | (b, v) :: rest, a => if b = a then some v else lookupCell rest a

/-- An address lies in a region of free bytes. -/
def FreeRegion.contains (r : FreeRegion) (a : Nat) : Bool := r.base ≤ a && a < r.base + r.size

/-- The free choice that gives the byte at an address, if one does. -/
def freeDraw (free : List FreeRegion) (a : Nat) : Option Nat :=
  (free.find? fun r => r.contains a).map FreeRegion.draw

/-- What an address with no listed byte reads as: a free value in a free region (20_memory.md R66; log 2), else 0
(log 1). -/
def unlistedByte (free : List FreeRegion) (a : Nat) : Byte :=
  match freeDraw free a with
  | some d => Config.freeByte d a
  | none => 0

/-- The byte of data memory at an address (20_memory.md R60). -/
def Memory.read (m : Memory) (a : Nat) : Byte := (lookupCell m.cells a).getD (unlistedByte m.free a)

/-- `MemRead(a, n)`: the n bytes at `a`, `a + 1`, … in ascending address order (20_memory.md R60). -/
def Memory.readBytes (m : Memory) (a : Nat) : Nat → List Byte
  | 0 => []
  | n + 1 => m.read a :: m.readBytes (a + 1) n

/-- A byte listed at an address where none is, in rising order of addresses. -/
def insertCell : List Host.Cell → Nat → Byte → List Host.Cell
  | [], a, v => [(a, v)]
  | (b, w) :: rest, a, v => if a < b then (a, v) :: (b, w) :: rest else (b, w) :: insertCell rest a v

/-- The parts of a free region outside `lo`, …, `hi - 1`. -/
def FreeRegion.outside (r : FreeRegion) (lo hi : Nat) : List FreeRegion :=
  let below := min (r.base + r.size) lo
  let above := max r.base hi
  (if r.base < below then [⟨r.base, below - r.base, r.draw⟩] else [])
    ++ (if above < r.base + r.size then [⟨above, r.base + r.size - above, r.draw⟩] else [])

/-- The free regions with the addresses `lo`, …, `hi - 1` taken out. -/
def carveFree (free : List FreeRegion) (lo hi : Nat) : List FreeRegion :=
  free.flatMap fun r => r.outside lo hi

/-- A free region added where none is, in rising order of addresses. -/
def insertRegion : List FreeRegion → FreeRegion → List FreeRegion
  | [], r => [r]
  | q :: rest, r => if r.base < q.base then r :: q :: rest else q :: insertRegion rest r

/-- One byte stored; a byte equal to what an unlisted address reads as is not listed (20_memory.md R60). -/
def Memory.writeByte (m : Memory) (a : Nat) (v : Byte) : Memory where
  cells :=
    let others := m.cells.filter fun c => c.1 ≠ a
    if v = 0 then others else insertCell others a v
  free := carveFree m.free a (a + 1)

/-- Bytes stored at `a`, `a + 1`, …: the k-th at `a + k` (20_memory.md R60). -/
def Memory.writeBytes (m : Memory) (a : Nat) : List Byte → Memory
  | [] => m
  | b :: bs => (m.writeByte a b).writeBytes (a + 1) bs

/-- The output elements stored: element i at `base + i * esize`, as its low `8 * esize` bits, little-endian
(20_memory.md R66, 40_command_execution.md R137). -/
def Memory.writeElements (m : Memory) (base esize : Nat) : List Nat → Memory
  | [] => m
  | v :: vs => (m.writeBytes base (bytesOf esize v)).writeElements (base + esize) esize vs

/-- The bytes at `base`, …, `base + size - 1` take any value: those of free choice number `draw` (20_memory.md R66;
log 2). -/
def Memory.makeFree (m : Memory) (base size draw : Nat) : Memory :=
  if size = 0 then m
  else
    { cells := m.cells.filter fun c => !(base ≤ c.1 && c.1 < base + size)
      free := insertRegion (carveFree m.free base (base + size)) ⟨base, size, draw⟩ }

/-- Every region of a list made free in turn. -/
def Memory.makeFreeAll (m : Memory) : List FreeRegion → Memory
  | [] => m
  | r :: rs => (m.makeFree r.base r.size r.draw).makeFreeAll rs

/-- The canonical form of data memory: addresses strictly rising and below 2^64, no listed byte equal to what the
address reads as unlisted, no listed byte in a free region, the free regions apart, not empty and below 2^64. -/
def Memory.wf (m : Memory) : Bool :=
  decide (m.cells.Pairwise fun c d => c.1 < d.1)
    && m.cells.all (fun c => c.1 < 2 ^ 64 && c.2 ≠ 0 && (freeDraw m.free c.1).isNone)
    && decide (m.free.Pairwise fun r q => r.base + r.size ≤ q.base)
    && m.free.all (fun r => 0 < r.size && r.base + r.size ≤ 2 ^ 64)

/-! ### Completion -/

/-- Completion without fault: `CURSOR`, `OUT_COUNT` and the output elements take the command's results, `STATE` becomes
DONE and `IRQ_PENDING` is set (40_command_execution.md R141; 20_memory.md R66). -/
def completeDone (s : State) (esize p : Nat) (values : List Nat) : State :=
  { s with
    cursor := BitVec.ofNat 64 p
    outCount := BitVec.ofNat 64 values.length
    fault := .none
    faultPos := 0
    state := .done
    irqPending := true
    mem := s.mem.writeElements s.outBase.toNat esize values }

/-- TAKING A FAULT: the code, the position, `STATE` = ERROR and `IRQ_PENDING` are saved, `OUT_COUNT` is 0, and nothing
else changes (60_exceptions.md R291, 40_command_execution.md R141). There is no operation that returns from a fault:
what leaves ERROR is START (60_exceptions.md R292), `startCommand`. -/
def takeFault (s : State) (f : FaultCode) (pos : Word) : State :=
  { s with outCount := 0, fault := f, faultPos := pos, state := .error, irqPending := true }

/-- The output region as bytes of the next free choice. A region that passes 2^64, which a check turns away, has the
bytes of it that exist (10_state.md R39, 20_memory.md R60). -/
def freeOutputRegion (s : State) (esize : Nat) : FreeRegion :=
  ⟨s.outBase.toNat, min (s.outCap.toNat * esize) (2 ^ 64 - s.outBase.toNat), s.draws⟩

/-- Every byte of the output region takes any value (20_memory.md R66; log 2). -/
def freeOutput (s : State) (esize : Nat) : State :=
  { s with
    mem := s.mem.makeFree (freeOutputRegion s esize).base (freeOutputRegion s esize).size s.draws
    draws := s.draws + 1 }

/-- A command turned away by a check: the fault at `CURSOR`, with nothing read, and its output region left at any
value as after every fault (40_command_execution.md R133, 20_memory.md R66, 93 I1; log 3). -/
def turnAway (s : State) (esize : Nat) (f : FaultCode) : State := takeFault (freeOutput s esize) f s.cursor

/-! ### START and reset -/

/-- START: `STATE` becomes BUSY; `FAULT`, `FAULT_POS` and `OUT_COUNT` become 0; no other register changes
(40_command_execution.md R131). The engine owns the command's window and region from here on (20_memory.md R71). -/
def startCommand (s : State) : State :=
  { s with state := .busy, fault := .none, faultPos := 0, outCount := 0, owned := ownedWindow s :: s.owned }

/-- A command in flight is abandoned, whatever its operands: every byte of its output region takes any value, its input
window is unchanged even where the two overlap, and no other byte changes (70_reset_and_hazards.md R322; log 17). A
command the model refuses is never in flight; in the states that no run reaches, this outcome for it is the model's
(DESIGN CHOICE, log 12, log 13). -/
def abandonCommand (s : State) : State :=
  if s.state = .busy then
    let region := freeOutputRegion s (elementSizeOf (opcField s.cmd))
    { s with
      mem := s.mem.makeFreeAll (region.outside (inputWindow s).lo (inputWindow s).hi)
      draws := s.draws + 1 }
  else s

/-- Every register and field takes its reset value and ownership returns to the host; `ID` keeps `BLOCK_ID`, and data
memory is not touched (10_state.md R52, 70_reset_and_hazards.md R322). -/
def clearRegisters (s : State) : State :=
  { s with
    irqEn := false
    state := .idle
    fault := .none
    irqPending := false
    wrIgnored := false
    cmd := 0
    inBase := 0
    inLen := 0
    cursor := 0
    outBase := 0
    outCap := 0
    arg0 := 0
    outCount := 0
    faultPos := 0
    owned := [] }

/-- Reset, power-on or soft: a command in flight is abandoned and every register takes its reset value
(70_reset_and_hazards.md R320, R321). -/
def resetBlock (s : State) : State := clearRegisters (abandonCommand s)

end Sys2Proof.Machine
end

