-- ==== Sys2Proof/Machine/Stream.lean ====
section
/-! DEFINITION. The engine's context and stream primitives (40_command_execution.md R134 to R140) and the two run
primitives that several commands share: the varint (41_varint.md R160) with its zigzag step (R164), the bit-packed
run (42_bitpack_rle.md R180) and the RLE run (R184). -/

namespace Sys2Proof.Machine

/-- The engine's context while a command runs: the running input offset p and the elements emitted so far
(40_command_execution.md R134; 10_state.md R50). -/
structure Ctx where
  p : Nat
  out : List Nat
  deriving DecidableEq, Repr

/-- n, the number of elements emitted (40_command_execution.md R134). -/
def Ctx.n (c : Ctx) : Nat := c.out.length

/-- What a piece of a command's body does: it goes on with a value, or raises a fault, whose position is the running
offset at the raise (40_command_execution.md R140). -/
inductive Run (α : Type) where
  | ok (value : α) (c : Ctx)
  | raised (f : FaultCode) (c : Ctx)
  deriving DecidableEq, Repr

/-- A piece of a command's body, run on a context. -/
abbrev Eng (α : Type) := Ctx → Run α

/-- Statements run in the order written, and a raise ends the command at once (00_scope.md R14). -/
def andThen {α β : Type} (x : Eng α) (f : α → Eng β) : Eng β := fun c =>
  match x c with
  | .ok a c' => f a c'
  | .raised e c' => .raised e c'

/-- A piece that does nothing and gives a value. -/
def give {α : Type} (a : α) : Eng α := fun c => .ok a c

/-- `raise F(p)` (40_command_execution.md R140). -/
def raiseFault {α : Type} (f : FaultCode) : Eng α := fun c => .raised f c

/-- The running input offset p. -/
def position : Eng Nat := fun c => .ok c.p c

/-- The number n of elements emitted so far. -/
def emitted : Eng Nat := fun c => .ok c.n c

/-- `ReadBytes(k, l)`: the next k bytes, or TRUNCATED at p when they do not all lie before the limit
(40_command_execution.md R135). -/
def readBytes (o : Operands) (k l : Nat) : Eng (List Byte) := fun c =>
  if c.p + k > l then .raised .truncated c
  else .ok (o.mem.readBytes (o.inBase + c.p) k) { c with p := c.p + k }

/-- `ReadByte(l)` (40_command_execution.md R136). -/
def readByte (o : Operands) (l : Nat) : Eng Byte :=
  andThen (readBytes o 1 l) fun bytes =>
  give (bytes.headD 0)

/-- `Need(k)`: k more elements fit, or CAPACITY at p (40_command_execution.md R138). -/
def need (o : Operands) (k : Nat) : Eng Unit := fun c =>
  if c.n + k > o.outCap then .raised .capacity c else .ok () c

/-- `emit(v)` for each value of a list in order (40_command_execution.md R137). -/
def emit (vs : List Nat) : Eng Unit := fun c => .ok () { c with out := c.out ++ vs }

/-! ### Varint and ZigZag -/

/-- The loop of `Varint(l)` with `left` more bytes allowed after the next one, the next byte's weight being
`2^shift`. The byte with `left` = 0 is the 10th: 0x02 or more in it is MALFORMED just past it (41_varint.md R160,
R161). -/
def varintFrom (o : Operands) (l : Nat) : (left shift result : Nat) → Eng Nat
  | 0, shift, result =>
    andThen (readByte o l) fun b =>
    if b.toNat ≥ 0x02 then raiseFault .malformed
    else give (result + b.toNat % 128 * 2 ^ shift)
  | left + 1, shift, result =>
    andThen (readByte o l) fun b =>
    if b.toNat < 0x80 then give (result + b.toNat % 128 * 2 ^ shift)
    else varintFrom o l left (shift + 7) (result + b.toNat % 128 * 2 ^ shift)

/-- `Varint(l)`: one unsigned varint of at most 10 bytes (41_varint.md R160). -/
def varint (o : Operands) (l : Nat) : Eng Nat := varintFrom o l 9 0 0

/-- `unzigzag_64(u)` (00_scope.md R15). -/
def unzigzag64 (u : Word) : Word := (u >>> 1) ^^^ (0 - (u &&& 1))

/-- The zigzag map undone on the full 64-bit varint and cut to W bits (41_varint.md R164, 44_delta.md R231). -/
def unzigzagCut (w u : Nat) : Nat := (unzigzag64 (BitVec.ofNat 64 u)).toNat % 2 ^ w

/-! ### Bit-packed runs -/

/-- The first `count` values of a bit-packed run whose bytes are the little-endian number `d`: value j is the bw-bit
field at run bit `j * bw`, zero-extended (42_bitpack_rle.md R180, R182; 30_encoding.md R102). -/
def unpack (d bw : Nat) : Nat → List Nat
  | 0 => []
  | count + 1 => d % 2 ^ bw :: unpack (d >>> bw) bw count

/-- `BitUnpack(ng, bw, l)`, all `ng * bw` bytes read and the first `count` of its values returned
(42_bitpack_rle.md R180). -/
def bitUnpackFirst (o : Operands) (ng bw count l : Nat) : Eng (List Nat) :=
  andThen (readBytes o (ng * bw) l) fun d =>
  give (unpack (littleEndian d) bw count)

/-- `BitUnpack(ng, bw, l)`: the `ng * 8` values of a run of ng groups (42_bitpack_rle.md R180). -/
def bitUnpack (o : Operands) (ng bw l : Nat) : Eng (List Nat) := bitUnpackFirst o ng bw (ng * 8) l

/-! ### RLE runs -/

/-- `RleRun(count, bw, l)`: capacity, then the `ceil(bw / 8)` value bytes, which are read even for a count of 0, then
the value, not masked to bw bits, `count` times (42_bitpack_rle.md R184 to R186). -/
def rleRun (o : Operands) (count bw l : Nat) : Eng Unit :=
  andThen (need o count) fun _ =>
  andThen (readBytes o ((bw + 7) / 8) l) fun v =>
  emit (List.replicate count (littleEndian v))

end Sys2Proof.Machine
end

