-- ==== Sys2Proof/Machine/Command.lean ====
section
/-! DEFINITION. What every command shares around its body: the operand checks, the bus errors, and completion
(40_command_execution.md R133, R134, R139 to R142; 60_exceptions.md R287, R290). -/

namespace Sys2Proof.Machine

/-- The context a body starts from: `p <- CURSOR`, `n <- 0` (40_command_execution.md R134). -/
def startContext (o : Operands) : Ctx := { p := o.cursor, out := [] }

/-- The context a body ended in, by success or at its raise. -/
def finalContext (r : Run Unit) : Ctx :=
  match r with
  | .ok _ c => c
  | .raised _ c => c

/-- An access the body's outcome needs meets `BUS_ERR`: a byte it consumed, from `CURSOR` to the final p, or an element
it emitted (20_memory.md R65, R66; 60_exceptions.md R287; log 5). -/
def bodyMeetsBusError (esize : Nat) (s : State) (c : Ctx) : Bool :=
  meetsBusError s .read ⟨s.inBase.toNat + s.cursor.toNat, s.inBase.toNat + c.p⟩
    || meetsBusError s .write ⟨s.outBase.toNat, s.outBase.toNat + c.n * esize⟩

/-- An access of the command meets `BUS_ERR`: one it needs, or a prefetch of a byte of the window it does not need,
which the engine is free to make or not (20_memory.md R65, 60_exceptions.md R290; log 5). -/
def commandMeetsBusError (esize : Nat) (s : State) (c : Ctx) : Bool :=
  bodyMeetsBusError esize s c
    || (meetsBusError s .read (readableWindow s) && Config.prefetchMeets s.draws)

/-- The fault of a command that meets a bus error: BUS_ERROR, or the fault it would report without it, a free choice
(60_exceptions.md R290; log 5). -/
def busErrorCode (s : State) (r : Run Unit) : FaultCode :=
  match r with
  | .ok _ _ => .busError
  | .raised f _ => if Config.busReportsOther s.draws then f else .busError

/-- The completion step of a command whose checks have passed, given what its body did (40_command_execution.md R141,
R142). -/
def completeBody (esize : Nat) (s : State) (r : Run Unit) : State :=
  if commandMeetsBusError esize s (finalContext r) then
    takeFault (freeOutput s esize) (busErrorCode s r) (Config.freePos s.draws)
  else
    match r with
    | .ok _ c => { completeDone s esize c.p c.out with draws := s.draws + 1 }
    | .raised f c => takeFault (freeOutput s esize) f (BitVec.ofNat 64 c.p)

/-- A command from its checks to its completion: BAD_ARG at `CURSOR` when a check fails
(40_command_execution.md R133; log 3), else the body on the captured operands and its completion. A command on memory with
access side effects is refused (20_memory.md R67). -/
def runCommand (i : Instr) (body : Operands → Eng Unit) (s : State) : Host.Outcome State Fault Refusal :=
  if !operandsLegal i s then .next (turnAway s (elementSize i) .badArg)
  else if touchesSideEffects i s then .refused .sideEffectMemory
  else .next (completeBody (elementSize i) s (body (captureOperands s) (startContext (captureOperands s))))

end Sys2Proof.Machine
end

