-- ==== Sys2Proof/Machine/BitpackRle.lean ====
section
/-! DEFINITION. The bit-packing and RLE family: `BITUNPACK` and `RLE` (42_bitpack_rle.md R183, R187). -/

namespace Sys2Proof.Machine

/-- The body of `BITUNPACK`: one bit-packed run of `ARG0 >> 1` groups, `ARG0[0]` ignored (42_bitpack_rle.md R183). -/
def bitunpackBody (bw : Nat) (o : Operands) : Eng Unit :=
  andThen (need o (o.arg0 / 2 * 8)) fun _ =>
  andThen (bitUnpack o (o.arg0 / 2) bw o.inLen) fun vs =>
  emit vs

/-- `BITUNPACK` (42_bitpack_rle.md R183). -/
def execBitunpack (width : BitVec 8) (s : State) : Host.Outcome State Fault Refusal :=
  runCommand (.bitunpack width) (bitunpackBody width.toNat) s

/-- The body of `RLE`: one RLE run of `ARG0 >> 1` values (42_bitpack_rle.md R187). -/
def rleBody (bw : Nat) (o : Operands) : Eng Unit := rleRun o (o.arg0 / 2) bw o.inLen

/-- `RLE` (42_bitpack_rle.md R187). -/
def execRle (width : BitVec 8) (s : State) : Host.Outcome State Fault Refusal :=
  runCommand (.rle width) (rleBody width.toNat) s

end Sys2Proof.Machine
end

