-- ==== Sys2Proof/Machine/ByteStreamSplit.lean ====
section
/-! DEFINITION. The byte-stream-split family: `BSS32` and `BSS64`, one body at E planes (45_byte_stream_split.md R260 to
R263). -/

namespace Sys2Proof.Machine

/-- Value i of `count` values of E bytes: byte k is byte i of plane k (45_byte_stream_split.md R260; 30_encoding.md
R106). Bytes are moved, never interpreted (45_byte_stream_split.md R261). -/
def gatherPlanes (d : List Byte) (count planes i : Nat) : Nat :=
  littleEndian ((List.range planes).map fun k => d.getD (k * count + i) 0)

/-- `Bss(E)`: capacity, then all `count * E` bytes, then the values (45_byte_stream_split.md R260). -/
def bssBody (planes : Nat) (o : Operands) : Eng Unit :=
  andThen (need o o.arg0) fun _ =>
  andThen (readBytes o (o.arg0 * planes) o.inLen) fun d =>
  emit ((List.range o.arg0).map fun i => gatherPlanes d o.arg0 planes i)

/-- `BSS32` (45_byte_stream_split.md R262). -/
def execBss32 (s : State) : Host.Outcome State Fault Refusal := runCommand .bss32 (bssBody 4) s

/-- `BSS64` (45_byte_stream_split.md R263). -/
def execBss64 (s : State) : Host.Outcome State Fault Refusal := runCommand .bss64 (bssBody 8) s

end Sys2Proof.Machine
end

