-- ==== Sys2Proof/Machine/Delta.lean ====
section
/-! DEFINITION. The delta family: `DELTA32` and `DELTA64`, one body at width W (44_delta.md R230 to R240). -/

namespace Sys2Proof.Machine

/-- The header's first three varints (44_delta.md R230); the fourth, `firstValue`, is cut to W bits as it is read. -/
structure DeltaHeader where
  blockSize : Nat
  miniBlocks : Nat
  numValues : Nat
  deriving DecidableEq, Repr

/-- `numValuesInMiniBlock` (44_delta.md R232). -/
def DeltaHeader.perMiniBlock (h : DeltaHeader) : Nat := h.blockSize / h.miniBlocks

/-- A header is consistent: neither count is 0, the mini-blocks divide the block evenly, and each holds a multiple of 8
values (44_delta.md R232). -/
def DeltaHeader.valid (h : DeltaHeader) : Bool :=
  h.miniBlocks ≠ 0 && h.blockSize ≠ 0 && h.blockSize % h.miniBlocks = 0 && h.perMiniBlock % 8 = 0

/-- The values that raw deltas give, each the one before plus the delta plus `minDelta`, modulo 2^W (44_delta.md R235,
R239). -/
def deltaValues (w minDelta : Nat) : (prev : Nat) → List Nat → List Nat
  | _, [] => []
  | prev, d :: ds => (prev + d + minDelta) % 2 ^ w :: deltaValues w minDelta ((prev + d + minDelta) % 2 ^ w) ds

/-- One mini-block at its width: its whole body is read, and the values still wanted are emitted. Values past
`numValues` are discarded, so no more are computed (44_delta.md R233, R238; log 16). The value returned is the last
one reconstructed. -/
def deltaMiniBlock (o : Operands) (w : Nat) (h : DeltaHeader) (minDelta prev width : Nat) : Eng Nat :=
  andThen emitted fun n =>
  andThen (bitUnpackFirst o (h.perMiniBlock / 8) width (min h.perMiniBlock (h.numValues - n)) o.inLen) fun ds =>
  andThen (emit (deltaValues w minDelta prev ds)) fun _ =>
  give ((deltaValues w minDelta prev ds).getLastD prev)

/-- The mini-blocks of a block in order, each at the width its byte states (44_delta.md R233). -/
def deltaMiniBlocks (o : Operands) (w : Nat) (h : DeltaHeader) (minDelta : Nat) : (prev : Nat) → List Byte → Eng Nat
  | prev, [] => give prev
  | prev, width :: widths =>
    andThen (deltaMiniBlock o w h minDelta prev width.toNat) fun last =>
    deltaMiniBlocks o w h minDelta last widths

/-- One block: `minDelta`, the width bytes, MALFORMED just past them when one is above W, then the mini-blocks
(44_delta.md R233, R234). -/
def deltaBlock (o : Operands) (w : Nat) (h : DeltaHeader) (prev : Nat) : Eng Nat :=
  andThen (varint o o.inLen) fun z =>
  andThen (readBytes o h.miniBlocks o.inLen) fun widths =>
  if widths.any fun b => b.toNat > w then raiseFault .malformed
  else deltaMiniBlocks o w h (unzigzagCut w z) prev widths

/-- Blocks until `numValues` elements are emitted, at most `fuel` of them; a block emits at least one element, so
`numValues` is fuel enough (44_delta.md R233, R238; log 25). -/
def deltaBlocks (o : Operands) (w : Nat) (h : DeltaHeader) : (fuel prev : Nat) → Eng Unit
  | 0, _ => give ()
  | fuel + 1, prev =>
    andThen emitted fun n =>
    if n < h.numValues then
      andThen (deltaBlock o w h prev) fun last =>
      deltaBlocks o w h fuel last
    else give ()

/-- `Delta(W)` after the header varints: the header's checks, the capacity, the first value, then the blocks
(44_delta.md R232, R233, R235). -/
def deltaAfterHeader (o : Operands) (w : Nat) (h : DeltaHeader) (first : Nat) : Eng Unit :=
  if !h.valid then raiseFault .malformed
  else
    andThen (need o h.numValues) fun _ =>
    andThen (emit (if h.numValues ≥ 1 then [first] else [])) fun _ =>
    deltaBlocks o w h h.numValues first

/-- `Delta(W)`: the four header varints, then the rest (44_delta.md R230, R233). -/
def deltaBody (w : Nat) (o : Operands) : Eng Unit :=
  andThen (varint o o.inLen) fun blockSize =>
  andThen (varint o o.inLen) fun miniBlocks =>
  andThen (varint o o.inLen) fun numValues =>
  andThen (varint o o.inLen) fun fz =>
  deltaAfterHeader o w ⟨blockSize, miniBlocks, numValues⟩ (unzigzagCut w fz)

/-- `DELTA32` (44_delta.md R236). -/
def execDelta32 (s : State) : Host.Outcome State Fault Refusal := runCommand .delta32 (deltaBody 32) s

/-- `DELTA64` (44_delta.md R237). -/
def execDelta64 (s : State) : Host.Outcome State Fault Refusal := runCommand .delta64 (deltaBody 64) s

end Sys2Proof.Machine
end

