-- ==== Sys2Proof/Machine/Hybrid.lean ====
section
/-! DEFINITION. The hybrid family: `HYBRID` (43_hybrid.md R211 to R214). -/

namespace Sys2Proof.Machine

/-- The region length: `ARG0` when `LENX` is 1, else the 4-byte little-endian signed prefix, a negative one being
MALFORMED just past it (43_hybrid.md R211, R212). -/
def regionLength (lenx : Bool) (o : Operands) : Eng Nat :=
  if lenx then give o.arg0
  else
    andThen (readBytes o 4 o.inLen) fun raw =>
    if littleEndian raw ≥ 2 ^ 31 then raiseFault .malformed
    else give (littleEndian raw)

/-- One run of the region: its header varint, then an RLE run or a bit-packed run by the header's bit 0
(43_hybrid.md R212; 30_encoding.md R104). -/
def hybridRun (o : Operands) (bw stop : Nat) : Eng Unit :=
  andThen (varint o stop) fun h =>
  if h % 2 = 0 then rleRun o (h / 2) bw stop
  else
    andThen (need o (h / 2 * 8)) fun _ =>
    andThen (bitUnpack o (h / 2) bw stop) fun vs =>
    emit vs

/-- Runs until the region's end, at most `fuel` of them; each consumes a byte, so the bytes of the region are fuel
enough (43_hybrid.md R212, R213; 40_command_execution.md R144; log 25). -/
def hybridRuns (o : Operands) (bw stop : Nat) : (fuel : Nat) → Eng Unit
  | 0 => give ()
  | fuel + 1 =>
    andThen position fun p =>
    if p < stop then
      andThen (hybridRun o bw stop) fun _ =>
      hybridRuns o bw stop fuel
    else give ()

/-- The body of `HYBRID`: the region's length, TRUNCATED when the region is not all present, then its runs up to its
end (43_hybrid.md R212). -/
def hybridBody (bw : Nat) (lenx : Bool) (o : Operands) : Eng Unit :=
  andThen (regionLength lenx o) fun len =>
  andThen position fun p =>
  if p + len > o.inLen then raiseFault .truncated
  else hybridRuns o bw (p + len) len

/-- `HYBRID` (43_hybrid.md R212). -/
def execHybrid (width : BitVec 8) (lenx : Bool) (s : State) : Host.Outcome State Fault Refusal :=
  runCommand (.hybrid width lenx) (hybridBody width.toNat lenx) s

end Sys2Proof.Machine
end

