-- ==== Sys2Proof/Machine/Varint.lean ====
section
/-! DEFINITION. The varint family: `VARINT` (41_varint.md R163). -/

namespace Sys2Proof.Machine

/-- `count` varints in a row, each emitted as it is decoded (41_varint.md R163). -/
def varints (o : Operands) : Nat → Eng Unit
  | 0 => give ()
  | count + 1 =>
    andThen (varint o o.inLen) fun v =>
    andThen (emit [v]) fun _ =>
    varints o count

/-- The body of `VARINT`: `ARG0` varints, their capacity checked before any read (41_varint.md R163). -/
def varintBody (o : Operands) : Eng Unit :=
  andThen (need o o.arg0) fun _ =>
  varints o o.arg0

/-- `VARINT` (41_varint.md R163). -/
def execVarint (s : State) : Host.Outcome State Fault Refusal := runCommand .varint varintBody s

end Sys2Proof.Machine
end

