-- ==== Sys2Proof/Machine/Dispatch.lean ====
section
/-! DEFINITION. One arm per command: what the completion step of that command does (40_command_execution.md R139). -/

namespace Sys2Proof.Machine

def exec (i : Instr) (s : State) : Host.Outcome State Fault Refusal :=
  match i with
  | .varint => Sys2Proof.Machine.execVarint s
  | .bitunpack width => Sys2Proof.Machine.execBitunpack width s
  | .rle width => Sys2Proof.Machine.execRle width s
  | .hybrid width lenx => Sys2Proof.Machine.execHybrid width lenx s
  | .delta32 => Sys2Proof.Machine.execDelta32 s
  | .delta64 => Sys2Proof.Machine.execDelta64 s
  | .bss32 => Sys2Proof.Machine.execBss32 s
  | .bss64 => Sys2Proof.Machine.execBss64 s

end Sys2Proof.Machine
end

