-- ==== Sys2Proof/Machine/Registers.lean ====
section
/-! DEFINITION. The register block as the host sees it: the map, what a read returns and what a write does
(10_state.md R22 to R47). -/

namespace Sys2Proof.Machine

/-- The registers of the block (10_state.md R22). -/
inductive Reg where
  | id
  | ctrl
  | status
  | cmd
  | inBase
  | inLen
  | cursor
  | outBase
  | outCap
  | arg0
  | outCount
  | faultPos
  /-- A slot at 0x60 to 0xF8 (10_state.md R43). -/
  | reserved
  deriving DecidableEq, Repr

/-- The register of the 8-byte slot with a given number, offset / 8 (10_state.md R22). -/
def regOfSlot (slot : Nat) : Reg :=
  match slot with
  | 0 => .id
  | 1 => .ctrl
  | 2 => .status
  | 3 => .cmd
  | 4 => .inBase
  | 5 => .inLen
  | 6 => .cursor
  | 7 => .outBase
  | 8 => .outCap
  | 9 => .arg0
  | 10 => .outCount
  | 11 => .faultPos
  | _ => .reserved

/-- The register at an offset of the block (10_state.md R22). -/
def regAt (offset : BitVec 8) : Reg := regOfSlot (offset.toNat / 8)

/-- The bus address of an offset of the block, `REG_BASE + offset` (10_state.md R22, 30_encoding.md R108; log 7). That a
bus address has 64 bits, so that the sum wraps modulo 2^64, is the model's (DESIGN CHOICE, log 27). -/
def busAddress (offset : BitVec 8) : Word := Config.regBase + offset.zeroExtend 64

/-- What a host read of a register returns (10_state.md R23, R27, R33 to R43). It has no side effect on the registers
(20_memory.md R67). -/
def readReg (r : Reg) (s : State) : Word :=
  match r with
  | .id => s.id
  | .ctrl => ctrlWord s
  | .status => statusWord s
  | .cmd => s.cmd
  | .inBase => s.inBase
  | .inLen => s.inLen
  | .cursor => s.cursor
  | .outBase => s.outBase
  | .outCap => s.outCap
  | .arg0 => s.arg0
  | .outCount => s.outCount
  | .faultPos => s.faultPos
  | .reserved => 0

/-- A host write to a register that is locked while BUSY: then it is ignored and `WR_IGNORED` is set (10_state.md
R46). -/
def writeUnlocked (s : State) (written : State) : State :=
  if s.state = .busy then { s with wrIgnored := true } else written

/-- START of the command in `CMD`, with the registers as `s` has them; a command the model refuses is refused here, so
that it is never in flight (40_command_execution.md R131; 20_memory.md R67, R78; log 12, log 13). -/
def hostStart (s : State) : Host.Outcome State Fault Refusal :=
  match commandRefusal s with
  | some r => .refused r
  | none => .next (startCommand s)

/-- A host write to `CTRL`: a soft reset and nothing else, or `IRQ_EN` and then, for bit 0, START, which is ignored
while BUSY (10_state.md R25). -/
def writeCtrl (w : Word) (s : State) : Host.Outcome State Fault Refusal :=
  if w.getLsbD 2 then .next (resetBlock s)
  else
    let enabled := { s with irqEn := w.getLsbD 1 }
    if !w.getLsbD 0 then .next enabled
    else if s.state = .busy then .next { enabled with wrIgnored := true }
    else hostStart enabled

/-- What a host write of a register does, `CTRL` aside (10_state.md R33 to R46). -/
def writeStored (r : Reg) (w : Word) (s : State) : State :=
  match r with
  | .status => writeStatus w s
  | .cmd => writeUnlocked s { s with cmd := w }
  | .inBase => writeUnlocked s { s with inBase := w }
  | .inLen => writeUnlocked s { s with inLen := w }
  | .cursor => writeUnlocked s { s with cursor := w }
  | .outBase => writeUnlocked s { s with outBase := w }
  | .outCap => writeUnlocked s { s with outCap := w }
  | .arg0 => writeUnlocked s { s with arg0 := w }
  | .id => s
  | .ctrl => s
  | .outCount => s
  | .faultPos => s
  | .reserved => s

/-- What a host write of a register does (10_state.md R25, R33 to R46). -/
def writeReg (r : Reg) (w : Word) (s : State) : Host.Outcome State Fault Refusal :=
  if r = .ctrl then writeCtrl w s else .next (writeStored r w s)

/-- A register access is an aligned 8-byte access (10_state.md R44). -/
def accessShapeLegal (offset : BitVec 8) (size : Nat) : Bool := size = 8 && offset.toNat % 8 = 0

/-- A register access that the spec gives a meaning is carried out; any other is refused (10_state.md R44,
70_reset_and_hazards.md R320). -/
def guardAccess (offset : BitVec 8) (size : Nat) (s : State) (after : Host.Outcome State Fault Refusal) :
    Host.Outcome State Fault Refusal :=
  if s.inReset then .refused .registerAccessInReset
  else if accessShapeLegal offset size then after
  else .refused .registerAccessShape

/-- The host has read `STATUS`: if it shows the engine not BUSY, ownership returns to the host (20_memory.md R71;
log 11). -/
def observeStatus (s : State) : State :=
  if s.state = .busy then s else { s with owned := [] }

/-- A host read of the register at an offset: the value is returned, and a read of `STATUS` lets the host see a
completion (20_memory.md R71). -/
def hostReadReg (offset : BitVec 8) (size : Nat) (s : State) : Host.Outcome State Fault Refusal :=
  let returned := { s with hostReg := readReg (regAt offset) s }
  guardAccess offset size s (.next (if regAt offset = .status then observeStatus returned else returned))

/-- A host write of the register at an offset. -/
def hostWriteReg (offset : BitVec 8) (size : Nat) (w : Word) (s : State) : Host.Outcome State Fault Refusal :=
  guardAccess offset size s (writeReg (regAt offset) w s)

/-- An access by another agent to data memory must lie below 2^64 (20_memory.md R60) and may not touch what the engine
owns: `touches` says which part of a window it may not meet (20_memory.md R71). Memory with side effects on access is a
device whose behaviour the spec does not give: the access is refused (DESIGN CHOICE, log 26). -/
def guardMemory (addr : Word) (n : Nat) (touches : Window → AddrRange → Bool) (s after : State) :
    Host.Outcome State Fault Refusal :=
  if addr.toNat + n > 2 ^ 64 then .fault .outsideAddressSpace
  else if s.owned.any fun w => touches w ⟨addr.toNat, addr.toNat + n⟩ then .refused .ownershipViolated
  else if s.platform.sideEffect.any fun r => r.meets ⟨addr.toNat, addr.toNat + n⟩ then .refused .deviceAccess
  else .next after

/-- A read of data memory by another agent: not of an owned output region (20_memory.md R71), nor of a device
(DESIGN CHOICE, log 26). -/
def hostReadMem (addr : Word) (n : Nat) (s : State) : Host.Outcome State Fault Refusal :=
  guardMemory addr n (fun w r => r.meets w.output) s { s with hostBytes := s.mem.readBytes addr.toNat n }

/-- A write to data memory by another agent: not to an owned input window or output region (20_memory.md R71). The
bytes are visible to the engine at once (R72; log 15). A write to a device is refused (DESIGN CHOICE, log 26). -/
def hostWriteMem (addr : Word) (bytes : List Byte) (s : State) : Host.Outcome State Fault Refusal :=
  guardMemory addr bytes.length (fun w r => r.meets w.input || r.meets w.output) s
    { s with mem := s.mem.writeBytes addr.toNat bytes }

end Sys2Proof.Machine
end

