-- ==== Sys2Proof/Machine/Engine.lean ====
section
/-! DEFINITION. The two agents' steps and which of them comes next (00_scope.md R18, 40_command_execution.md R142;
log 8). `step` only calls what stands here. -/

namespace Sys2Proof.Machine

/-- The fault of a command word that spells no command (30_encoding.md R96, R97). -/
def decodeFault : DecodeError → FaultCode
  | .invalidType => .invalidType
  | .badArg => .badArg

/-- The completion step of the command in `CMD`: a word that spells no command faults at `CURSOR`
(40_command_execution.md R133 checks 1 to 4; log 3), any other runs. Without coherence every command is refused
(20_memory.md R78). -/
def completeCommand (s : State) : Host.Outcome State Fault Refusal :=
  if !s.platform.coherent then .refused .notCoherent
  else
    match decode s.cmd with
    | .error e => .next (turnAway s (elementSizeOf (opcField s.cmd)) (decodeFault e))
    | .ok i => exec i s

/-- The engine's step: completion while BUSY, and nothing otherwise, since a block that is not BUSY takes no step
(40_command_execution.md R142, 60_exceptions.md R300). -/
def engineStep (s : State) : Host.Outcome State Fault Refusal :=
  if s.state = .busy then completeCommand s else .next s

/-- One event. A host write to `STATUS` in the same instant as a completion comes first, so that the completion's set
of `IRQ_PENDING` wins (10_state.md R31; log 14). -/
def applyEvent (e : Event) (s : State) : Host.Outcome State Fault Refusal :=
  match e with
  | .engine => engineStep s
  | .engineWithStatusWrite w =>
    if s.inReset then .refused .registerAccessInReset else engineStep (writeStatus w s)
  | .regRead offset size => hostReadReg offset size s
  | .regWrite offset size w => hostWriteReg offset size w s
  | .memRead addr n => hostReadMem addr n s
  | .memWrite addr bytes => hostWriteMem addr bytes s
  | .assertReset => .next { resetBlock s with inReset := true }
  | .releaseReset => .next { s with inReset := false }

/-- What happens next: the first event still to come, or, when none is, the engine's step, so that a BUSY block
completes (40_command_execution.md R142; log 8). -/
def advance (s : State) : Host.Outcome State Fault Refusal :=
  match s.inputs with
  | [] => engineStep s
  | e :: rest => applyEvent e { s with inputs := rest }

/-- The state in which the next step completes the command word `w`: `CMD` holds it, START has happened, reset is
released, and no event comes first (log 9). -/
def placeCommand (w : Word) (s : State) : State :=
  startCommand { s with cmd := w, inputs := [], inReset := false }

end Sys2Proof.Machine
end

