-- ==== Sys2Proof/Machine/Step.lean ====
section
/-! DEFINITION. The step of the machine, and the host's placing of a command word where the next step runs it. -/

namespace Sys2Proof.Machine

/-- One step of the machine (`advance`). -/
def step (s : State) : Host.Outcome State Fault Refusal := advance s

/-- `s` with the command word of the table's bits in `CMD` and started, so that the very next step completes it
(`placeCommand`; log 9). -/
def State.withFetchWord (s : State) (nbits w : Nat) : State := placeCommand (tableWord nbits w) s

end Sys2Proof.Machine
end

