-- ==== Sys2Proof/Safety.lean ====
section
/-! DEFINITION. The terms statements about PQDEC use: when a command runs undisturbed, what a completed command leaves
(20_memory.md R66, 40_command_execution.md R141), the invariant of every step, and the byte layouts of the stream
formats as the spec states them (30_encoding.md R100 to R106), written as relations between bytes and values and not
with the decoder's own functions. -/

namespace Sys2Proof.Safety

open Sys2Proof.Machine

/-! ### When a command runs undisturbed -/

/-- The operand checks 6 to 10 of 40_command_execution.md R133 hold, for an output element size E. -/
structure OperandsOk (esize : Nat) (s : State) : Prop where
  inputFits : s.inBase.toNat + s.inLen.toNat ≤ 2 ^ 64
  cursorInWindow : s.cursor.toNat ≤ s.inLen.toNat
  outputAligned : s.outBase.toNat % esize = 0
  outputFits : s.outBase.toNat + s.outCap.toNat * esize ≤ 2 ^ 64
  apart : s.inLen.toNat = 0 ∨ s.outCap.toNat = 0
    ∨ s.outBase.toNat + s.outCap.toNat * esize ≤ s.inBase.toNat
    ∨ s.inBase.toNat + s.inLen.toNat ≤ s.outBase.toNat

/-- The platform leaves the command alone: no byte of the input window or of the output region has access side effects
(20_memory.md R67), and no engine access to them answers with an error (20_memory.md R69). -/
structure PlatformQuiet (esize : Nat) (s : State) : Prop where
  noSideEffect : ∀ r ∈ s.platform.sideEffect, ∀ a, r.lo ≤ a → a < r.hi →
    ¬(s.inBase.toNat ≤ a ∧ a < s.inBase.toNat + s.inLen.toNat)
      ∧ ¬(s.outBase.toNat ≤ a ∧ a < s.outBase.toNat + s.outCap.toNat * esize)
  noReadError : ∀ b ∈ s.platform.busErr, b.kind = .read → ∀ a, b.range.lo ≤ a → a < b.range.hi →
    ¬(s.inBase.toNat + s.cursor.toNat ≤ a ∧ a < s.inBase.toNat + s.inLen.toNat)
  noWriteError : ∀ b ∈ s.platform.busErr, b.kind = .write → ∀ a, b.range.lo ≤ a → a < b.range.hi →
    ¬(s.outBase.toNat ≤ a ∧ a < s.outBase.toNat + s.outCap.toNat * esize)

/-- No engine access the command may make answers with an error: no read of its window from `CURSOR` on and no write of
its output region (20_memory.md R65, R66, R69), the premise of 40_command_execution.md R143. -/
structure NoBusErrors (esize : Nat) (s : State) : Prop where
  reads : ∀ b ∈ s.platform.busErr, b.kind = .read → ∀ a, b.range.lo ≤ a → a < b.range.hi →
    ¬(s.inBase.toNat + s.cursor.toNat ≤ a ∧ a < s.inBase.toNat + s.inLen.toNat)
  writes : ∀ b ∈ s.platform.busErr, b.kind = .write → ∀ a, b.range.lo ≤ a → a < b.range.hi →
    ¬(s.outBase.toNat ≤ a ∧ a < s.outBase.toNat + s.outCap.toNat * esize)

/-- The command runs its body undisturbed: its checks pass and the platform leaves it alone. -/
structure Undisturbed (esize : Nat) (s : State) : Prop where
  operands : OperandsOk esize s
  platform : PlatformQuiet esize s

/-- No engine access of a command that took `s` to `t` answers with an error: no read the engine may make of the window,
and no write of an element it stored (20_memory.md R65, R66, R69). -/
structure AccessesAnswered (esize : Nat) (s t : State) : Prop where
  reads : ∀ b ∈ s.platform.busErr, b.kind = .read → ∀ a, b.range.lo ≤ a → a < b.range.hi →
    ¬(s.inBase.toNat + s.cursor.toNat ≤ a ∧ a < s.inBase.toNat + s.inLen.toNat)
  writes : ∀ b ∈ s.platform.busErr, b.kind = .write → ∀ a, b.range.lo ≤ a → a < b.range.hi →
    ¬(s.outBase.toNat ≤ a ∧ a < s.outBase.toNat + t.outCount.toNat * esize)

/-- Data memory holds the bytes, in order, from offset `CURSOR` of the input window on, inside the window. -/
structure InputAt (s : State) (bytes : List Byte) : Prop where
  inWindow : s.cursor.toNat + bytes.length ≤ s.inLen.toNat
  bytesHeld : s.mem.readBytes (s.inBase.toNat + s.cursor.toNat) bytes.length = bytes

/-! ### What a command leaves -/

/-- The command completed without fault at input offset p with these elements of E bytes: the registers of
40_command_execution.md R141, the memory of 20_memory.md R66, and nothing else changed. -/
structure CompletedWith (s t : State) (esize p : Nat) (values : List Nat) : Prop where
  state : t.state = .done
  fault : t.fault = .none
  faultPos : t.faultPos = 0
  pending : t.irqPending = true
  cursor : t.cursor.toNat = p
  outCount : t.outCount.toNat = values.length
  elements : ∀ i, i < values.length →
    littleEndian (t.mem.readBytes (s.outBase.toNat + i * esize) esize) = values.getD i 0 % 2 ^ (8 * esize)
  elsewhere : ∀ a, ¬(s.outBase.toNat ≤ a ∧ a < s.outBase.toNat + values.length * esize) → t.mem.read a = s.mem.read a
  kept : t = { s with
    state := t.state, fault := t.fault, faultPos := t.faultPos, irqPending := t.irqPending, cursor := t.cursor
    outCount := t.outCount, mem := t.mem, draws := t.draws }

/-- The command completed with a fault at an input offset: the registers of 40_command_execution.md R141 and
60_exceptions.md R291. Memory outside the output region is unchanged (20_memory.md R66), and so is everything else. It
says nothing of the bytes in the region, which may hold any value (93 I1; log 2, log 3). -/
structure FaultedWith (s t : State) (esize : Nat) (f : FaultCode) (pos : Nat) : Prop where
  state : t.state = .error
  fault : t.fault = f
  faultPos : t.faultPos.toNat = pos
  pending : t.irqPending = true
  outCount : t.outCount = 0
  elsewhere : ∀ a, ¬(s.outBase.toNat ≤ a ∧ a < s.outBase.toNat + s.outCap.toNat * esize) →
    t.mem.read a = s.mem.read a
  kept : t = { s with
    state := t.state, fault := t.fault, faultPos := t.faultPos, irqPending := t.irqPending
    outCount := t.outCount, mem := t.mem, draws := t.draws }

/-- Every register and field of the block but `ID` holds its reset value (10_state.md R52). -/
structure AtResetValues (t : State) : Prop where
  irqEn : t.irqEn = false
  state : t.state = .idle
  fault : t.fault = .none
  irqPending : t.irqPending = false
  wrIgnored : t.wrIgnored = false
  cmd : t.cmd = 0
  inBase : t.inBase = 0
  inLen : t.inLen = 0
  cursor : t.cursor = 0
  outBase : t.outBase = 0
  outCap : t.outCap = 0
  arg0 : t.arg0 = 0
  outCount : t.outCount = 0
  faultPos : t.faultPos = 0

/-! ### The invariant of every step -/

/-- What every step keeps: memory in canonical form; `FAULT` not 0 exactly in ERROR, `FAULT_POS` 0 outside ERROR and
`OUT_COUNT` 0 outside DONE (10_state.md R29, R41, R42, R47); nothing pending or ignored while IDLE; a BUSY command
owns its window (20_memory.md R71) and is none the model refuses (20_memory.md R67, R78); every register at its reset value while reset is asserted (70_reset_and_hazards.md
R320). -/
structure Inv (s : State) : Prop where
  memory : s.mem.wf = true
  faultIffError : s.fault ≠ .none ↔ s.state = .error
  faultPosOutsideError : s.state ≠ .error → s.faultPos = 0
  outCountOutsideDone : s.state ≠ .done → s.outCount = 0
  idleIsQuiet : s.state = .idle → s.irqPending = false ∧ s.wrIgnored = false
  busyOwns : s.state = .busy → ownedWindow s ∈ s.owned
  busyRuns : s.state = .busy → commandRefusal s = none
  resetHolds : s.inReset = true → AtResetValues s ∧ s.owned = []

/-! ### The opcode table (30_encoding.md R95, R99) -/

/-- A row of opcode_table.json: the words it matches, and the largest legal `WIDTH`. -/
structure OpcodeRow where
  pattern : Word
  mask : Word
  maxWidth : Nat
  deriving DecidableEq, Repr

/-- The rows of opcode_table.json, in its order, with the width ranges of 30_encoding.md R95. -/
def opcodeTable : List OpcodeRow :=
  [ ⟨0x0000000000000001, 0xFFFFFFFFFFFFFFFF, 0⟩,
    ⟨0x0000000000000002, 0xFFFFFFFFFFFF00FF, 64⟩,
    ⟨0x0000000000000003, 0xFFFFFFFFFFFF00FF, 32⟩,
    ⟨0x0000000000000004, 0xFFFFFFFFFFFE00FF, 32⟩,
    ⟨0x0000000000000005, 0xFFFFFFFFFFFFFFFF, 0⟩,
    ⟨0x0000000000000006, 0xFFFFFFFFFFFFFFFF, 0⟩,
    ⟨0x0000000000000007, 0xFFFFFFFFFFFFFFFF, 0⟩,
    ⟨0x0000000000000008, 0xFFFFFFFFFFFFFFFF, 0⟩ ]

/-- A word matches a row (30_encoding.md R99). -/
def OpcodeRow.Matches (r : OpcodeRow) (w : Word) : Prop := w &&& r.mask = r.pattern

/-- The opcode of a word is reserved (30_encoding.md R96). -/
def OpcodeReserved (w : Word) : Prop := w.toNat % 2 ^ 8 = 0 ∨ 9 ≤ w.toNat % 2 ^ 8

/-- A legal opcode in an illegal form: reserved bits, `LENX` outside `HYBRID`, or `WIDTH` outside the opcode's range
(30_encoding.md R97, R98). -/
def IllegalForm (w : Word) : Prop :=
  w.toNat / 2 ^ 17 ≠ 0
    ∨ (w.getLsbD 16 = true ∧ w.toNat % 2 ^ 8 ≠ 4)
    ∨ (w.toNat % 2 ^ 8 = 2 ∧ 64 < w.toNat / 2 ^ 8 % 2 ^ 8)
    ∨ ((w.toNat % 2 ^ 8 = 3 ∨ w.toNat % 2 ^ 8 = 4) ∧ 32 < w.toNat / 2 ^ 8 % 2 ^ 8)
    ∨ ((w.toNat % 2 ^ 8 = 1 ∨ 5 ≤ w.toNat % 2 ^ 8) ∧ w.toNat / 2 ^ 8 % 2 ^ 8 ≠ 0)

/-! ### Varints (30_encoding.md R100) -/

/-- The number whose 7-bit groups the bytes hold, least significant first (30_encoding.md R100). -/
def groupsValue : List Byte → Nat
  | [] => 0
  | b :: rest => b.toNat % 128 + 128 * groupsValue rest

/-- The bytes are a varint of value v: 1 to 10 of them, bit 7 set on all but the last and clear on the last, and a 10th
byte below 0x02 (30_encoding.md R100, 41_varint.md R161). -/
structure IsVarint (bytes : List Byte) (v : Nat) : Prop where
  shape : ∃ init last, bytes = init ++ [last] ∧ (∀ b ∈ init, 0x80 ≤ b.toNat) ∧ last.toNat < 0x80
  atMostTen : bytes.length ≤ 10
  tenthByte : bytes.length = 10 → (bytes.getD 9 0).toNat < 0x02
  value : v = groupsValue bytes

/-- The bytes of some varints in a row, with their values in order. -/
def VarintsLaid : List Nat → List Byte → Prop
  | [], bytes => bytes = []
  | v :: vs, bytes => ∃ first rest, bytes = first ++ rest ∧ IsVarint first v ∧ VarintsLaid vs rest

/-- `VarintEncode(v)` with `left` more bytes allowed after the next one (00_scope.md R16). -/
def varintEncodeFrom : (left : Nat) → Nat → List Byte
  | 0, v => [BitVec.ofNat 8 v]
  | left + 1, v =>
    if v < 128 then [BitVec.ofNat 8 v] else BitVec.ofNat 8 (128 + v % 128) :: varintEncodeFrom left (v / 128)

/-- The reference encoder `VarintEncode(v)`: 7-bit groups, least significant first, bit 7 set on all but the last byte,
the fewest bytes that hold v (00_scope.md R16). Not hardware. -/
def varintEncode (v : Nat) : List Byte := varintEncodeFrom 9 v

/-- `zigzag_64` (00_scope.md R15). Not hardware: it only states the property of `unzigzag64`. -/
def zigzag64 (v : Word) : Word := (v <<< 1) ^^^ v.sshiftRight 63

/-! ### Bit-packed runs (30_encoding.md R102) -/

/-- The bytes are a bit-packed run of the values at width bw: value j has its bit i at run bit `j * bw + i`, run bit b
being bit `b % 8` of byte `b / 8`; each value is below 2^bw (30_encoding.md R102). -/
structure IsPacked (bw : Nat) (values : List Nat) (bytes : List Byte) : Prop where
  size : bytes.length * 8 = values.length * bw
  fits : ∀ v ∈ values, v < 2 ^ bw
  bits : ∀ j, j < values.length → ∀ i, i < bw →
    (values.getD j 0).testBit i = (bytes.getD ((j * bw + i) / 8) 0).getLsbD ((j * bw + i) % 8)

/-! ### Hybrid regions (30_encoding.md R104) -/

/-- A run of a hybrid region: `count` times the value whose body bytes are given, or bit-packed values
(30_encoding.md R104). -/
inductive HybridRun where
  | rle (count : Nat) (body : List Byte)
  | packed (values : List Nat)
  deriving DecidableEq, Repr

/-- The values of a run. -/
def HybridRun.values : HybridRun → List Nat
  | .rle count body => List.replicate count (littleEndian body)
  | .packed vs => vs

/-- The bytes of one run at width bw: an even header varint `2 * count` and `ceil(bw / 8)` value bytes, or an odd header
varint `2 * groups + 1` and a bit-packed run (30_encoding.md R103, R104). -/
def HybridRun.Laid (bw : Nat) (run : HybridRun) (bytes : List Byte) : Prop :=
  match run with
  | .rle count body => ∃ header, bytes = header ++ body ∧ IsVarint header (2 * count) ∧ body.length = (bw + 7) / 8
  | .packed vs => ∃ header packed groups, bytes = header ++ packed ∧ IsVarint header (2 * groups + 1)
      ∧ vs.length = groups * 8 ∧ IsPacked bw vs packed

/-- The bytes of a hybrid region: its runs with nothing between them (30_encoding.md R104). -/
def RunsLaid (bw : Nat) : List HybridRun → List Byte → Prop
  | [], bytes => bytes = []
  | r :: rs, bytes => ∃ first rest, bytes = first ++ rest ∧ r.Laid bw first ∧ RunsLaid bw rs rest

/-! ### Delta blocks (30_encoding.md R105) -/

/-- A delta block: the zigzag image of its minimum delta, and its mini-blocks, each a width byte and raw deltas
(30_encoding.md R105). -/
structure DeltaBlock where
  minDeltaImage : Nat
  minis : List (Byte × List Nat)
  deriving DecidableEq, Repr

/-- The bodies of the mini-blocks in a row, each a bit-packed run of `per` deltas at its width, at most W
(30_encoding.md R105, 44_delta.md R234). -/
def MinisLaid (w per : Nat) : List (Byte × List Nat) → List Byte → Prop
  | [], bytes => bytes = []
  | m :: ms, bytes => ∃ first rest, bytes = first ++ rest ∧ m.1.toNat ≤ w ∧ m.2.length = per
      ∧ IsPacked m.1.toNat m.2 first ∧ MinisLaid w per ms rest

/-- The bytes of one block: the zigzag varint of its minimum delta, a width byte for each mini-block, then the bodies
(30_encoding.md R105). -/
def DeltaBlock.Laid (w miniBlocks per : Nat) (b : DeltaBlock) (bytes : List Byte) : Prop :=
  ∃ minDelta bodies, bytes = minDelta ++ b.minis.map Prod.fst ++ bodies ∧ IsVarint minDelta b.minDeltaImage
    ∧ b.minis.length = miniBlocks ∧ MinisLaid w per b.minis bodies

/-- The bytes of the blocks in a row. -/
def BlocksLaid (w miniBlocks per : Nat) : List DeltaBlock → List Byte → Prop
  | [], bytes => bytes = []
  | b :: bs, bytes => ∃ first rest, bytes = first ++ rest ∧ b.Laid w miniBlocks per first
      ∧ BlocksLaid w miniBlocks per bs rest

/-- What each delta of a block adds to the value before it: the raw delta plus the block's minimum delta, which is
unzigzagged and cut to W bits (44_delta.md R231, R235). -/
def DeltaBlock.increments (w : Nat) (b : DeltaBlock) : List Nat :=
  b.minis.flatMap fun m => m.2.map fun d => d + (unzigzag64 (BitVec.ofNat 64 b.minDeltaImage)).toNat % 2 ^ w

/-- Element k of a delta stream: the first value plus the first k increments, modulo 2^W (44_delta.md R235, R239). -/
def deltaElement (w firstImage : Nat) (blocks : List DeltaBlock) (k : Nat) : Nat :=
  ((unzigzag64 (BitVec.ofNat 64 firstImage)).toNat + ((blocks.flatMap (DeltaBlock.increments w)).take k).sum) % 2 ^ w

/-- A delta-binary-packed stream for width W: the four header varints, consistent (44_delta.md R232), then the least
number of blocks whose values reach `numValues` (30_encoding.md R105). -/
structure DeltaStream (w : Nat) (blockSize miniBlocks numValues firstImage : Nat) (blocks : List DeltaBlock)
    (bytes : List Byte) : Prop where
  laid : ∃ b1 b2 b3 b4 rest, bytes = b1 ++ b2 ++ b3 ++ b4 ++ rest ∧ IsVarint b1 blockSize ∧ IsVarint b2 miniBlocks
    ∧ IsVarint b3 numValues ∧ IsVarint b4 firstImage ∧ BlocksLaid w miniBlocks (blockSize / miniBlocks) blocks rest
  someMiniBlocks : miniBlocks ≠ 0
  someValues : blockSize ≠ 0
  even : blockSize % miniBlocks = 0
  groups : (blockSize / miniBlocks) % 8 = 0
  enough : numValues ≤ 1 + blocks.length * blockSize
  least : blocks.length = 0 ∨ 1 + (blocks.length - 1) * blockSize < numValues

/-! ### Byte-stream split (30_encoding.md R106) -/

/-- The bytes are the planes of the values, back to back: byte i of plane k is byte k of value i (30_encoding.md
R106). -/
structure IsPlanes (planes : Nat) (values : List Nat) (bytes : List Byte) : Prop where
  size : bytes.length = planes * values.length
  fits : ∀ v ∈ values, v < 2 ^ (8 * planes)
  gathered : ∀ i, i < values.length → ∀ k, k < planes →
    (bytes.getD (k * values.length + i) 0).toNat = values.getD i 0 / 2 ^ (8 * k) % 2 ^ 8

end Sys2Proof.Safety
end

