-- ==== Sys2Proof/Certificates/Slice0/Obligations.lean ====
section
/-! DEFINITION. The statements for the provers. Each cites the rule it follows; `Sys2Proof.Safety` holds the terms they
use (`Undisturbed`, `InputAt`, `CompletedWith`, `FaultedWith`, `NoBusErrors`, `Inv`, the stream layouts). -/

open Sys2Proof Sys2Proof.Machine Sys2Proof.Safety

/-! ### Command words -/

/-- Decoding the encoding of any well-formed command gives it back, at every width and `LENX` the encoding admits
(30_encoding.md R91, R95, R107). -/
def Obligations.DecodeOfEncodedCommand : Prop :=
  ∀ i : Instr, i.wellFormed = true → decode (encode i) = .ok i

/-- A word decodes to a command only if it is that command's encoding, and then the command is well formed: no bit of a
command word is dropped (30_encoding.md R91, R97, R99). -/
def Obligations.DecodedWordIsTheEncoding : Prop :=
  ∀ (w : Word) (i : Instr), decode w = .ok i → i.wellFormed = true ∧ encode i = w

/-- The decoder is total: INVALID_TYPE for a reserved opcode, else BAD_ARG for an illegal form, else the command whose
encoding the word is; a legal opcode that matches no row of the opcode table, or matches one with `WIDTH` outside its
range, is BAD_ARG (30_encoding.md R99). -/
def Obligations.DecoderClassifiesEveryWord : Prop :=
  ∀ w : Word,
    (OpcodeReserved w → decode w = .error .invalidType)
      ∧ (¬OpcodeReserved w → IllegalForm w → decode w = .error .badArg)
      ∧ (¬OpcodeReserved w → ¬IllegalForm w → ∃ i, decode w = .ok i ∧ i.opcode.toNat = w.toNat % 2 ^ 8 ∧ encode i = w)
      ∧ (¬OpcodeReserved w → (∀ r ∈ opcodeTable, ¬r.Matches w) → decode w = .error .badArg)
      ∧ (∀ r ∈ opcodeTable, r.Matches w → r.maxWidth < w.toNat / 2 ^ 8 % 2 ^ 8 → decode w = .error .badArg)

/-- Some command words, written out from 30_encoding.md R91 and R107, decode to the commands they stand for. -/
def Obligations.WrittenWordsDecode : Prop :=
  decode 0x0000000000000001 = .ok .varint
    ∧ decode 0x0000000000004002 = .ok (.bitunpack 64)
    ∧ decode 0x0000000000002003 = .ok (.rle 32)
    ∧ decode 0x0000000000000804 = .ok (.hybrid 8 false)
    ∧ decode 0x0000000000010304 = .ok (.hybrid 3 true)
    ∧ decode 0x0000000000000005 = .ok .delta32
    ∧ decode 0x0000000000000006 = .ok .delta64
    ∧ decode 0x0000000000000007 = .ok .bss32
    ∧ decode 0x0000000000000008 = .ok .bss64

/-! ### The step -/

/-- A step of a BUSY block runs the command in `CMD`: with no event to come, or with the engine's completion next, the
step is `exec` of the decoded command (40_command_execution.md R139, R142). -/
def Obligations.StepRunsTheDecodedCommand : Prop :=
  ∀ (s : State) (i : Instr), s.state = .busy → s.platform.coherent = true → decode s.cmd = .ok i →
    (s.inputs = [] → step s = exec i s)
      ∧ (∀ rest, s.inputs = .engine :: rest → step s = exec i { s with inputs := rest })

/-- The operand checks, in their order: a reserved opcode completes with INVALID_TYPE (code 3); then an illegal form, an
odd `RLE` header or operands out of order complete with BAD_ARG (code 4); each at `CURSOR`. Memory changes at most in
the output region, which a reserved opcode has not: its bytes are any value after every fault (log 3). A command that
passes the checks reports neither fault (40_command_execution.md R133; 30_encoding.md R96, R97). -/
def Obligations.OperandChecksInOrder : Prop :=
  ∀ s : State, s.inputs = [] → s.state = .busy → s.platform.coherent = true →
    (OpcodeReserved s.cmd →
        ∃ t, step s = .next t ∧ FaultedWith s t 0 .invalidType s.cursor.toNat ∧ t.fault.code = 3)
      ∧ (¬OpcodeReserved s.cmd →
          IllegalForm s.cmd ∨ (s.cmd.toNat % 2 ^ 8 = 3 ∧ s.arg0.getLsbD 0 = true)
            ∨ ¬OperandsOk (elementSizeOf (BitVec.ofNat 8 s.cmd.toNat)) s →
          ∃ t, step s = .next t
            ∧ FaultedWith s t (elementSizeOf (BitVec.ofNat 8 s.cmd.toNat)) .badArg s.cursor.toNat
            ∧ t.fault.code = 4)
      ∧ (¬OpcodeReserved s.cmd → ¬IllegalForm s.cmd → ¬(s.cmd.toNat % 2 ^ 8 = 3 ∧ s.arg0.getLsbD 0 = true) →
          OperandsOk (elementSizeOf (BitVec.ofNat 8 s.cmd.toNat)) s →
          ∀ t, step s = .next t → t.fault ≠ .invalidType ∧ t.fault ≠ .badArg)

/-- A START straight after reset, with `CMD` never written, goes through BUSY and completes with INVALID_TYPE at fault
position 0, raising `IRQ_PENDING` (70_reset_and_hazards.md R325). -/
def Obligations.StartStraightAfterReset : Prop :=
  ∃ t u, step { State.reset with inputs := [.regWrite 0x08 8 1] } = .next t ∧ t.state = .busy ∧ t.cmd = 0
    ∧ step t = .next u ∧ u.state = .error ∧ u.fault = .invalidType ∧ u.faultPos = 0 ∧ u.irqPending = true

/-- An IDLE, DONE or ERROR block takes no step of its own (60_exceptions.md R300). -/
def Obligations.BlockAtRestTakesNoStep : Prop :=
  ∀ s : State, s.state ≠ .busy →
    (s.inputs = [] → step s = .next s)
      ∧ (∀ rest, s.inputs = .engine :: rest → step s = .next { s with inputs := rest })

/-- Once no host event is to come, a BUSY block completes in one step, DONE or ERROR: in every state the invariant
admits, and on every coherent platform without side effects on access (40_command_execution.md R142). -/
def Obligations.BusyBlockCompletes : Prop :=
  ∀ s : State, s.inputs = [] → s.state = .busy →
    Inv s ∨ (s.platform.coherent = true ∧ s.platform.sideEffect = []) →
    ∃ t, step s = .next t ∧ (t.state = .done ∨ t.state = .error) ∧ t.irqPending = true

/-- A host write of `ARG0` that races with a completion has two legal outcomes: before it the write is ignored and
`WR_IGNORED` set, after it the write takes effect; the command's results are those of the `ARG0` it was started with
either way (40_command_execution.md R142; 10_state.md R46). -/
def Obligations.ArgWriteRacesCompletion : Prop :=
  ∀ (s : State) (i : Instr) (t : State) (v : Word), s.state = .busy → s.inReset = false →
    s.platform.coherent = true → decode s.cmd = .ok i → exec i { s with inputs := [] } = .next t →
    (∃ a, step { s with inputs := [.regWrite 0x48 8 v, .engine] } = .next a
        ∧ step a = .next { t with wrIgnored := true })
      ∧ (∃ b, step { s with inputs := [.engine, .regWrite 0x48 8 v] } = .next b
        ∧ step b = .next { t with arg0 := v })

/-! ### The register block -/

/-- What a host read returns from each of the 32 slots, with no side effect on a register (10_state.md R22, R23, R27,
R34 to R43; 20_memory.md R67). -/
def Obligations.RegisterReads : Prop :=
  ∀ (s : State) (slot : Nat), s.inReset = false → slot < 32 →
    ∃ t, hostReadReg (BitVec.ofNat 8 (8 * slot)) 8 s = .next t
      ∧ t.hostReg = ([s.id, if s.irqEn then 2 else 0, statusWord s, s.cmd, s.inBase, s.inLen, s.cursor, s.outBase,
          s.outCap, s.arg0, s.outCount, s.faultPos] : List Word).getD slot 0
      ∧ t = { s with hostReg := t.hostReg, owned := t.owned }

/-- A read of `STATUS` gives `{0^46, WR_IGNORED, IRQ_PENDING, FAULT, 0^6, STATE}`; the codes of `STATE` are IDLE 0, BUSY
1, DONE 2, ERROR 3, and those of `FAULT` are NONE 0, TRUNCATED 1, MALFORMED 2, INVALID_TYPE 3, BAD_ARG 4, CAPACITY 5,
BUS_ERROR 6 (10_state.md R29, R33; 60_exceptions.md R280). -/
def Obligations.StatusReadLayout : Prop :=
  (∀ s : State,
    (statusWord s).toNat = s.state.code.toNat + 2 ^ 8 * s.fault.code.toNat
      + (if s.irqPending then 2 ^ 16 else 0) + (if s.wrIgnored then 2 ^ 17 else 0))
    ∧ (EngineState.idle.code = 0 ∧ EngineState.busy.code = 1 ∧ EngineState.done.code = 2 ∧ EngineState.error.code = 3)
    ∧ FaultCode.none.code = 0 ∧ FaultCode.truncated.code = 1 ∧ FaultCode.malformed.code = 2
    ∧ FaultCode.invalidType.code = 3 ∧ FaultCode.badArg.code = 4 ∧ FaultCode.capacity.code = 5
    ∧ FaultCode.busError.code = 6

/-- A host write of w to `STATUS`, in any engine state, clears `IRQ_PENDING` for `w[16]` = 1 and `WR_IGNORED` for
`w[17]` = 1, and does nothing else; a read returns `{0^46, WR_IGNORED, IRQ_PENDING, FAULT, 0^6, STATE}` (10_state.md
R33). -/
def Obligations.StatusWriteAndRead : Prop :=
  ∀ (s : State) (w : Word), s.inReset = false →
    hostWriteReg 0x10 8 w s = .next { s with
        irqPending := if w.getLsbD 16 then false else s.irqPending
        wrIgnored := if w.getLsbD 17 then false else s.wrIgnored }
      ∧ ∃ t, hostReadReg 0x10 8 s = .next t
        ∧ t.hostReg = BitVec.ofNat 46 0 ++ BitVec.ofBool s.wrIgnored ++ BitVec.ofBool s.irqPending ++ s.fault.code
            ++ BitVec.ofNat 6 0 ++ s.state.code

/-- A host write to `CTRL` is applied in order: bit 2 resets, and bits 0 and 1 of the same write are discarded;
otherwise `IRQ_EN` takes bit 1, and then bit 0 starts the command, with the `IRQ_EN` just written, or is ignored with
`WR_IGNORED` set while BUSY (10_state.md R25). The START of a command the model refuses, which R25 does not speak of, is
the subject of `CommandsThePlatformRefuses`. -/
def Obligations.ControlWriteOrder : Prop :=
  ∀ (s : State) (w : Word), s.inReset = false →
    (w.getLsbD 2 = true →
        ∃ t, hostWriteReg 0x08 8 w s = .next t ∧ AtResetValues t ∧ hostWriteReg 0x08 8 4 s = .next t)
    ∧ (w.getLsbD 2 = false → w.getLsbD 0 = false → hostWriteReg 0x08 8 w s = .next { s with irqEn := w.getLsbD 1 })
    ∧ (w.getLsbD 2 = false → w.getLsbD 0 = true → s.state = .busy →
        hostWriteReg 0x08 8 w s = .next { s with irqEn := w.getLsbD 1, wrIgnored := true })
    ∧ (w.getLsbD 2 = false → w.getLsbD 0 = true → s.state ≠ .busy → commandRefusal s = none →
        ∃ t, hostWriteReg 0x08 8 w s = .next t
          ∧ t = { s with irqEn := w.getLsbD 1, state := .busy, fault := .none, faultPos := 0, outCount := 0
                         owned := t.owned })

/-- While BUSY a host write to `CMD` or to an operand register is ignored and sets `WR_IGNORED`; so is a START. Writes
to `IRQ_EN`, to `SOFT_RESET` and to the clearing bits of `STATUS` take effect. So no step of a command in flight
changes `CMD` or an operand register (10_state.md R46). -/
def Obligations.WritesWhileBusyAreIgnored : Prop :=
  ∀ s : State, s.state = .busy →
    (s.inReset = false → ∀ w : Word,
        (∀ offset ∈ ([0x18, 0x20, 0x28, 0x30, 0x38, 0x40, 0x48] : List (BitVec 8)),
            hostWriteReg offset 8 w s = .next { s with wrIgnored := true })
          ∧ (w.getLsbD 2 = false → w.getLsbD 0 = true →
              hostWriteReg 0x08 8 w s = .next { s with irqEn := w.getLsbD 1, wrIgnored := true })
          ∧ (w.getLsbD 2 = false → w.getLsbD 0 = false →
              hostWriteReg 0x08 8 w s = .next { s with irqEn := w.getLsbD 1 })
          ∧ (w.getLsbD 2 = true → ∃ t, hostWriteReg 0x08 8 w s = .next t ∧ AtResetValues t)
          ∧ hostWriteReg 0x10 8 w s = .next { s with
              irqPending := if w.getLsbD 16 then false else s.irqPending
              wrIgnored := if w.getLsbD 17 then false else s.wrIgnored })
      ∧ ∀ t, step s = .next t → t.state = .busy →
          t.cmd = s.cmd ∧ t.inBase = s.inBase ∧ t.inLen = s.inLen ∧ t.cursor = s.cursor ∧ t.outBase = s.outBase
            ∧ t.outCap = s.outCap ∧ t.arg0 = s.arg0

/-- While BUSY, reads return 1 in `STATE`, 0 from `OUT_COUNT` and from `FAULT_POS`, and no step of a command in flight
changes what a register read returns but for `CTRL` and `STATUS`; in every state the invariant admits (10_state.md
R47). -/
def Obligations.ReadsWhileBusy : Prop :=
  ∀ s : State, Inv s → s.state = .busy → s.inReset = false →
    (∃ t, hostReadReg 0x10 8 s = .next t ∧ t.hostReg.toNat % 4 = 1)
      ∧ (∃ t, hostReadReg 0x50 8 s = .next t ∧ t.hostReg = 0)
      ∧ (∃ t, hostReadReg 0x58 8 s = .next t ∧ t.hostReg = 0)
      ∧ ∀ u, step s = .next u → u.state = .busy → u.inReset = false →
          ∀ offset ∈ ([0x00, 0x18, 0x20, 0x28, 0x30, 0x38, 0x40, 0x48, 0x50, 0x58] : List (BitVec 8)),
            ∃ t t', hostReadReg offset 8 s = .next t ∧ hostReadReg offset 8 u = .next t' ∧ t'.hostReg = t.hostReg

/-- Outside BUSY, a write of `CMD` or of an operand register stores all 64 bits, reserved bits included, changes no
other register, and reads back (10_state.md R34 to R40; 70_reset_and_hazards.md R333). -/
def Obligations.OperandRegistersStoreAllBits : Prop :=
  ∀ (s : State) (w : Word), s.state ≠ .busy → s.inReset = false →
    ∀ x ∈ ([(0x18, { s with cmd := w }), (0x20, { s with inBase := w }), (0x28, { s with inLen := w }),
        (0x30, { s with cursor := w }), (0x38, { s with outBase := w }), (0x40, { s with outCap := w }),
        (0x48, { s with arg0 := w })] : List (BitVec 8 × State)),
      hostWriteReg x.1 8 w s = .next x.2 ∧ ∃ u, hostReadReg x.1 8 x.2 = .next u ∧ u.hostReg = w

/-- Writes to `ID`, `OUT_COUNT` and `FAULT_POS`, to the reserved slots and to the read-only fields of `STATUS` are
ignored in every engine state and never set `WR_IGNORED`; the reserved slots read 0 (10_state.md R43, R45). -/
def Obligations.ReadOnlyWritesAreIgnored : Prop :=
  ∀ (s : State) (w : Word), s.inReset = false →
    (∀ slot, slot = 0 ∨ (10 ≤ slot ∧ slot < 32) → hostWriteReg (BitVec.ofNat 8 (8 * slot)) 8 w s = .next s)
      ∧ (∃ t, hostWriteReg 0x10 8 w s = .next t ∧ t.state = s.state ∧ t.fault = s.fault
        ∧ (t.wrIgnored = true → s.wrIgnored = true))
      ∧ ∀ slot, 12 ≤ slot → slot < 32 →
          ∃ t, hostReadReg (BitVec.ofNat 8 (8 * slot)) 8 s = .next t ∧ t.hostReg = 0

/-- A register access that is not an aligned 8-byte access is refused, and so is any register access while power-on
reset is asserted (10_state.md R44; 70_reset_and_hazards.md R320). -/
def Obligations.RegisterAccessesRefused : Prop :=
  ∀ (s : State) (offset : BitVec 8) (size : Nat) (w : Word),
    (s.inReset = true → hostReadReg offset size s = .refused .registerAccessInReset
        ∧ hostWriteReg offset size w s = .refused .registerAccessInReset)
      ∧ (s.inReset = false → size ≠ 8 ∨ offset.toNat % 8 ≠ 0 →
          hostReadReg offset size s = .refused .registerAccessShape
            ∧ hostWriteReg offset size w s = .refused .registerAccessShape)

/-! ### Reset -/

/-- A soft reset, in any engine state, gives every register and field its reset value, keeps `ID`, returns ownership to
the host, leaves the interrupt output 0, and changes no byte of memory outside the output region of a command in flight,
nor any byte of its input window (70_reset_and_hazards.md R321, R322). -/
def Obligations.SoftResetClearsTheBlock : Prop :=
  ∀ (s : State) (w : Word), s.inReset = false → w.getLsbD 2 = true → ∃ t, hostWriteReg 0x08 8 w s = .next t
    ∧ AtResetValues t ∧ t.id = s.id ∧ t.owned = [] ∧ t.irq = false
    ∧ (s.state ≠ .busy → t.mem = s.mem)
    ∧ (∀ a, ¬(s.outBase.toNat ≤ a
          ∧ a < s.outBase.toNat + s.outCap.toNat * elementSizeOf (BitVec.ofNat 8 s.cmd.toNat)) →
        t.mem.read a = s.mem.read a)
    ∧ (∀ a, s.inBase.toNat ≤ a → a < s.inBase.toNat + s.inLen.toNat → t.mem.read a = s.mem.read a)
    ∧ t.platform = s.platform ∧ t.inReset = s.inReset ∧ t.inputs = s.inputs
    ∧ t.hostReg = s.hostReg ∧ t.hostBytes = s.hostBytes

/-- Power-on reset. Its assertion gives every register its reset value, abandons a command in flight with memory as after
a soft reset, and returns ownership. From then until the release every step keeps the reset values and the interrupt
output 0, and of memory changes nothing but what a host writes. The release touches neither registers nor memory; after
it the block takes no step of its own, and nothing but a host write of `CTRL` makes it leave IDLE
(70_reset_and_hazards.md R320, R322). -/
def Obligations.PowerOnReset : Prop :=
  (∀ (s : State) (rest : List Event), s.inputs = .assertReset :: rest →
    ∃ t, step s = .next t ∧ AtResetValues t ∧ t.inReset = true ∧ t.irq = false ∧ t.id = s.id ∧ t.owned = []
      ∧ (s.state ≠ .busy → t.mem = s.mem)
      ∧ (∀ a, ¬(s.outBase.toNat ≤ a
            ∧ a < s.outBase.toNat + s.outCap.toNat * elementSizeOf (BitVec.ofNat 8 s.cmd.toNat)) →
          t.mem.read a = s.mem.read a)
      ∧ (∀ a, s.inBase.toNat ≤ a → a < s.inBase.toNat + s.inLen.toNat → t.mem.read a = s.mem.read a))
    ∧ (∀ s t : State, s.inReset = true → AtResetValues s → step s = .next t →
      AtResetValues t ∧ t.irq = false ∧ t.id = s.id
        ∧ (t.inReset = true ∨ ∃ rest, s.inputs = .releaseReset :: rest)
        ∧ (t.mem = s.mem ∨ ∃ addr bytes rest, s.inputs = .memWrite addr bytes :: rest))
    ∧ (∀ (s : State) (rest : List Event), s.inReset = true → AtResetValues s → s.inputs = .releaseReset :: rest →
      ∃ u, step s = .next u ∧ AtResetValues u ∧ u.inReset = false ∧ u.id = s.id ∧ u.mem = s.mem ∧ u.inputs = rest
        ∧ (rest = [] → step u = .next u)
        ∧ (∀ rest', rest = .engine :: rest' → step u = .next { u with inputs := rest' }))
    ∧ (∀ u v : State, u.state = .idle → step u = .next v → v.state ≠ .idle →
      ∃ w rest, u.inputs = .regWrite 0x08 8 w :: rest ∧ v.state = .busy)

/-! ### Completion, faults and the interrupt -/

/-- Every next state of a command is a completion: DONE with the final position and the elements emitted, between
`CURSOR` and `IN_LEN` and within `OUT_CAP`; or ERROR with a fault code and position, `CURSOR` unchanged. Nothing else
changes, and of memory only the output region (40_command_execution.md R141; 20_memory.md R66; 60_exceptions.md
R291). -/
def Obligations.CommandEndsDoneOrError : Prop :=
  ∀ (i : Instr) (s t : State), exec i s = .next t →
    (∃ p values, CompletedWith s t (elementSize i) p values ∧ s.cursor.toNat ≤ p ∧ p ≤ s.inLen.toNat
        ∧ values.length ≤ s.outCap.toNat)
      ∨ (∃ f pos, f ≠ .none ∧ FaultedWith s t (elementSize i) f pos)

/-- A command whose operands fail a check completes with BAD_ARG at `CURSOR`; of memory only the output region may
change, whose bytes are any value after every fault (40_command_execution.md R133 checks 5 to 10; 20_memory.md R66;
60_exceptions.md R284; log 3). -/
def Obligations.FailedCheckTurnsTheCommandAway : Prop :=
  ∀ (i : Instr) (s : State), ¬OperandsOk (elementSize i) s ∨ (∃ w, i = .rle w ∧ s.arg0.getLsbD 0 = true) →
    ∃ t, exec i s = .next t ∧ FaultedWith s t (elementSize i) .badArg s.cursor.toNat

/-- The fault a command can complete with: never INVALID_TYPE, MALFORMED only from a command that reads varints, and
BAD_ARG at `CURSOR` (60_exceptions.md R282, R283, R284, R288). -/
def Obligations.FaultsOfEachCommand : Prop :=
  ∀ (i : Instr) (s t : State), exec i s = .next t → t.state = .error →
    (t.fault = .badArg ∨ t.fault = .truncated ∨ t.fault = .malformed ∨ t.fault = .capacity ∨ t.fault = .busError)
      ∧ (t.fault = .malformed → i = .varint ∨ i = .delta32 ∨ i = .delta64 ∨ ∃ w x, i = .hybrid w x)
      ∧ (t.fault = .badArg → t.faultPos = s.cursor)

/-- `IRQ_PENDING` is set by every completion, whatever `IRQ_EN` holds, so that the interrupt output follows `IRQ_EN`
from then on; enabling it later raises the output at once (10_state.md R31, R53; 60_exceptions.md R293). -/
def Obligations.CompletionRaisesTheInterrupt : Prop :=
  ∀ (i : Instr) (s t : State), exec i s = .next t →
    t.irqPending = true ∧ t.irqEn = s.irqEn ∧ t.irq = s.irqEn
      ∧ (t.inReset = false → ∃ u, hostWriteReg 0x08 8 2 t = .next u ∧ u.irq = true)

/-- `IRQ_PENDING` is set by every completion, whatever `IRQ_EN` holds. Only a host write of 1 to bit 16 of `STATUS`, or a
reset, clears it, so START does not; in the same instant as a completion the completion's set wins (10_state.md
R31). -/
def Obligations.InterruptPendingBit : Prop :=
  (∀ s t : State, step s = .next t → s.state = .busy → t.state = .done ∨ t.state = .error → t.irqPending = true)
    ∧ (∀ s t : State, step s = .next t → s.irqPending = true → t.irqPending = false →
      (∃ w rest, s.inputs = .regWrite 0x10 8 w :: rest ∧ w.getLsbD 16 = true)
        ∨ (∃ w rest, s.inputs = .engineWithStatusWrite w :: rest ∧ w.getLsbD 16 = true ∧ s.state ≠ .busy)
        ∨ (∃ w rest, s.inputs = .regWrite 0x08 8 w :: rest ∧ w.getLsbD 2 = true)
        ∨ (∃ rest, s.inputs = .assertReset :: rest))
    ∧ (∀ (s t : State) (w : Word) (rest : List Event), s.inputs = .engineWithStatusWrite w :: rest → s.state = .busy →
        step s = .next t → t.irqPending = true)

/-- A command that would complete DONE, were no access answered with an error, completes ERROR with BUS_ERROR when a
byte it consumes or an element it stores lies where `BUS_ERR` holds: `OUT_COUNT` 0, `CURSOR` unchanged
(60_exceptions.md R287, R290). -/
def Obligations.BusErrorFailsTheCommand : Prop :=
  ∀ (i : Instr) (s t : State),
    exec i { s with platform := { s.platform with busErr := [] } } = .next t → t.state = .done →
    (∃ b ∈ s.platform.busErr, ∃ a, b.range.lo ≤ a ∧ a < b.range.hi
      ∧ ((b.kind = .read ∧ s.inBase.toNat + s.cursor.toNat ≤ a ∧ a < s.inBase.toNat + t.cursor.toNat)
        ∨ (b.kind = .write ∧ s.outBase.toNat ≤ a ∧ a < s.outBase.toNat + t.outCount.toNat * elementSize i))) →
    ∃ u pos, exec i s = .next u ∧ FaultedWith s u (elementSize i) .busError pos

/-- A command whose checks pass is refused when its input window or its output region has access side effects
(20_memory.md R67), and every command is refused on a platform that is not coherent (20_memory.md R78): at its START,
so that it is never in flight, and at its completion. That a refused command is refused at START already is the model's
choice (log 12, log 13). -/
def Obligations.CommandsThePlatformRefuses : Prop :=
  (∀ (i : Instr) (s : State) (r : AddrRange) (a : Nat), i.wellFormed = true → checkRleHeader i s = true →
      OperandsOk (elementSize i) s → r ∈ s.platform.sideEffect → r.lo ≤ a → a < r.hi →
      (s.inBase.toNat ≤ a ∧ a < s.inBase.toNat + s.inLen.toNat)
        ∨ (s.outBase.toNat ≤ a ∧ a < s.outBase.toNat + s.outCap.toNat * elementSize i) →
      exec i s = .refused .sideEffectMemory
        ∧ ∀ w : Word, decode s.cmd = .ok i → s.platform.coherent = true → s.inReset = false → s.state ≠ .busy →
            w.getLsbD 2 = false → w.getLsbD 0 = true → hostWriteReg 0x08 8 w s = .refused .sideEffectMemory)
    ∧ (∀ s : State, s.platform.coherent = false →
      (s.inputs = [] → s.state = .busy → step s = .refused .notCoherent)
        ∧ ∀ w : Word, s.inReset = false → s.state ≠ .busy → w.getLsbD 2 = false → w.getLsbD 0 = true →
            hostWriteReg 0x08 8 w s = .refused .notCoherent)

/-! ### What each command does -/

/-- `VARINT` with `ARG0` varints laid out at `CURSOR` completes DONE with their values, `CURSOR` just past the last
(41_varint.md R163, with the layout of 30_encoding.md R100). -/
def Obligations.VarintDecodesItsInput : Prop :=
  ∀ (s : State) (values : List Nat) (bytes : List Byte), Undisturbed 8 s → s.arg0.toNat = values.length →
    values.length ≤ s.outCap.toNat → VarintsLaid values bytes → InputAt s bytes →
    ∃ t, exec .varint s = .next t ∧ CompletedWith s t 8 (s.cursor.toNat + bytes.length) values

/-- For every u_64 v, `VARINT` applied to `VarintEncode(v)` returns v and consumes exactly those bytes, of which there
are at most 10 (41_varint.md R165). -/
def Obligations.VarintRoundTrip : Prop :=
  ∀ v : Nat, v < 2 ^ 64 → (varintEncode v).length ≤ 10
    ∧ ∀ s : State, Undisturbed 8 s → s.arg0.toNat = 1 → 1 ≤ s.outCap.toNat → InputAt s (varintEncode v) →
        ∃ t, exec .varint s = .next t ∧ CompletedWith s t 8 (s.cursor.toNat + (varintEncode v).length) [v]

/-- `BITUNPACK` at width bw gives `(ARG0 >> 1) * 8` values from exactly `(ARG0 >> 1) * bw` bytes: bit i of value j is
run bit `j * bw + i`, and no value has a bit at or above bw (42_bitpack_rle.md R180 to R183). -/
def Obligations.BitunpackUnpacksARun : Prop :=
  ∀ (s : State) (w : BitVec 8), w.toNat ≤ 64 → Undisturbed 8 s → s.arg0.toNat / 2 * 8 ≤ s.outCap.toNat →
    s.cursor.toNat + s.arg0.toNat / 2 * w.toNat ≤ s.inLen.toNat →
    ∃ t values, exec (.bitunpack w) s = .next t
      ∧ CompletedWith s t 8 (s.cursor.toNat + s.arg0.toNat / 2 * w.toNat) values
      ∧ values.length = s.arg0.toNat / 2 * 8 ∧ (∀ v ∈ values, v < 2 ^ w.toNat)
      ∧ ∀ j, j < values.length → ∀ i, i < w.toNat → (values.getD j 0).testBit i =
          (s.mem.read (s.inBase.toNat + s.cursor.toNat + (j * w.toNat + i) / 8)).getLsbD ((j * w.toNat + i) % 8)

/-- Bit-packing round trip: the bytes that hold a list of values, each below 2^bw and a multiple of 8 of them, unpack to
that list, for every width 0 to 64 (42_bitpack_rle.md R188). -/
def Obligations.BitPackingRoundTrip : Prop :=
  ∀ (s : State) (w : BitVec 8) (values : List Nat) (bytes : List Byte), w.toNat ≤ 64 → Undisturbed 8 s →
    IsPacked w.toNat values bytes → values.length = s.arg0.toNat / 2 * 8 → values.length ≤ s.outCap.toNat →
    InputAt s bytes →
    ∃ t, exec (.bitunpack w) s = .next t ∧ CompletedWith s t 8 (s.cursor.toNat + bytes.length) values

/-- `RLE` with an even header gives `ARG0 >> 1` copies of the little-endian number in `ceil(bw / 8)` bytes, not masked to
bw bits; the bytes are consumed even for a run of 0 (42_bitpack_rle.md R184 to R187). -/
def Obligations.RleRepeatsItsValue : Prop :=
  ∀ (s : State) (w : BitVec 8), w.toNat ≤ 32 → Undisturbed 4 s → s.arg0.getLsbD 0 = false →
    s.arg0.toNat / 2 ≤ s.outCap.toNat → s.cursor.toNat + (w.toNat + 7) / 8 ≤ s.inLen.toNat →
    ∃ t v, exec (.rle w) s = .next t
      ∧ CompletedWith s t 4 (s.cursor.toNat + (w.toNat + 7) / 8) (List.replicate (s.arg0.toNat / 2) v)
      ∧ v < 2 ^ (8 * ((w.toNat + 7) / 8))
      ∧ ∀ k, k < (w.toNat + 7) / 8 →
          v / 2 ^ (8 * k) % 2 ^ 8 = (s.mem.read (s.inBase.toNat + s.cursor.toNat + k)).toNat

/-- `HYBRID` on a region whose bytes are a row of runs, its length in `ARG0` or in a 4-byte prefix, completes DONE with
every value of every run, `CURSOR` exactly at the region's end (43_hybrid.md R212 to R214; 30_encoding.md R104). -/
def Obligations.HybridDecodesItsRuns : Prop :=
  ∀ (s : State) (w : BitVec 8) (lenx : Bool) (runs : List HybridRun) (lead bytes : List Byte), w.toNat ≤ 32 →
    Undisturbed 4 s → RunsLaid w.toNat runs bytes → bytes.length < 2 ^ 31 ∨ lenx = true →
    (lenx = true → lead = [] ∧ s.arg0.toNat = bytes.length) →
    (lenx = false → lead = bytesOf 4 bytes.length) → InputAt s (lead ++ bytes) →
    (runs.flatMap HybridRun.values).length ≤ s.outCap.toNat →
    ∃ t, exec (.hybrid w lenx) s = .next t
      ∧ CompletedWith s t 4 (s.cursor.toNat + lead.length + bytes.length) (runs.flatMap HybridRun.values)

/-- The region of `HYBRID` is an independent sub-stream: with the region in the window and no access answered with an
error, a memory that differs only past the region's end gives the same registers, and a DONE completion leaves `CURSOR`
exactly at that end: the prefix, if any, plus the region's length (43_hybrid.md R213). -/
def Obligations.HybridIsASubStream : Prop :=
  ∀ (s t : State) (w : BitVec 8) (lenx : Bool) (m : Memory) (stop : Nat), NoBusErrors 4 s →
    stop = s.cursor.toNat + (if lenx then s.arg0.toNat
        else 4 + littleEndian (s.mem.readBytes (s.inBase.toNat + s.cursor.toNat) 4)) →
    stop ≤ s.inLen.toNat → exec (.hybrid w lenx) s = .next t →
    (∀ a, s.inBase.toNat + s.cursor.toNat ≤ a → a < s.inBase.toNat + stop → m.read a = s.mem.read a) →
    (∃ u, exec (.hybrid w lenx) { s with mem := m } = .next u ∧ { u with mem := t.mem } = t)
      ∧ (t.state = .done → t.cursor.toNat = stop)

/-- `DELTA32` on a delta stream completes DONE with `numValues` elements, element 0 the first value and each later one
the element before plus its raw delta plus its block's minimum delta, modulo 2^32; every block is consumed to its end
(44_delta.md R233, R235, R236, R238, R239). -/
def Obligations.Delta32DecodesItsStream : Prop :=
  ∀ (s : State) (blockSize miniBlocks numValues firstImage : Nat) (blocks : List DeltaBlock) (bytes : List Byte),
    Undisturbed 4 s → DeltaStream 32 blockSize miniBlocks numValues firstImage blocks bytes → InputAt s bytes →
    numValues ≤ s.outCap.toNat →
    ∃ t, exec .delta32 s = .next t
      ∧ CompletedWith s t 4 (s.cursor.toNat + bytes.length)
          ((List.range numValues).map (deltaElement 32 firstImage blocks))

/-- `DELTA64` on a delta stream completes DONE with `numValues` elements, element 0 the first value and each later one
the element before plus its raw delta plus its block's minimum delta, modulo 2^64; every block is consumed to its end
(44_delta.md R233, R235, R237 to R239). -/
def Obligations.Delta64DecodesItsStream : Prop :=
  ∀ (s : State) (blockSize miniBlocks numValues firstImage : Nat) (blocks : List DeltaBlock) (bytes : List Byte),
    Undisturbed 8 s → DeltaStream 64 blockSize miniBlocks numValues firstImage blocks bytes → InputAt s bytes →
    numValues ≤ s.outCap.toNat →
    ∃ t, exec .delta64 s = .next t
      ∧ CompletedWith s t 8 (s.cursor.toNat + bytes.length)
          ((List.range numValues).map (deltaElement 64 firstImage blocks))

/-- `BSS32` and `BSS64` give `ARG0` elements: byte k of element i is byte i of plane k, moved bit for bit
(45_byte_stream_split.md R260 to R263). -/
def Obligations.ByteStreamSplitGathersPlanes : Prop :=
  ∀ (s : State) (i : Instr) (planes : Nat), (i = .bss32 ∧ planes = 4) ∨ (i = .bss64 ∧ planes = 8) →
    Undisturbed planes s → s.arg0.toNat ≤ s.outCap.toNat →
    s.cursor.toNat + s.arg0.toNat * planes ≤ s.inLen.toNat →
    ∃ t values, exec i s = .next t
      ∧ CompletedWith s t planes (s.cursor.toNat + s.arg0.toNat * planes) values
      ∧ values.length = s.arg0.toNat
      ∧ ∀ j, j < values.length → values.getD j 0 < 2 ^ (8 * planes) ∧ ∀ k, k < planes →
          values.getD j 0 / 2 ^ (8 * k) % 2 ^ 8 =
            (s.mem.read (s.inBase.toNat + s.cursor.toNat + k * s.arg0.toNat + j)).toNat

/-- Byte-stream-split round trip: the planes that hold a list of E-byte values give that list back, bit for bit
(45_byte_stream_split.md R264). -/
def Obligations.ByteStreamSplitRoundTrip : Prop :=
  ∀ (s : State) (i : Instr) (planes : Nat) (values : List Nat) (bytes : List Byte),
    (i = .bss32 ∧ planes = 4) ∨ (i = .bss64 ∧ planes = 8) → Undisturbed planes s → IsPlanes planes values bytes →
    s.arg0.toNat = values.length → values.length ≤ s.outCap.toNat → InputAt s bytes →
    ∃ t, exec i s = .next t ∧ CompletedWith s t planes (s.cursor.toNat + bytes.length) values

/-- `unzigzag_64` undoes `zigzag_64` and is undone by it: a bijection (00_scope.md R15; 41_varint.md R164). -/
def Obligations.ZigzagIsABijection : Prop :=
  ∀ u : Word, unzigzag64 (zigzag64 u) = u ∧ zigzag64 (unzigzag64 u) = u

/-! ### Where each command faults -/

/-- A count that does not fit the output faults with CAPACITY at `CURSOR`, before any byte is read
(40_command_execution.md R138; 60_exceptions.md R285, R288). -/
def Obligations.CountBeyondCapacityFaults : Prop :=
  ∀ (s : State) (i : Instr) (count : Nat),
    (i = .varint ∧ count = s.arg0.toNat)
      ∨ (∃ w, i = .bitunpack w ∧ w.toNat ≤ 64 ∧ count = s.arg0.toNat / 2 * 8)
      ∨ (∃ w, i = .rle w ∧ w.toNat ≤ 32 ∧ s.arg0.getLsbD 0 = false ∧ count = s.arg0.toNat / 2)
      ∨ ((i = .bss32 ∨ i = .bss64) ∧ count = s.arg0.toNat) →
    Undisturbed (elementSize i) s → s.outCap.toNat < count →
    ∃ t, exec i s = .next t ∧ FaultedWith s t (elementSize i) .capacity s.cursor.toNat

/-- A run or a set of planes that is not all there faults with TRUNCATED at `CURSOR` (42_bitpack_rle.md R183, R187;
45_byte_stream_split.md R262, R263; 60_exceptions.md R281). -/
def Obligations.ShortInputFaults : Prop :=
  ∀ (s : State) (i : Instr) (count size : Nat),
    (∃ w, i = .bitunpack w ∧ w.toNat ≤ 64 ∧ count = s.arg0.toNat / 2 * 8 ∧ size = s.arg0.toNat / 2 * w.toNat)
      ∨ (∃ w, i = .rle w ∧ w.toNat ≤ 32 ∧ s.arg0.getLsbD 0 = false ∧ count = s.arg0.toNat / 2
          ∧ size = (w.toNat + 7) / 8)
      ∨ (i = .bss32 ∧ count = s.arg0.toNat ∧ size = s.arg0.toNat * 4)
      ∨ (i = .bss64 ∧ count = s.arg0.toNat ∧ size = s.arg0.toNat * 8) →
    Undisturbed (elementSize i) s → count ≤ s.outCap.toNat → s.inLen.toNat < s.cursor.toNat + size →
    ∃ t, exec i s = .next t ∧ FaultedWith s t (elementSize i) .truncated s.cursor.toNat

/-- A varint of `VARINT` whose 10th byte is 0x02 or more faults with MALFORMED just past that byte, after any varints
before it (41_varint.md R161; for the varints of the other commands `HybridRunFaults`, `DeltaVarintFaults`). -/
def Obligations.OverlongVarintFaults : Prop :=
  ∀ (s : State) (values : List Nat) (before nine : List Byte) (tenth : Byte), Undisturbed 8 s →
    values.length < s.arg0.toNat → s.arg0.toNat ≤ s.outCap.toNat → VarintsLaid values before →
    nine.length = 9 → (∀ b ∈ nine, 0x80 ≤ b.toNat) → 0x02 ≤ tenth.toNat →
    InputAt s (before ++ nine ++ [tenth]) →
    ∃ t, exec .varint s = .next t ∧ FaultedWith s t 8 .malformed (s.cursor.toNat + before.length + 10)

/-- A varint of `VARINT` that reaches the end of the window with bit 7 set on every byte, fewer than 10 of them, faults
with TRUNCATED at `IN_LEN`, after any varints before it (41_varint.md R162; for the varints of the other commands
`HybridRunFaults`, `DeltaVarintFaults`). -/
def Obligations.UnterminatedVarintFaults : Prop :=
  ∀ (s : State) (values : List Nat) (before open_ : List Byte), Undisturbed 8 s →
    values.length < s.arg0.toNat → s.arg0.toNat ≤ s.outCap.toNat → VarintsLaid values before →
    open_.length < 10 → (∀ b ∈ open_, 0x80 ≤ b.toNat) → InputAt s (before ++ open_) →
    s.cursor.toNat + before.length + open_.length = s.inLen.toNat →
    ∃ t, exec .varint s = .next t ∧ FaultedWith s t 8 .truncated s.inLen.toNat

/-- The length of a `HYBRID` region: for a prefix, TRUNCATED at it when fewer than 4 bytes are left, MALFORMED just past
it when it is negative, and TRUNCATED just past it when the region is not all there; for an explicit length, TRUNCATED at
`CURSOR` when the region is longer than the input left (43_hybrid.md R211, R212). -/
def Obligations.HybridPrefixFaults : Prop :=
  ∀ (s : State) (w : BitVec 8), w.toNat ≤ 32 → Undisturbed 4 s →
    (s.inLen.toNat < s.cursor.toNat + 4 →
        ∃ t, exec (.hybrid w false) s = .next t ∧ FaultedWith s t 4 .truncated s.cursor.toNat)
      ∧ (∀ len : BitVec 32, InputAt s (bytesOf 4 len.toNat) → len.toInt < 0 →
          ∃ t, exec (.hybrid w false) s = .next t ∧ FaultedWith s t 4 .malformed (s.cursor.toNat + 4))
      ∧ (∀ len : BitVec 32, InputAt s (bytesOf 4 len.toNat) → 0 ≤ len.toInt →
          s.inLen.toNat < s.cursor.toNat + 4 + len.toNat →
          ∃ t, exec (.hybrid w false) s = .next t ∧ FaultedWith s t 4 .truncated (s.cursor.toNat + 4))
      ∧ (s.inLen.toNat < s.cursor.toNat + s.arg0.toNat →
          ∃ t, exec (.hybrid w true) s = .next t ∧ FaultedWith s t 4 .truncated s.cursor.toNat)

/-- Inside a `HYBRID` region of `len` bytes that is all there, after any whole runs: a header varint that reaches the
region's end unterminated is TRUNCATED at that end, and one whose 10th byte is 0x02 or more is MALFORMED just past that
byte; a run whose values do not fit is CAPACITY just past its header; and a run whose values fit but whose body crosses
the region's end is TRUNCATED there, whatever bytes follow the region (43_hybrid.md R212, R213; 41_varint.md R161,
R162). -/
def Obligations.HybridRunFaults : Prop :=
  ∀ (s : State) (w : BitVec 8) (lenx : Bool) (runs : List HybridRun) (len : Nat) (lead before header : List Byte),
    w.toNat ≤ 32 → Undisturbed 4 s → RunsLaid w.toNat runs before →
    (lenx = true → lead = [] ∧ s.arg0.toNat = len) → (lenx = false → lead = bytesOf 4 len ∧ len < 2 ^ 31) →
    s.cursor.toNat + lead.length + len ≤ s.inLen.toNat → InputAt s (lead ++ before ++ header) →
    (runs.flatMap HybridRun.values).length ≤ s.outCap.toNat →
    ((∀ b ∈ header, 0x80 ≤ b.toNat) → 0 < header.length → header.length < 10 → before.length + header.length = len →
        ∃ t, exec (.hybrid w lenx) s = .next t
          ∧ FaultedWith s t 4 .truncated (s.cursor.toNat + lead.length + len))
      ∧ (∀ (nine : List Byte) (tenth : Byte), header = nine ++ [tenth] → nine.length = 9 →
          (∀ b ∈ nine, 0x80 ≤ b.toNat) → 0x02 ≤ tenth.toNat → before.length + 10 ≤ len →
          ∃ t, exec (.hybrid w lenx) s = .next t
            ∧ FaultedWith s t 4 .malformed (s.cursor.toNat + lead.length + before.length + 10))
      ∧ (∀ h count size : Nat, IsVarint header h → before.length + header.length ≤ len →
          count = (if h % 2 = 0 then h / 2 else h / 2 * 8) →
          size = (if h % 2 = 0 then (w.toNat + 7) / 8 else h / 2 * w.toNat) →
          (s.outCap.toNat < (runs.flatMap HybridRun.values).length + count →
              ∃ t, exec (.hybrid w lenx) s = .next t
                ∧ FaultedWith s t 4 .capacity (s.cursor.toNat + lead.length + before.length + header.length))
            ∧ ((runs.flatMap HybridRun.values).length + count ≤ s.outCap.toNat →
              len < before.length + header.length + size →
              ∃ t, exec (.hybrid w lenx) s = .next t
                ∧ FaultedWith s t 4 .truncated (s.cursor.toNat + lead.length + before.length + header.length)))

/-- The varints of a delta stream, one of the four of its header or the `minDelta` of any block after whole blocks: one
whose 10th byte is 0x02 or more is MALFORMED just past that byte, and one that reaches the end of the window with bit 7
set on every byte, fewer than 10 of them, is TRUNCATED at `IN_LEN` (41_varint.md R161, R162; 44_delta.md R230, R233). -/
def Obligations.DeltaVarintFaults : Prop :=
  ∀ (s : State) (i : Instr) (w : Nat) (values : List Nat) (header before open_ : List Byte),
    (i = .delta32 ∧ w = 32) ∨ (i = .delta64 ∧ w = 64) → Undisturbed (elementSize i) s → VarintsLaid values header →
    (values.length < 4 ∧ before = header)
      ∨ (∃ blockSize miniBlocks numValues firstImage blocks rest,
          values = [blockSize, miniBlocks, numValues, firstImage] ∧ before = header ++ rest
            ∧ miniBlocks ≠ 0 ∧ blockSize ≠ 0 ∧ blockSize % miniBlocks = 0 ∧ blockSize / miniBlocks % 8 = 0
            ∧ numValues ≤ s.outCap.toNat ∧ BlocksLaid w miniBlocks (blockSize / miniBlocks) blocks rest
            ∧ 1 + blocks.length * blockSize < numValues) →
    InputAt s (before ++ open_) →
    (∀ (nine : List Byte) (tenth : Byte), open_ = nine ++ [tenth] → nine.length = 9 →
        (∀ b ∈ nine, 0x80 ≤ b.toNat) → 0x02 ≤ tenth.toNat →
        ∃ t, exec i s = .next t
          ∧ FaultedWith s t (elementSize i) .malformed (s.cursor.toNat + before.length + 10))
      ∧ ((∀ b ∈ open_, 0x80 ≤ b.toNat) → open_.length < 10 →
        s.cursor.toNat + before.length + open_.length = s.inLen.toNat →
        ∃ t, exec i s = .next t ∧ FaultedWith s t (elementSize i) .truncated s.inLen.toNat)

/-- A delta header that is inconsistent faults with MALFORMED just past it, whatever `numValues` is; a consistent one
whose values do not fit faults there with CAPACITY (44_delta.md R232, R233). -/
def Obligations.DeltaHeaderFaults : Prop :=
  ∀ (s : State) (i : Instr) (blockSize miniBlocks numValues firstImage : Nat) (b1 b2 b3 b4 : List Byte),
    i = .delta32 ∨ i = .delta64 → Undisturbed (elementSize i) s → IsVarint b1 blockSize → IsVarint b2 miniBlocks →
    IsVarint b3 numValues → IsVarint b4 firstImage → InputAt s (b1 ++ b2 ++ b3 ++ b4) →
    ((miniBlocks = 0 ∨ blockSize = 0 ∨ blockSize % miniBlocks ≠ 0 ∨ blockSize / miniBlocks % 8 ≠ 0) →
        ∃ t, exec i s = .next t ∧ FaultedWith s t (elementSize i) .malformed
          (s.cursor.toNat + (b1 ++ b2 ++ b3 ++ b4).length))
      ∧ (miniBlocks ≠ 0 → blockSize ≠ 0 → blockSize % miniBlocks = 0 → blockSize / miniBlocks % 8 = 0 →
          s.outCap.toNat < numValues →
          ∃ t, exec i s = .next t ∧ FaultedWith s t (elementSize i) .capacity
            (s.cursor.toNat + (b1 ++ b2 ++ b3 ++ b4).length))

/-- A mini-block width above W in the first block faults with MALFORMED just past the width bytes, before any mini-block
is unpacked (44_delta.md R234). -/
def Obligations.DeltaWidthFaults : Prop :=
  ∀ (s : State) (i : Instr) (w blockSize miniBlocks numValues firstImage minDelta : Nat)
    (b1 b2 b3 b4 b5 widths : List Byte),
    (i = .delta32 ∧ w = 32) ∨ (i = .delta64 ∧ w = 64) → Undisturbed (elementSize i) s →
    IsVarint b1 blockSize → IsVarint b2 miniBlocks → IsVarint b3 numValues → IsVarint b4 firstImage →
    IsVarint b5 minDelta → widths.length = miniBlocks →
    miniBlocks ≠ 0 → blockSize ≠ 0 → blockSize % miniBlocks = 0 → blockSize / miniBlocks % 8 = 0 →
    2 ≤ numValues → numValues ≤ s.outCap.toNat → (∃ b ∈ widths, w < b.toNat) →
    InputAt s (b1 ++ b2 ++ b3 ++ b4 ++ b5 ++ widths) →
    ∃ t, exec i s = .next t ∧ FaultedWith s t (elementSize i) .malformed
      (s.cursor.toNat + (b1 ++ b2 ++ b3 ++ b4 ++ b5 ++ widths).length)

/-! ### Headline properties of every command -/

/-- The truncation property: a command that completes DONE past `CURSOR`, no access answering with an error, run on the
same bytes with `IN_LEN` cut below its final position, completes ERROR with TRUNCATED, never DONE and never another
fault (40_command_execution.md R145). -/
def Obligations.CutInputIsTruncated : Prop :=
  ∀ (i : Instr) (s t : State) (cut : Word), exec i s = .next t → t.state = .done →
    AccessesAnswered (elementSize i) s t → s.cursor.toNat ≤ cut.toNat → cut.toNat < t.cursor.toNat →
    ∃ u pos, exec i { s with inLen := cut } = .next u
      ∧ FaultedWith { s with inLen := cut } u (elementSize i) .truncated pos
      ∧ s.cursor.toNat ≤ pos ∧ pos ≤ cut.toNat

/-- When no access is answered with an error, a command's outcome depends on memory only through the bytes of its input
window from `CURSOR` on: on another memory that agrees there, the same registers result, and the same bytes in the
elements of a DONE completion (40_command_execution.md R143; 20_memory.md R65). -/
def Obligations.OutcomeDependsOnlyOnTheWindow : Prop :=
  ∀ (i : Instr) (s t : State) (m : Memory), NoBusErrors (elementSize i) s → exec i s = .next t →
    (∀ a, s.inBase.toNat + s.cursor.toNat ≤ a → a < s.inBase.toNat + s.inLen.toNat → m.read a = s.mem.read a) →
    ∃ u, exec i { s with mem := m } = .next u ∧ { u with mem := t.mem } = t
      ∧ (t.state = .done → ∀ a, s.outBase.toNat ≤ a →
          a < s.outBase.toNat + t.outCount.toNat * elementSize i → u.mem.read a = t.mem.read a)

/-! ### Memory and ownership -/

/-- A host write that touches an input window or an output region the engine owns is refused, and so is a host read that
touches an owned output region, in flight or completed and not yet observed. A command in flight owns its window from
`CURSOR` on and its region, in every state the invariant admits; and what is owned stays owned, after the completion
too, until the host reads `STATUS` of a block that is not BUSY or resets it (20_memory.md R71; that the read of `STATUS`
is the observation is the model's choice, log 11). -/
def Obligations.OwnedMemoryIsTheEngines : Prop :=
  (∀ (s : State) (w : Window) (addr : Word) (a : Nat), w ∈ s.owned → addr.toNat ≤ a →
    (∀ (bytes : List Byte) (rest : List Event), s.inputs = .memWrite addr bytes :: rest →
        addr.toNat + bytes.length ≤ 2 ^ 64 → a < addr.toNat + bytes.length →
        (w.input.lo ≤ a ∧ a < w.input.hi) ∨ (w.output.lo ≤ a ∧ a < w.output.hi) →
        step s = .refused .ownershipViolated)
      ∧ (∀ (n : Nat) (rest : List Event), s.inputs = .memRead addr n :: rest →
        addr.toNat + n ≤ 2 ^ 64 → a < addr.toNat + n → w.output.lo ≤ a → a < w.output.hi →
        step s = .refused .ownershipViolated))
    ∧ (∀ s : State, Inv s → s.state = .busy → ∃ w ∈ s.owned,
      w.input = ⟨s.inBase.toNat + s.cursor.toNat, s.inBase.toNat + s.inLen.toNat⟩
        ∧ w.output = ⟨s.outBase.toNat,
            s.outBase.toNat + s.outCap.toNat * elementSizeOf (BitVec.ofNat 8 s.cmd.toNat)⟩)
    ∧ (∀ (s t : State) (w : Window), step s = .next t → w ∈ s.owned → w ∉ t.owned →
      (s.state ≠ .busy ∧ ∃ rest, s.inputs = .regRead 0x10 8 :: rest)
        ∨ (∃ v rest, s.inputs = .regWrite 0x08 8 v :: rest ∧ v.getLsbD 2 = true)
        ∨ (∃ rest, s.inputs = .assertReset :: rest))

/-- Outside what the engine owns, BUSY or not, the host's writes to data memory read back and leave every other byte as
it was, and its reads, which only an owned output region keeps out, return the bytes and change nothing (20_memory.md
R60, R71). Two clauses are the model's choices: an access past address 2^64-1 is a fault (log 24), and one that touches
memory with access side effects is refused (log 26). -/
def Obligations.HostMemoryAccess : Prop :=
  ∀ (s : State) (addr : Word) (bytes : List Byte) (n : Nat), bytes.length = n →
    (addr.toNat + n ≤ 2 ^ 64 → (∀ r ∈ s.platform.sideEffect, ∀ a, addr.toNat ≤ a → a < addr.toNat + n →
          ¬(r.lo ≤ a ∧ a < r.hi)) →
        ((∀ w ∈ s.owned, ∀ a, addr.toNat ≤ a → a < addr.toNat + n →
            ¬(w.input.lo ≤ a ∧ a < w.input.hi) ∧ ¬(w.output.lo ≤ a ∧ a < w.output.hi)) →
          ∃ t u, hostWriteMem addr bytes s = .next t ∧ hostReadMem addr n t = .next u
            ∧ u.hostBytes = bytes ∧ u.mem = t.mem
            ∧ (∀ a, ¬(addr.toNat ≤ a ∧ a < addr.toNat + n) → t.mem.read a = s.mem.read a)
            ∧ t = { s with mem := t.mem })
        ∧ ((∀ w ∈ s.owned, ∀ a, addr.toNat ≤ a → a < addr.toNat + n → ¬(w.output.lo ≤ a ∧ a < w.output.hi)) →
          ∃ u, hostReadMem addr n s = .next u ∧ u = { s with hostBytes := u.hostBytes }
            ∧ u.hostBytes.length = n ∧ ∀ k, k < n → u.hostBytes.getD k 0 = s.mem.read (addr.toNat + k)))
      ∧ (2 ^ 64 < addr.toNat + n → hostWriteMem addr bytes s = .fault .outsideAddressSpace
          ∧ hostReadMem addr n s = .fault .outsideAddressSpace)
      ∧ (addr.toNat + n ≤ 2 ^ 64 → s.owned = [] → (∃ r ∈ s.platform.sideEffect, ∃ a, addr.toNat ≤ a
          ∧ a < addr.toNat + n ∧ r.lo ≤ a ∧ a < r.hi) →
          hostWriteMem addr bytes s = .refused .deviceAccess ∧ hostReadMem addr n s = .refused .deviceAccess)

/-- Ownership ends when the host reads `STATUS` and sees the engine not BUSY, and not before (20_memory.md R71; that the
read of `STATUS` is the observation is the model's choice, log 11). -/
def Obligations.StatusReadReturnsOwnership : Prop :=
  ∀ (s : State) (offset : BitVec 8), s.inReset = false → offset.toNat % 8 = 0 →
    ∃ t, hostReadReg offset 8 s = .next t
      ∧ (offset = 0x10 → s.state ≠ .busy → t.owned = [])
      ∧ (offset ≠ 0x10 ∨ s.state = .busy → t.owned = s.owned)

/-- A byte of memory changes in a step only if it lies in the output region of a command in flight, or the host writes
it in that step (20_memory.md R66; 70_reset_and_hazards.md R322). -/
def Obligations.OnlyOutputAndHostWritesChangeMemory : Prop :=
  ∀ (s t : State) (a : Nat), step s = .next t → t.mem.read a ≠ s.mem.read a →
    (s.state = .busy ∧ s.outBase.toNat ≤ a
        ∧ a < s.outBase.toNat + s.outCap.toNat * elementSizeOf (BitVec.ofNat 8 s.cmd.toNat))
      ∨ (∃ addr bytes rest, s.inputs = .memWrite addr bytes :: rest ∧ addr.toNat ≤ a
        ∧ a < addr.toNat + bytes.length)

/-! ### Invariants -/

/-- The state right after reset has the invariant: every register at its reset value, memory in canonical form
(10_state.md R52). -/
def Obligations.ResetHasTheInvariant : Prop :=
  Inv State.reset ∧ AtResetValues State.reset ∧ State.reset.id = Config.blockId ∧ State.reset.irq = false

/-- Every step keeps the invariant (10_state.md R29, R41, R42, R47; 20_memory.md R71; 70_reset_and_hazards.md R320). -/
def Obligations.EveryStepKeepsTheInvariant : Prop :=
  ∀ s t : State, Inv s → step s = .next t → Inv t

/-- No step changes `ID` or the platform (10_state.md R23, R45, R52; that the platform's parameters never change is the
model's, log 4). -/
def Obligations.IdAndPlatformNeverChange : Prop :=
  ∀ s t : State, step s = .next t → t.id = s.id ∧ t.platform = s.platform
end

