-- ==== Sys2Proof/Laws/Stream.lean ====
section
/-! SUPPORT. The laws of the engine's context and stream primitives: how a body's pieces compose, what each primitive
can do, and that every piece only moves the running offset forward, stays in its limit, only appends elements, never
passes the capacity, and raises only the faults of a body (40_command_execution.md R135 to R138). -/

namespace Sys2Proof.Machine

/-! ### Composition -/

@[simp] theorem give_apply {α : Type} (a : α) (c : Ctx) : give a c = .ok a c := rfl

theorem andThen_apply {α β : Type} (x : Eng α) (f : α → Eng β) (c : Ctx) :
    andThen x f c = match x c with
      | .ok a c' => f a c'
      | .raised e c' => .raised e c' := rfl

/-- A piece that goes on hands its value and context to the next. -/
theorem andThen_ok {α β : Type} {x : Eng α} {f : α → Eng β} {c c' : Ctx} {a : α} (h : x c = .ok a c') :
    andThen x f c = f a c' := by
  rw [andThen_apply, h]

/-- A piece that raises ends the whole. -/
theorem andThen_raised {α β : Type} {x : Eng α} {f : α → Eng β} {c c' : Ctx} {e : FaultCode}
    (h : x c = .raised e c') : andThen x f c = .raised e c' := by
  rw [andThen_apply, h]

@[simp] theorem raiseFault_apply {α : Type} (f : FaultCode) (c : Ctx) : (raiseFault f : Eng α) c = .raised f c := rfl

@[simp] theorem position_apply (c : Ctx) : position c = .ok c.p c := rfl

@[simp] theorem emitted_apply (c : Ctx) : emitted c = .ok c.n c := rfl

@[simp] theorem emit_apply (vs : List Nat) (c : Ctx) : emit vs c = .ok () { c with out := c.out ++ vs } := rfl

/-- `ReadBytes` when the bytes are there (40_command_execution.md R135). -/
theorem readBytes_ok (o : Operands) {k l : Nat} {c : Ctx} (h : c.p + k ≤ l) :
    readBytes o k l c = .ok (o.mem.readBytes (o.inBase + c.p) k) { c with p := c.p + k } := by
  unfold readBytes; rw [if_neg (by omega)]

/-- `ReadBytes` when they are not (40_command_execution.md R135). -/
theorem readBytes_short (o : Operands) {k l : Nat} {c : Ctx} (h : l < c.p + k) :
    readBytes o k l c = .raised .truncated c := by
  unfold readBytes; rw [if_pos (by omega)]

theorem readByte_ok (o : Operands) {l : Nat} {c : Ctx} (h : c.p < l) :
    readByte o l c = .ok (o.mem.read (o.inBase + c.p)) { c with p := c.p + 1 } := by
  unfold readByte; rw [andThen_ok (readBytes_ok o (by omega))]; rfl

theorem readByte_short (o : Operands) {l : Nat} {c : Ctx} (h : l ≤ c.p) :
    readByte o l c = .raised .truncated c := by
  unfold readByte; rw [andThen_raised (readBytes_short o (by omega))]

/-- `Need` when the elements fit (40_command_execution.md R138). -/
theorem need_ok (o : Operands) {k : Nat} {c : Ctx} (h : c.n + k ≤ o.outCap) : need o k c = .ok () c := by
  unfold need; rw [if_neg (by omega)]

/-- `Need` when they do not (40_command_execution.md R138). -/
theorem need_short (o : Operands) {k : Nat} {c : Ctx} (h : o.outCap < c.n + k) :
    need o k c = .raised .capacity c := by
  unfold need; rw [if_pos (by omega)]

/-! ### What every piece keeps -/

/-- The context a piece ends in, whether it goes on or raises. -/
def ctxOf {α : Type} (r : Run α) : Ctx :=
  match r with
  | .ok _ c => c
  | .raised _ c => c

/-- The faults a body may raise (60_exceptions.md R281, R282, R285). -/
def FaultCode.ofBody : FaultCode → Bool
  | .truncated => true
  | .malformed => true
  | .capacity => true
  | _ => false

/-- From one context to a later one of the same body: the offset has not moved back and is within the limit, elements
have only been appended, and they fit the capacity. -/
structure Ctx.Extends (o : Operands) (l : Nat) (c c' : Ctx) : Prop where
  forward : c.p ≤ c'.p
  inLimit : c'.p ≤ l
  appended : c.out <+: c'.out
  fits : c'.n ≤ o.outCap

theorem Ctx.Extends.trans {o : Operands} {l : Nat} {a b c : Ctx} (h1 : Ctx.Extends o l a b)
    (h2 : Ctx.Extends o l b c) : Ctx.Extends o l a c :=
  ⟨le_trans h1.forward h2.forward, h2.inLimit, h1.appended.trans h2.appended, h2.fits⟩

theorem Ctx.Extends.refl {o : Operands} {l : Nat} {c : Ctx} (hp : c.p ≤ l) (hn : c.n ≤ o.outCap) :
    Ctx.Extends o l c c :=
  ⟨le_refl _, hp, List.prefix_refl _, hn⟩

/-- A result of a piece started in `c` is orderly: its context extends `c`, and a fault is one a body may raise. -/
structure Orderly {α : Type} (o : Operands) (l : Nat) (c : Ctx) (r : Run α) : Prop where
  extends_ : Ctx.Extends o l c (ctxOf r)
  fault : ∀ f c', r = .raised f c' → f.ofBody = true

theorem orderly_ok {α : Type} {o : Operands} {l : Nat} {c c' : Ctx} {a : α} (h : Ctx.Extends o l c c') :
    Orderly o l c (.ok a c' : Run α) :=
  ⟨h, fun _ _ h => by cases h⟩

theorem orderly_raised {α : Type} {o : Operands} {l : Nat} {c c' : Ctx} {f : FaultCode}
    (h : Ctx.Extends o l c c') (hf : f.ofBody = true) :
    Orderly o l c (.raised f c' : Run α) :=
  ⟨h, fun _ _ h => by cases h; exact hf⟩

/-- Orderly pieces compose. -/
theorem orderly_bind {α β : Type} {o : Operands} {l : Nat} {c : Ctx} {x : Eng α} {f : α → Eng β}
    (hx : Orderly o l c (x c))
    (hf : ∀ a c', x c = .ok a c' → Ctx.Extends o l c c' → Orderly o l c' (f a c')) :
    Orderly o l c (andThen x f c) := by
  rw [andThen_apply]
  generalize hr : x c = r at hx ⊢
  cases r with
  | ok a c' =>
    have h1 : Ctx.Extends o l c c' := hx.extends_
    have h2 := hf a c' hr h1
    exact ⟨h1.trans h2.extends_, h2.fault⟩
  | raised e c' => exact ⟨hx.extends_, fun f' c'' h => hx.fault f' c'' (by cases h; rfl)⟩

theorem orderly_raise {α : Type} {o : Operands} {l : Nat} {c : Ctx} {f : FaultCode} (hp : c.p ≤ l)
    (hn : c.n ≤ o.outCap) (hf : f.ofBody = true) : Orderly o l c ((raiseFault f : Eng α) c) :=
  orderly_raised (Ctx.Extends.refl hp hn) hf

theorem orderly_give {α : Type} {o : Operands} {l : Nat} {c : Ctx} (a : α) (hp : c.p ≤ l)
    (hn : c.n ≤ o.outCap) : Orderly o l c (give a c) :=
  orderly_ok (Ctx.Extends.refl hp hn)

theorem orderly_readBytes {o : Operands} {k l l' : Nat} {c : Ctx} (hl : l' ≤ l) (hp : c.p ≤ l)
    (hn : c.n ≤ o.outCap) : Orderly o l c (readBytes o k l' c) := by
  by_cases h : c.p + k ≤ l'
  · rw [readBytes_ok o h]
    exact orderly_ok ⟨Nat.le_add_right _ _, by show c.p + k ≤ l; omega, List.prefix_refl _, hn⟩
  · rw [readBytes_short o (by omega)]
    exact orderly_raised (Ctx.Extends.refl hp hn) rfl

theorem orderly_readByte {o : Operands} {l l' : Nat} {c : Ctx} (hl : l' ≤ l) (hp : c.p ≤ l)
    (hn : c.n ≤ o.outCap) : Orderly o l c (readByte o l' c) :=
  orderly_bind (orderly_readBytes hl hp hn) fun _ _ _ h => orderly_give _ h.inLimit h.fits

theorem orderly_need {o : Operands} {k l : Nat} {c : Ctx} (hp : c.p ≤ l) (hn : c.n ≤ o.outCap) :
    Orderly o l c (need o k c) := by
  by_cases h : c.n + k ≤ o.outCap
  · rw [need_ok o h]; exact orderly_ok (Ctx.Extends.refl hp hn)
  · rw [need_short o (by omega)]; exact orderly_raised (Ctx.Extends.refl hp hn) rfl

/-- `Need` that goes on leaves the context as it was and says that the elements fit. -/
theorem need_eq_ok {o : Operands} {k : Nat} {c c' : Ctx} {u : Unit} (h : need o k c = .ok u c') :
    c' = c ∧ c.n + k ≤ o.outCap := by
  by_cases hk : c.n + k ≤ o.outCap
  · rw [need_ok o hk] at h; cases h; exact ⟨rfl, hk⟩
  · rw [need_short o (by omega)] at h; cases h

theorem orderly_emit {o : Operands} {l : Nat} {c : Ctx} (vs : List Nat) (hp : c.p ≤ l)
    (hn : c.n + vs.length ≤ o.outCap) : Orderly o l c (emit vs c) :=
  orderly_ok ⟨le_refl _, hp, List.prefix_append _ _, by
    show (c.out ++ vs).length ≤ o.outCap
    rw [List.length_append]; exact hn⟩

/-! ### Varint -/

theorem orderly_varintFrom {o : Operands} {l l' : Nat} (hl : l' ≤ l) (left shift result : Nat) {c : Ctx}
    (hp : c.p ≤ l) (hn : c.n ≤ o.outCap) : Orderly o l c (varintFrom o l' left shift result c) := by
  induction left generalizing shift result c with
  | zero =>
    refine orderly_bind (orderly_readByte hl hp hn) fun b c' _ h => ?_
    split
    · exact orderly_raise h.inLimit h.fits rfl
    · exact orderly_give _ h.inLimit h.fits
  | succ left ih =>
    refine orderly_bind (orderly_readByte hl hp hn) fun b c' _ h => ?_
    split
    · exact orderly_give _ h.inLimit h.fits
    · exact ih _ _ h.inLimit h.fits

theorem orderly_varint {o : Operands} {l l' : Nat} {c : Ctx} (hl : l' ≤ l) (hp : c.p ≤ l) (hn : c.n ≤ o.outCap) :
    Orderly o l c (varint o l' c) :=
  orderly_varintFrom hl _ _ _ hp hn

/-- A varint emits nothing and, when it goes on, has consumed at least one byte below its limit. -/
theorem varintFrom_ok {o : Operands} {l left shift result v : Nat} {c c' : Ctx}
    (h : varintFrom o l left shift result c = .ok v c') : c'.out = c.out ∧ c.p < c'.p ∧ c'.p ≤ l := by
  induction left generalizing shift result c with
  | zero =>
    unfold varintFrom at h
    by_cases hp : c.p < l
    · rw [andThen_ok (readByte_ok o hp)] at h
      split at h
      · cases h
      · cases h; exact ⟨rfl, Nat.lt_succ_self _, hp⟩
    · rw [andThen_raised (readByte_short o (by omega))] at h; cases h
  | succ left ih =>
    unfold varintFrom at h
    by_cases hp : c.p < l
    · rw [andThen_ok (readByte_ok o hp)] at h
      split at h
      · cases h; exact ⟨rfl, Nat.lt_succ_self _, hp⟩
      · have := ih h
        exact ⟨this.1, by have := this.2.1; simp at this; omega, this.2.2⟩
    · rw [andThen_raised (readByte_short o (by omega))] at h; cases h

theorem varint_ok {o : Operands} {l v : Nat} {c c' : Ctx} (h : varint o l c = .ok v c') :
    c'.out = c.out ∧ c.p < c'.p ∧ c'.p ≤ l :=
  varintFrom_ok h

/-! ### Runs -/

@[simp] theorem length_unpack (d bw count : Nat) : (unpack d bw count).length = count := by
  induction count generalizing d with
  | zero => rfl
  | succ n ih => simp [unpack, ih]

/-- Value j of a run is the bw-bit field at run bit `j * bw` (42_bitpack_rle.md R182). -/
theorem getD_unpack (d bw count j : Nat) (h : j < count) :
    (unpack d bw count).getD j 0 = (d >>> (j * bw)) % 2 ^ bw := by
  induction count generalizing d j with
  | zero => omega
  | succ n ih =>
    cases j with
    | zero => simp [unpack]
    | succ j =>
      rw [unpack, List.getD_cons_succ, ih _ _ (by omega), ← Nat.shiftRight_add]
      congr 2; ring

theorem unpack_lt (d bw count : Nat) : ∀ v ∈ unpack d bw count, v < 2 ^ bw := by
  induction count generalizing d with
  | zero => simp [unpack]
  | succ n ih =>
    intro v hv
    rcases List.mem_cons.mp hv with rfl | hv
    · exact Nat.mod_lt _ (by positivity)
    · exact ih _ v hv

/-- Bit b of a little-endian number is bit `b % 8` of byte `b / 8` (30_encoding.md R102). -/
theorem testBit_littleEndian (bytes : List Byte) (b : Nat) :
    (littleEndian bytes).testBit b = (bytes.getD (b / 8) 0).getLsbD (b % 8) := by
  induction bytes generalizing b with
  | nil => simp [littleEndian]
  | cons x rest ih =>
    rw [littleEndian]
    by_cases hb : b < 8
    · have h0 : b / 8 = 0 := by omega
      have h1 : b % 8 = b := by omega
      rw [h0, h1, List.getD_cons_zero, BitVec.getLsbD]
      have := Nat.testBit_two_pow_mul_add (littleEndian rest) (b := x.toNat) (i := 8) x.isLt b
      rw [show x.toNat + 256 * littleEndian rest = 2 ^ 8 * littleEndian rest + x.toNat by ring, this, if_pos hb]
    · obtain ⟨k, rfl⟩ : ∃ k, b = k + 8 := ⟨b - 8, by omega⟩
      have h0 : (k + 8) / 8 = k / 8 + 1 := by omega
      have h1 : (k + 8) % 8 = k % 8 := by omega
      rw [h0, h1, List.getD_cons_succ, ← ih]
      have := Nat.testBit_two_pow_mul_add (littleEndian rest) (b := x.toNat) (i := 8) x.isLt (k + 8)
      rw [show x.toNat + 256 * littleEndian rest = 2 ^ 8 * littleEndian rest + x.toNat by ring, this, if_neg hb]
      congr 1

theorem littleEndian_lt (bytes : List Byte) : littleEndian bytes < 2 ^ (8 * bytes.length) := by
  induction bytes with
  | nil => simp [littleEndian]
  | cons x rest ih =>
    have := x.isLt
    rw [littleEndian, List.length_cons]
    have h : (2 : Nat) ^ (8 * (rest.length + 1)) = 256 * 2 ^ (8 * rest.length) := by
      rw [Nat.mul_add, Nat.pow_add]; ring
    rw [h]; omega

theorem bitUnpackFirst_ok (o : Operands) {ng bw count l : Nat} {c : Ctx} (h : c.p + ng * bw ≤ l) :
    bitUnpackFirst o ng bw count l c =
      .ok (unpack (littleEndian (o.mem.readBytes (o.inBase + c.p) (ng * bw))) bw count)
        { c with p := c.p + ng * bw } := by
  unfold bitUnpackFirst; rw [andThen_ok (readBytes_ok o h)]; rfl

theorem bitUnpackFirst_short (o : Operands) {ng bw count l : Nat} {c : Ctx} (h : l < c.p + ng * bw) :
    bitUnpackFirst o ng bw count l c = .raised .truncated c := by
  unfold bitUnpackFirst; rw [andThen_raised (readBytes_short o h)]

/-- A run that goes on gives as many values as were asked for, has consumed its bytes, and emits nothing. -/
theorem bitUnpackFirst_eq_ok {o : Operands} {ng bw count l : Nat} {c c' : Ctx} {vs : List Nat}
    (h : bitUnpackFirst o ng bw count l c = .ok vs c') :
    vs.length = count ∧ c'.p = c.p + ng * bw ∧ c'.p ≤ l ∧ c'.out = c.out := by
  by_cases hp : c.p + ng * bw ≤ l
  · rw [bitUnpackFirst_ok o hp] at h; cases h; exact ⟨by simp, rfl, hp, rfl⟩
  · rw [bitUnpackFirst_short o (by omega)] at h; cases h

theorem orderly_bitUnpackFirst {o : Operands} {ng bw count l l' : Nat} {c : Ctx} (hl : l' ≤ l) (hp : c.p ≤ l)
    (hn : c.n ≤ o.outCap) : Orderly o l c (bitUnpackFirst o ng bw count l' c) :=
  orderly_bind (orderly_readBytes hl hp hn) fun _ _ _ h => orderly_give _ h.inLimit h.fits

theorem readBytes_eq_ok {o : Operands} {k l : Nat} {c c' : Ctx} {bytes : List Byte}
    (h : readBytes o k l c = .ok bytes c') :
    c.p + k ≤ l ∧ bytes = o.mem.readBytes (o.inBase + c.p) k ∧ c' = { c with p := c.p + k } := by
  by_cases hp : c.p + k ≤ l
  · rw [readBytes_ok o hp] at h; cases h; exact ⟨hp, rfl, rfl⟩
  · rw [readBytes_short o (by omega)] at h; cases h

/-- An RLE run when its elements fit and its value bytes are there (42_bitpack_rle.md R184). -/
theorem rleRun_ok (o : Operands) {count bw l : Nat} {c : Ctx} (hn : c.n + count ≤ o.outCap)
    (hp : c.p + (bw + 7) / 8 ≤ l) :
    rleRun o count bw l c = .ok ()
      { p := c.p + (bw + 7) / 8
        out := c.out ++ List.replicate count (littleEndian (o.mem.readBytes (o.inBase + c.p) ((bw + 7) / 8))) } := by
  unfold rleRun
  rw [andThen_ok (need_ok o hn), andThen_ok (readBytes_ok o hp)]
  rfl

theorem orderly_rleRun {o : Operands} {count bw l l' : Nat} {c : Ctx} (hl : l' ≤ l) (hp : c.p ≤ l)
    (hn : c.n ≤ o.outCap) : Orderly o l c (rleRun o count bw l' c) := by
  refine orderly_bind (orderly_need hp hn) fun u c1 h1 _ => ?_
  obtain ⟨rfl, hfit⟩ := need_eq_ok h1
  refine orderly_bind (orderly_readBytes hl hp hn) fun bytes c2 h2 e2 => ?_
  obtain ⟨-, -, rfl⟩ := readBytes_eq_ok h2
  exact orderly_emit _ e2.inLimit (by rw [List.length_replicate]; exact hfit)

end Sys2Proof.Machine
end

