-- ==== Sys2Proof/Laws/Bodies.lean ====
section
/-! SUPPORT. Every command body is orderly: it moves the running offset forward within the window, appends elements
within the capacity, and raises only TRUNCATED, MALFORMED or CAPACITY (40_command_execution.md R135 to R139;
60_exceptions.md R281, R282, R285). -/

namespace Sys2Proof.Machine

/-! ### Varint -/

theorem orderly_varints {o : Operands} (count : Nat) {c : Ctx} (hp : c.p ≤ o.inLen) (hn : c.n + count ≤ o.outCap) :
    Orderly o o.inLen c (varints o count c) := by
  induction count generalizing c with
  | zero => exact orderly_give _ hp hn
  | succ count ih =>
    refine orderly_bind (orderly_varint (le_refl _) hp (by omega)) fun v c1 h1 e1 => ?_
    have hout : c1.n = c.n := by unfold Ctx.n; rw [(varint_ok h1).1]
    refine orderly_bind (orderly_emit _ e1.inLimit (by simp only [List.length_singleton]; omega)) fun u c2 h2 e2 => ?_
    cases h2
    refine ih e2.inLimit ?_
    unfold Ctx.n at *
    simp only [List.length_append, List.length_singleton]
    omega

theorem orderly_varintBody {o : Operands} {c : Ctx} (hp : c.p ≤ o.inLen) (hn : c.n ≤ o.outCap) :
    Orderly o o.inLen c (varintBody o c) := by
  refine orderly_bind (orderly_need hp hn) fun u c1 h1 e1 => ?_
  obtain ⟨rfl, hfit⟩ := need_eq_ok h1
  exact orderly_varints _ hp hfit

/-! ### Bit-packing and RLE -/

/-- The capacity check, the run and the emission that `BITUNPACK` and `HYBRID` share. -/
theorem orderly_packedRun {o : Operands} {ng bw l l' : Nat} {c : Ctx} (hl : l' ≤ l) (hp : c.p ≤ l)
    (hn : c.n ≤ o.outCap) :
    Orderly o l c (andThen (need o (ng * 8)) (fun _ => andThen (bitUnpack o ng bw l') fun vs => emit vs) c) := by
  refine orderly_bind (orderly_need hp hn) fun u c1 h1 e1 => ?_
  obtain ⟨rfl, hfit⟩ := need_eq_ok h1
  refine orderly_bind (orderly_bitUnpackFirst hl hp hn) fun vs c2 h2 e2 => ?_
  obtain ⟨hlen, -, -, hout⟩ := bitUnpackFirst_eq_ok h2
  refine orderly_emit _ e2.inLimit ?_
  unfold Ctx.n at *
  rw [hout, hlen]; exact hfit

theorem orderly_bitunpackBody {o : Operands} {bw : Nat} {c : Ctx} (hp : c.p ≤ o.inLen) (hn : c.n ≤ o.outCap) :
    Orderly o o.inLen c (bitunpackBody bw o c) :=
  orderly_packedRun (le_refl _) hp hn

theorem orderly_rleBody {o : Operands} {bw : Nat} {c : Ctx} (hp : c.p ≤ o.inLen) (hn : c.n ≤ o.outCap) :
    Orderly o o.inLen c (rleBody bw o c) :=
  orderly_rleRun (le_refl _) hp hn

/-! ### Hybrid -/

theorem orderly_regionLength {o : Operands} {lenx : Bool} {c : Ctx} (hp : c.p ≤ o.inLen) (hn : c.n ≤ o.outCap) :
    Orderly o o.inLen c (regionLength lenx o c) := by
  unfold regionLength
  split
  · exact orderly_give _ hp hn
  · refine orderly_bind (orderly_readBytes (le_refl _) hp hn) fun raw c1 _ e1 => ?_
    split
    · exact orderly_raise e1.inLimit e1.fits rfl
    · exact orderly_give _ e1.inLimit e1.fits

theorem orderly_hybridRun {o : Operands} {bw l stop : Nat} {c : Ctx} (hl : stop ≤ l) (hp : c.p ≤ l)
    (hn : c.n ≤ o.outCap) : Orderly o l c (hybridRun o bw stop c) := by
  refine orderly_bind (orderly_varint hl hp hn) fun h c1 _ e1 => ?_
  split
  · exact orderly_rleRun hl e1.inLimit e1.fits
  · exact orderly_packedRun hl e1.inLimit e1.fits

theorem orderly_hybridRuns {o : Operands} {bw l stop : Nat} (fuel : Nat) {c : Ctx} (hl : stop ≤ l) (hp : c.p ≤ l)
    (hn : c.n ≤ o.outCap) : Orderly o l c (hybridRuns o bw stop fuel c) := by
  induction fuel generalizing c with
  | zero => exact orderly_give _ hp hn
  | succ fuel ih =>
    show Orderly o l c ((if c.p < stop then _ else _ : Eng Unit) c)
    split
    · exact orderly_bind (orderly_hybridRun hl hp hn) fun _ _ _ e => ih e.inLimit e.fits
    · exact orderly_give _ hp hn

theorem orderly_hybridBody {o : Operands} {bw : Nat} {lenx : Bool} {c : Ctx} (hp : c.p ≤ o.inLen)
    (hn : c.n ≤ o.outCap) : Orderly o o.inLen c (hybridBody bw lenx o c) := by
  refine orderly_bind (orderly_regionLength hp hn) fun len c1 _ e1 => ?_
  show Orderly o o.inLen c1 ((if c1.p + len > o.inLen then _ else _ : Eng Unit) c1)
  split
  · exact orderly_raise e1.inLimit e1.fits rfl
  · exact orderly_hybridRuns _ (by omega) e1.inLimit e1.fits

/-- A run that goes on has consumed at least its header byte (40_command_execution.md R144). -/
theorem hybridRun_progress {o : Operands} {bw stop : Nat} {c c' : Ctx} {u : Unit} (hp : c.p ≤ stop)
    (hn : c.n ≤ o.outCap) (h : hybridRun o bw stop c = .ok u c') : c.p < c'.p ∧ c'.p ≤ stop ∧ c'.n ≤ o.outCap := by
  unfold hybridRun at h
  rw [andThen_apply] at h
  have ho := orderly_varint (o := o) (le_refl stop) hp hn
  generalize hv : varint o stop c = r at h ho
  cases r with
  | raised f c1 => cases h
  | ok v c1 =>
    have hlt := (varint_ok hv).2.1
    have e1 : Ctx.Extends o stop c c1 := ho.extends_
    have key : Orderly o stop c1 (Run.ok u c') := by
      rw [← h]
      by_cases hv0 : v % 2 = 0
      · simp only [if_pos hv0]; exact orderly_rleRun (le_refl _) e1.inLimit e1.fits
      · simp only [if_neg hv0]; exact orderly_packedRun (le_refl _) e1.inLimit e1.fits
    have e2 : Ctx.Extends o stop c1 c' := key.extends_
    exact ⟨lt_of_lt_of_le hlt e2.forward, e2.inLimit, e2.fits⟩

/-- With the region's bytes as fuel, runs that go on stop exactly at the region's end (43_hybrid.md R213; log 25). -/
theorem hybridRuns_ends {o : Operands} {bw stop : Nat} (fuel : Nat) {c c' : Ctx} {u : Unit} (hp : c.p ≤ stop)
    (hn : c.n ≤ o.outCap) (hfuel : stop ≤ c.p + fuel) (h : hybridRuns o bw stop fuel c = .ok u c') : c'.p = stop := by
  induction fuel generalizing c with
  | zero => cases h; omega
  | succ fuel ih =>
    replace h : (if c.p < stop then andThen (hybridRun o bw stop) (fun _ => hybridRuns o bw stop fuel)
        else give () : Eng Unit) c = .ok u c' := h
    split at h
    · rw [andThen_apply] at h
      generalize hr : hybridRun o bw stop c = r at h
      cases r with
      | raised f c1 => cases h
      | ok v c1 =>
        obtain ⟨h1, h2, h3⟩ := hybridRun_progress hp hn hr
        exact ih h2 h3 (by omega) h
    · cases h; omega

/-! ### Delta -/

@[simp] theorem length_deltaValues (w minDelta prev : Nat) (ds : List Nat) :
    (deltaValues w minDelta prev ds).length = ds.length := by
  induction ds generalizing prev with
  | nil => rfl
  | cons d ds ih => simp [deltaValues, ih]

theorem orderly_deltaMiniBlock {o : Operands} {w minDelta prev width : Nat} {h : DeltaHeader} {c : Ctx}
    (hp : c.p ≤ o.inLen) (hn : c.n ≤ o.outCap) (hcap : h.numValues ≤ o.outCap) :
    Orderly o o.inLen c (deltaMiniBlock o w h minDelta prev width c) := by
  unfold deltaMiniBlock
  rw [andThen_ok (emitted_apply c)]
  refine orderly_bind (orderly_bitUnpackFirst (le_refl _) hp hn) fun ds c1 h1 e1 => ?_
  obtain ⟨hlen, -, -, hout⟩ := bitUnpackFirst_eq_ok h1
  refine orderly_bind (orderly_emit _ e1.inLimit ?_) fun _ _ _ e2 => orderly_give _ e2.inLimit e2.fits
  rw [length_deltaValues, hlen]
  unfold Ctx.n at *
  rw [hout]; omega

theorem orderly_deltaMiniBlocks {o : Operands} {w minDelta : Nat} {h : DeltaHeader} (widths : List Byte)
    {prev : Nat} {c : Ctx} (hp : c.p ≤ o.inLen) (hn : c.n ≤ o.outCap) (hcap : h.numValues ≤ o.outCap) :
    Orderly o o.inLen c (deltaMiniBlocks o w h minDelta prev widths c) := by
  induction widths generalizing prev c with
  | nil => exact orderly_give _ hp hn
  | cons width widths ih =>
    exact orderly_bind (orderly_deltaMiniBlock hp hn hcap) fun _ _ _ e => ih e.inLimit e.fits

theorem orderly_deltaBlock {o : Operands} {w prev : Nat} {h : DeltaHeader} {c : Ctx} (hp : c.p ≤ o.inLen)
    (hn : c.n ≤ o.outCap) (hcap : h.numValues ≤ o.outCap) : Orderly o o.inLen c (deltaBlock o w h prev c) := by
  refine orderly_bind (orderly_varint (le_refl _) hp hn) fun z c1 _ e1 => ?_
  refine orderly_bind (orderly_readBytes (le_refl _) e1.inLimit e1.fits) fun widths c2 _ e2 => ?_
  split
  · exact orderly_raise e2.inLimit e2.fits rfl
  · exact orderly_deltaMiniBlocks _ e2.inLimit e2.fits hcap

theorem orderly_deltaBlocks {o : Operands} {w : Nat} {h : DeltaHeader} (fuel : Nat) {prev : Nat} {c : Ctx}
    (hp : c.p ≤ o.inLen) (hn : c.n ≤ o.outCap) (hcap : h.numValues ≤ o.outCap) :
    Orderly o o.inLen c (deltaBlocks o w h fuel prev c) := by
  induction fuel generalizing prev c with
  | zero => exact orderly_give _ hp hn
  | succ fuel ih =>
    show Orderly o o.inLen c ((if c.n < h.numValues then _ else _ : Eng Unit) c)
    split
    · exact orderly_bind (orderly_deltaBlock hp hn hcap) fun _ _ _ e => ih e.inLimit e.fits
    · exact orderly_give _ hp hn

theorem orderly_deltaAfterHeader {o : Operands} {w first : Nat} {h : DeltaHeader} {c : Ctx} (hp : c.p ≤ o.inLen)
    (hn : c.n ≤ o.outCap) : Orderly o o.inLen c (deltaAfterHeader o w h first c) := by
  unfold deltaAfterHeader
  split
  · exact orderly_raise hp hn rfl
  · refine orderly_bind (orderly_need hp hn) fun u c1 h1 e1 => ?_
    obtain ⟨rfl, hfit⟩ := need_eq_ok h1
    refine orderly_bind (orderly_emit _ hp ?_) fun _ _ _ e2 => ?_
    · split
      · simp only [List.length_singleton]; omega
      · simpa using hn
    · exact orderly_deltaBlocks _ e2.inLimit e2.fits (by unfold Ctx.n at hfit; omega)

theorem orderly_deltaBody {o : Operands} {w : Nat} {c : Ctx} (hp : c.p ≤ o.inLen) (hn : c.n ≤ o.outCap) :
    Orderly o o.inLen c (deltaBody w o c) := by
  refine orderly_bind (orderly_varint (le_refl _) hp hn) fun _ _ _ e1 => ?_
  refine orderly_bind (orderly_varint (le_refl _) e1.inLimit e1.fits) fun _ _ _ e2 => ?_
  refine orderly_bind (orderly_varint (le_refl _) e2.inLimit e2.fits) fun _ _ _ e3 => ?_
  refine orderly_bind (orderly_varint (le_refl _) e3.inLimit e3.fits) fun _ _ _ e4 => ?_
  exact orderly_deltaAfterHeader e4.inLimit e4.fits

/-! ### Byte-stream split -/

theorem orderly_bssBody {o : Operands} {planes : Nat} {c : Ctx} (hp : c.p ≤ o.inLen) (hn : c.n ≤ o.outCap) :
    Orderly o o.inLen c (bssBody planes o c) := by
  refine orderly_bind (orderly_need hp hn) fun u c1 h1 e1 => ?_
  obtain ⟨rfl, hfit⟩ := need_eq_ok h1
  refine orderly_bind (orderly_readBytes (le_refl _) hp hn) fun d c2 h2 e2 => ?_
  obtain ⟨-, -, rfl⟩ := readBytes_eq_ok h2
  exact orderly_emit _ e2.inLimit (by rw [List.length_map, List.length_range]; exact hfit)

/-! ### The body of every command -/

/-- The body of a command (40_command_execution.md R139). -/
def bodyOf (i : Instr) : Operands → Eng Unit :=
  match i with
  | .varint => varintBody
  | .bitunpack width => bitunpackBody width.toNat
  | .rle width => rleBody width.toNat
  | .hybrid width lenx => hybridBody width.toNat lenx
  | .delta32 => deltaBody 32
  | .delta64 => deltaBody 64
  | .bss32 => bssBody 4
  | .bss64 => bssBody 8

/-- Every command runs its own body between the shared checks and the shared completion. -/
theorem exec_eq_runCommand (i : Instr) (s : State) : exec i s = runCommand i (bodyOf i) s := by
  cases i <;> rfl

theorem orderly_bodyOf (i : Instr) {o : Operands} {c : Ctx} (hp : c.p ≤ o.inLen) (hn : c.n ≤ o.outCap) :
    Orderly o o.inLen c (bodyOf i o c) := by
  cases i with
  | varint => exact orderly_varintBody hp hn
  | bitunpack width => exact orderly_bitunpackBody hp hn
  | rle width => exact orderly_rleBody hp hn
  | hybrid width lenx => exact orderly_hybridBody hp hn
  | delta32 => exact orderly_deltaBody hp hn
  | delta64 => exact orderly_deltaBody hp hn
  | bss32 => exact orderly_bssBody hp hn
  | bss64 => exact orderly_bssBody hp hn

end Sys2Proof.Machine
end

