-- ==== Sys2Proof/Laws/Memory.lean ====
section
/-! SUPPORT. The laws of data memory: what a read gives after each operation, and that every operation keeps the
canonical form. The read laws hold of every memory, canonical or not. -/

namespace Sys2Proof.Machine

/-! ### Listed bytes -/

theorem lookupCell_filter_self (cells : List Host.Cell) (a : Nat) :
    lookupCell (cells.filter fun c => c.1 ≠ a) a = none := by
  induction cells with
  | nil => rfl
  | cons c rest ih =>
    by_cases h : c.1 = a
    · simp [h] at ih ⊢; exact ih
    · simp [h, lookupCell] at ih ⊢; exact ih

theorem lookupCell_filter_keep (cells : List Host.Cell) (q : Host.Cell → Bool) (b : Nat)
    (h : ∀ v, q (b, v) = true) : lookupCell (cells.filter q) b = lookupCell cells b := by
  induction cells with
  | nil => rfl
  | cons c rest ih =>
    obtain ⟨x, v⟩ := c
    by_cases hx : x = b
    · subst hx; simp [h, lookupCell]
    · by_cases hq : q (x, v) = true <;> simp [hq, lookupCell, hx, ih]

theorem lookupCell_filter_drop (cells : List Host.Cell) (q : Host.Cell → Bool) (b : Nat)
    (h : ∀ v, q (b, v) = false) : lookupCell (cells.filter q) b = none := by
  induction cells with
  | nil => rfl
  | cons c rest ih =>
    obtain ⟨x, v⟩ := c
    by_cases hq : q (x, v) = true
    · have hx : x ≠ b := by rintro rfl; simp [h] at hq
      simp [hq, lookupCell, hx, ih]
    · simp [hq, ih]

theorem lookupCell_insertCell (cells : List Host.Cell) (a b : Nat) (v : Byte)
    (hnone : lookupCell cells a = none) :
    lookupCell (insertCell cells a v) b = if b = a then some v else lookupCell cells b := by
  induction cells with
  | nil => simp [insertCell, lookupCell, eq_comm]
  | cons c rest ih =>
    obtain ⟨x, w⟩ := c
    simp only [lookupCell] at hnone
    split at hnone
    · cases hnone
    · rename_i hx
      simp only [insertCell]
      split
      · by_cases hb : b = a
        · subst hb; simp [lookupCell]
        · simp [lookupCell, hb, Ne.symm hb]
      · simp only [lookupCell, ih hnone]
        by_cases hb : b = a
        · subst hb; simp [hx]
        · simp [hb]

/-! ### Free regions -/

theorem freeDraw_nil (a : Nat) : freeDraw [] a = none := rfl

theorem freeDraw_cons (r : FreeRegion) (rest : List FreeRegion) (a : Nat) :
    freeDraw (r :: rest) a = if r.contains a then some r.draw else freeDraw rest a := by
  unfold freeDraw
  by_cases h : r.contains a = true <;> simp [List.find?, h]

theorem freeDraw_append (xs ys : List FreeRegion) (a : Nat) :
    freeDraw (xs ++ ys) a = (freeDraw xs a).or (freeDraw ys a) := by
  induction xs with
  | nil => simp [freeDraw_nil]
  | cons r rest ih =>
    simp only [List.cons_append, freeDraw_cons, ih]
    split <;> simp

theorem freeDraw_outside (r : FreeRegion) (lo hi a : Nat) :
    freeDraw (r.outside lo hi) a =
      if lo ≤ a ∧ a < hi then none else if r.contains a then some r.draw else none := by
  unfold FreeRegion.outside
  simp only [freeDraw_append]
  have key : ∀ (p : Prop) [Decidable p] (q : FreeRegion),
      freeDraw (if p then [q] else []) a = if p ∧ q.contains a = true then some q.draw else none := by
    intro p _ q
    by_cases hp : p <;> simp [hp, freeDraw_cons, freeDraw_nil]
  simp only [key, FreeRegion.contains, Bool.and_eq_true, decide_eq_true_eq]
  by_cases h1 : lo ≤ a ∧ a < hi
  · rw [if_neg (by omega), if_neg (by omega), if_pos h1]; rfl
  · rw [if_neg h1]
    by_cases h2 : r.base ≤ a ∧ a < r.base + r.size
    · rw [if_pos h2]
      by_cases h3 : a < lo
      · rw [if_pos (by omega)]; rfl
      · rw [if_neg (by omega), if_pos (by omega)]; rfl
    · rw [if_neg h2, if_neg (by omega), if_neg (by omega)]; rfl

/-- Taking addresses out of the free regions takes out exactly those. -/
theorem freeDraw_carveFree (free : List FreeRegion) (lo hi a : Nat) :
    freeDraw (carveFree free lo hi) a = if lo ≤ a ∧ a < hi then none else freeDraw free a := by
  induction free with
  | nil => simp [carveFree, freeDraw_nil]
  | cons r rest ih =>
    have : carveFree (r :: rest) lo hi = r.outside lo hi ++ carveFree rest lo hi := by
      simp [carveFree]
    rw [this, freeDraw_append, ih, freeDraw_outside r lo hi a, freeDraw_cons]
    by_cases h1 : lo ≤ a ∧ a < hi
    · simp [h1]
    · by_cases h2 : r.contains a = true <;> simp [h1, h2]

theorem freeDraw_insertRegion (free : List FreeRegion) (r : FreeRegion) (a : Nat)
    (hnone : r.contains a = true → freeDraw free a = none) :
    freeDraw (insertRegion free r) a = if r.contains a then some r.draw else freeDraw free a := by
  induction free with
  | nil => simp [insertRegion, freeDraw_cons]
  | cons q rest ih =>
    simp only [insertRegion]
    split
    · rw [freeDraw_cons]
    · rw [freeDraw_cons, freeDraw_cons]
      rw [freeDraw_cons] at hnone
      by_cases hq : q.contains a = true
      · have : ¬ r.contains a = true := fun h => by simpa [hq] using hnone h
        simp [hq, this]
      · simp only [hq] at hnone ⊢
        simpa using ih (by simpa using hnone)

/-! ### Reads after writes -/

theorem Memory.read_of_lookup {m : Memory} {a : Nat} {v : Byte} (h : lookupCell m.cells a = some v) :
    m.read a = v := by
  simp [Memory.read, h]

theorem unlistedByte_carveFree (free : List FreeRegion) (lo hi a : Nat) :
    unlistedByte (carveFree free lo hi) a = if lo ≤ a ∧ a < hi then 0 else unlistedByte free a := by
  unfold unlistedByte
  rw [freeDraw_carveFree]
  by_cases h : lo ≤ a ∧ a < hi
  · rw [if_pos h, if_pos h]
  · rw [if_neg h, if_neg h]

/-- A byte stored reads back, and every other address reads as before. -/
theorem Memory.read_writeByte (m : Memory) (a b : Nat) (v : Byte) :
    (m.writeByte a v).read b = if b = a then v else m.read b := by
  have hin := lookupCell_insertCell _ a b v (lookupCell_filter_self m.cells a)
  simp only [Memory.read, Memory.writeByte, unlistedByte_carveFree m.free a (a + 1) b]
  by_cases hb : b = a
  · subst hb
    have hself : b ≤ b ∧ b < b + 1 := ⟨le_refl b, Nat.lt_succ_self b⟩
    by_cases hv : v = 0
    · rw [if_pos hv, lookupCell_filter_self, if_pos hself, if_pos rfl, hv]; rfl
    · rw [if_neg hv, hin, if_pos rfl, if_pos rfl]; rfl
  · have hother : ¬(a ≤ b ∧ b < a + 1) := by omega
    have hkeep : lookupCell (m.cells.filter fun c => c.1 ≠ a) b = lookupCell m.cells b :=
      lookupCell_filter_keep _ _ _ (by intro w; simp [hb])
    by_cases hv : v = 0
    · rw [if_pos hv, hkeep, if_neg hother, if_neg hb]
    · rw [if_neg hv, hin, if_neg hb, hkeep, if_neg hother, if_neg hb]

@[simp] theorem Memory.read_writeByte_same (m : Memory) (a : Nat) (v : Byte) : (m.writeByte a v).read a = v := by
  simp [Memory.read_writeByte]

theorem Memory.read_writeByte_other (m : Memory) {a b : Nat} (v : Byte) (h : b ≠ a) :
    (m.writeByte a v).read b = m.read b := by
  simp [Memory.read_writeByte, h]

/-- Bytes stored in a row: the k-th reads back at `a + k`, and every other address reads as before. -/
theorem Memory.read_writeBytes (m : Memory) (a b : Nat) (bytes : List Byte) :
    (m.writeBytes a bytes).read b =
      if a ≤ b ∧ b < a + bytes.length then bytes.getD (b - a) 0 else m.read b := by
  induction bytes generalizing m a with
  | nil => simp only [Memory.writeBytes, List.length_nil]; rw [if_neg (by omega)]
  | cons v rest ih =>
    rw [Memory.writeBytes, ih, List.length_cons]
    by_cases h0 : b = a
    · subst h0
      rw [if_neg (by omega), if_pos (by omega), Memory.read_writeByte_same]; simp
    · by_cases h1 : a + 1 ≤ b ∧ b < a + 1 + rest.length
      · rw [if_pos h1, if_pos (by omega)]
        obtain ⟨k, hk⟩ : ∃ k, b - a = k + 1 := ⟨b - a - 1, by omega⟩
        rw [hk, List.getD_cons_succ]
        congr 1; omega
      · rw [if_neg h1, if_neg (by omega), Memory.read_writeByte_other _ _ h0]

theorem Memory.read_writeBytes_outside (m : Memory) {a b : Nat} (bytes : List Byte)
    (h : b < a ∨ a + bytes.length ≤ b) : (m.writeBytes a bytes).read b = m.read b := by
  rw [Memory.read_writeBytes, if_neg (by omega)]

@[simp] theorem length_bytesOf (n v : Nat) : (bytesOf n v).length = n := by
  induction n generalizing v with
  | zero => rfl
  | succ n ih => simp [bytesOf, ih]

theorem getD_bytesOf (n v k : Nat) (h : k < n) : (bytesOf n v).getD k 0 = BitVec.ofNat 8 (v / 256 ^ k) := by
  induction n generalizing v k with
  | zero => omega
  | succ n ih =>
    cases k with
    | zero => simp [bytesOf]
    | succ k =>
      rw [bytesOf, List.getD_cons_succ, ih _ _ (by omega), Nat.div_div_eq_div_mul, Nat.pow_succ']

@[simp] theorem littleEndian_bytesOf (n v : Nat) : littleEndian (bytesOf n v) = v % 2 ^ (8 * n) := by
  induction n generalizing v with
  | zero => simp [bytesOf, littleEndian, Nat.mod_one]
  | succ n ih =>
    rw [bytesOf, littleEndian, ih, BitVec.toNat_ofNat]
    have h : (2 : Nat) ^ (8 * (n + 1)) = 256 * 2 ^ (8 * n) := by
      rw [Nat.mul_add, Nat.pow_add]; ring
    rw [h, Nat.mod_mul]

/-- Output elements stored outside an address leave it as it was. -/
theorem Memory.read_writeElements_outside (m : Memory) {base esize b : Nat} (values : List Nat)
    (h : b < base ∨ base + values.length * esize ≤ b) :
    (m.writeElements base esize values).read b = m.read b := by
  induction values generalizing m base with
  | nil => rfl
  | cons v rest ih =>
    rw [List.length_cons, Nat.add_mul] at h
    rw [Memory.writeElements, ih _ (by omega), Memory.read_writeBytes_outside _ _ (by simp; omega)]

/-- Byte k of element i of the output reads as bits 8k+7..8k of the element. -/
theorem Memory.read_writeElements (m : Memory) {base esize : Nat} (values : List Nat) {i k : Nat}
    (hi : i < values.length) (hk : k < esize) :
    (m.writeElements base esize values).read (base + i * esize + k) =
      BitVec.ofNat 8 (values.getD i 0 / 256 ^ k) := by
  induction values generalizing m base i with
  | nil => simp at hi
  | cons v rest ih =>
    rw [Memory.writeElements]
    cases i with
    | zero =>
      rw [Memory.read_writeElements_outside _ _ (by omega), Memory.read_writeBytes]
      rw [if_pos (by simp; omega)]
      have : base + 0 * esize + k - base = k := by omega
      rw [this, getD_bytesOf _ _ _ hk]; simp
    | succ i =>
      have h := ih (m.writeBytes base (bytesOf esize v)) (base := base + esize) (i := i)
        (by simpa using hi)
      rw [List.getD_cons_succ, ← h]
      congr 1; ring

@[simp] theorem Memory.length_readBytes (m : Memory) (a n : Nat) : (m.readBytes a n).length = n := by
  induction n generalizing a with
  | zero => rfl
  | succ n ih => simp [Memory.readBytes, ih]

theorem Memory.getD_readBytes (m : Memory) (a n k : Nat) (h : k < n) :
    (m.readBytes a n).getD k 0 = m.read (a + k) := by
  induction n generalizing a k with
  | zero => omega
  | succ n ih =>
    cases k with
    | zero => simp [Memory.readBytes]
    | succ k =>
      rw [Memory.readBytes, List.getD_cons_succ, ih _ _ (by omega)]
      congr 1; omega

/-- Two memories that agree on a range read the same bytes there. -/
theorem Memory.readBytes_congr {m m' : Memory} {a n : Nat}
    (h : ∀ b, a ≤ b → b < a + n → m.read b = m'.read b) : m.readBytes a n = m'.readBytes a n := by
  induction n generalizing a with
  | zero => rfl
  | succ n ih =>
    rw [Memory.readBytes, Memory.readBytes, h a (le_refl _) (by omega),
      ih (fun b h1 h2 => h b (by omega) (by omega))]

theorem Memory.readBytes_append (m : Memory) (a k n : Nat) :
    m.readBytes a (k + n) = m.readBytes a k ++ m.readBytes (a + k) n := by
  induction k generalizing a with
  | zero => simp [Memory.readBytes]
  | succ k ih =>
    rw [show k + 1 + n = (k + n) + 1 by omega, Memory.readBytes, ih, Memory.readBytes, List.cons_append]
    congr 3; omega

/-- An output element reads back as its low `8 * esize` bits. -/
theorem Memory.readBytes_writeElements (m : Memory) {base esize : Nat} (values : List Nat) {i : Nat}
    (hi : i < values.length) :
    (m.writeElements base esize values).readBytes (base + i * esize) esize = bytesOf esize (values.getD i 0) := by
  apply List.ext_getElem (by simp)
  intro k h1 _
  have hk : k < esize := by simpa using h1
  have e1 := Memory.getD_readBytes (m.writeElements base esize values) (base + i * esize) esize k hk
  have e2 := getD_bytesOf esize (values.getD i 0) k hk
  rw [Memory.read_writeElements m values hi hk] at e1
  rw [List.getD_eq_getElem _ _ (by simpa using hk)] at e1 e2
  exact e1.trans e2.symm

/-- Freed bytes read as the free choice, and every other address reads as before. -/
theorem Memory.read_makeFree (m : Memory) (base size draw b : Nat) :
    (m.makeFree base size draw).read b =
      if base ≤ b ∧ b < base + size then Config.freeByte draw b else m.read b := by
  unfold Memory.makeFree
  split
  · rw [if_neg (by omega)]
  · have hc := freeDraw_carveFree m.free base (base + size) b
    have hi := freeDraw_insertRegion (carveFree m.free base (base + size)) ⟨base, size, draw⟩ b
      (by
        intro h
        simp only [FreeRegion.contains, Bool.and_eq_true, decide_eq_true_eq] at h
        rw [hc, if_pos h])
    simp only [FreeRegion.contains, Bool.and_eq_true, decide_eq_true_eq] at hi
    simp only [Memory.read, unlistedByte, hi]
    by_cases hb : base ≤ b ∧ b < base + size
    · rw [lookupCell_filter_drop _ _ _ (by intro v; simp [hb]), if_pos hb, if_pos hb]; rfl
    · rw [lookupCell_filter_keep _ _ _ (by intro v; simp; omega), if_neg hb, if_neg hb, hc, if_neg hb]

/-! ### The canonical form -/

/-- What the canonical form says, as a proposition. -/
theorem Memory.wf_iff (m : Memory) : m.wf = true ↔
    (m.cells.Pairwise fun c d => c.1 < d.1)
      ∧ (∀ c ∈ m.cells, c.1 < 2 ^ 64 ∧ c.2 ≠ 0 ∧ freeDraw m.free c.1 = none)
      ∧ (m.free.Pairwise fun r q => r.base + r.size ≤ q.base)
      ∧ (∀ r ∈ m.free, 0 < r.size ∧ r.base + r.size ≤ 2 ^ 64) := by
  unfold Memory.wf
  simp only [Bool.and_eq_true, decide_eq_true_eq, List.all_eq_true, Option.isNone_iff_eq_none, and_assoc]

theorem mem_insertCell {cells : List Host.Cell} {a : Nat} {v : Byte} {c : Host.Cell} :
    c ∈ insertCell cells a v ↔ c = (a, v) ∨ c ∈ cells := by
  induction cells with
  | nil => simp [insertCell]
  | cons d rest ih =>
    obtain ⟨x, w⟩ := d
    simp only [insertCell]
    split
    · simp
    · simp only [List.mem_cons, ih]; tauto

theorem pairwise_insertCell {cells : List Host.Cell} {a : Nat} {v : Byte}
    (hs : cells.Pairwise fun c d => c.1 < d.1) (hne : ∀ c ∈ cells, c.1 ≠ a) :
    (insertCell cells a v).Pairwise fun c d => c.1 < d.1 := by
  induction cells with
  | nil => simp [insertCell]
  | cons d rest ih =>
    obtain ⟨x, w⟩ := d
    rw [List.pairwise_cons] at hs
    simp only [insertCell]
    split
    · rename_i hlt
      refine List.pairwise_cons.mpr ⟨?_, List.pairwise_cons.mpr hs⟩
      intro c hc
      rcases List.mem_cons.mp hc with rfl | hc
      · exact hlt
      · exact lt_trans hlt (hs.1 c hc)
    · rename_i hge
      have hx : x ≠ a := hne (x, w) (by simp)
      refine List.pairwise_cons.mpr ⟨?_, ih hs.2 fun c hc => hne c (by simp [hc])⟩
      intro c hc
      rcases mem_insertCell.mp hc with rfl | hc
      · show x < a; omega
      · exact hs.1 c hc

theorem mem_outside {r q : FreeRegion} {lo hi : Nat} (h : q ∈ r.outside lo hi) :
    r.base ≤ q.base ∧ q.base + q.size ≤ r.base + r.size ∧ 0 < q.size := by
  unfold FreeRegion.outside at h
  simp only [List.mem_append] at h
  rcases h with h | h <;> split at h <;> simp at h <;> subst h <;> simp <;> omega

/-- A part of a region outside a range shares no address with the range. -/
theorem outside_apart {r q : FreeRegion} {lo hi : Nat} (h : q ∈ r.outside lo hi) :
    q.base + q.size ≤ lo ∨ hi ≤ q.base := by
  unfold FreeRegion.outside at h
  simp only [List.mem_append] at h
  rcases h with h | h <;> split at h <;> simp at h <;> subst h <;> dsimp only <;> omega

theorem pairwise_outside (r : FreeRegion) {lo hi : Nat} (hle : lo ≤ hi) :
    (r.outside lo hi).Pairwise fun r q => r.base + r.size ≤ q.base := by
  unfold FreeRegion.outside
  dsimp only
  split <;> split <;> simp
  omega

theorem pairwise_carveFree {free : List FreeRegion} {lo hi : Nat} (hle : lo ≤ hi)
    (hs : free.Pairwise fun r q => r.base + r.size ≤ q.base) :
    (carveFree free lo hi).Pairwise fun r q => r.base + r.size ≤ q.base := by
  induction free with
  | nil => simp [carveFree]
  | cons r rest ih =>
    rw [List.pairwise_cons] at hs
    have : carveFree (r :: rest) lo hi = r.outside lo hi ++ carveFree rest lo hi := by simp [carveFree]
    rw [this, List.pairwise_append]
    refine ⟨pairwise_outside r hle, ih hs.2, ?_⟩
    intro x hx y hy
    obtain ⟨q, hq, hyq⟩ := List.mem_flatMap.mp hy
    have h1 := mem_outside hx
    have h2 := mem_outside hyq
    have h3 := hs.1 q hq
    omega

theorem mem_insertRegion {free : List FreeRegion} {r q : FreeRegion} :
    q ∈ insertRegion free r ↔ q = r ∨ q ∈ free := by
  induction free with
  | nil => simp [insertRegion]
  | cons x rest ih =>
    simp only [insertRegion]
    split
    · simp
    · simp only [List.mem_cons, ih]; tauto

theorem pairwise_insertRegion {free : List FreeRegion} {r : FreeRegion}
    (hs : free.Pairwise fun r q => r.base + r.size ≤ q.base)
    (hpos : 0 < r.size) (hall : ∀ q ∈ free, 0 < q.size)
    (hapart : ∀ q ∈ free, q.base + q.size ≤ r.base ∨ r.base + r.size ≤ q.base) :
    (insertRegion free r).Pairwise fun r q => r.base + r.size ≤ q.base := by
  induction free with
  | nil => simp [insertRegion]
  | cons x rest ih =>
    rw [List.pairwise_cons] at hs
    have hx := hapart x (by simp)
    have hxs := hall x (by simp)
    simp only [insertRegion]
    split
    · rename_i hlt
      refine List.pairwise_cons.mpr ⟨?_, List.pairwise_cons.mpr hs⟩
      intro c hc
      rcases List.mem_cons.mp hc with rfl | hc
      · omega
      · have := hs.1 c hc; omega
    · rename_i hge
      refine List.pairwise_cons.mpr ⟨?_, ih hs.2 (fun q hq => hall q (by simp [hq]))
        (fun q hq => hapart q (by simp [hq]))⟩
      intro c hc
      rcases mem_insertRegion.mp hc with rfl | hc
      · omega
      · exact hs.1 c hc

theorem mem_carveFree {free : List FreeRegion} {q : FreeRegion} {lo hi : Nat} (h : q ∈ carveFree free lo hi) :
    ∃ r ∈ free, r.base ≤ q.base ∧ q.base + q.size ≤ r.base + r.size ∧ 0 < q.size := by
  obtain ⟨r, hr, hq⟩ := List.mem_flatMap.mp h
  exact ⟨r, hr, mem_outside hq⟩

theorem apart_carveFree {free : List FreeRegion} {q : FreeRegion} {lo hi : Nat}
    (h : q ∈ carveFree free lo hi) : q.base + q.size ≤ lo ∨ hi ≤ q.base := by
  obtain ⟨r, -, hq⟩ := List.mem_flatMap.mp h
  unfold FreeRegion.outside at hq
  simp only [List.mem_append] at hq
  rcases hq with hq | hq <;> split at hq <;> simp at hq <;> subst hq <;> simp; omega

/-- Storing a byte keeps the canonical form. -/
theorem Memory.wf_writeByte {m : Memory} (h : m.wf = true) {a : Nat} (v : Byte) (ha : a < 2 ^ 64) :
    (m.writeByte a v).wf = true := by
  rw [Memory.wf_iff] at h ⊢
  obtain ⟨h1, h2, h3, h4⟩ := h
  have hkept : ∀ c ∈ m.cells, freeDraw (carveFree m.free a (a + 1)) c.1 = none := by
    intro c hc
    rw [freeDraw_carveFree]
    split
    · rfl
    · exact (h2 c hc).2.2
  have hfilter : (m.cells.filter fun c => c.1 ≠ a).Pairwise fun c d => c.1 < d.1 :=
    h1.filter _
  refine ⟨?_, ?_, pairwise_carveFree (by omega) h3, ?_⟩
  · simp only [Memory.writeByte]
    split
    · exact hfilter
    · exact pairwise_insertCell hfilter fun c hc => by
        simpa using (List.mem_filter.mp hc).2
  · simp only [Memory.writeByte]
    split
    · intro c hc
      have hm := (List.mem_filter.mp hc).1
      exact ⟨(h2 c hm).1, (h2 c hm).2.1, hkept c hm⟩
    · rename_i hv
      intro c hc
      rcases mem_insertCell.mp hc with rfl | hc
      · refine ⟨ha, hv, ?_⟩
        rw [freeDraw_carveFree, if_pos ⟨le_refl _, by omega⟩]
      · have hm := (List.mem_filter.mp hc).1
        exact ⟨(h2 c hm).1, (h2 c hm).2.1, hkept c hm⟩
  · intro q hq
    obtain ⟨r, hr, hb, he, hp⟩ := mem_carveFree hq
    have := h4 r hr
    exact ⟨hp, by omega⟩

/-- Storing bytes keeps the canonical form. -/
theorem Memory.wf_writeBytes {m : Memory} (h : m.wf = true) {a : Nat} (bytes : List Byte)
    (ha : a + bytes.length ≤ 2 ^ 64) : (m.writeBytes a bytes).wf = true := by
  induction bytes generalizing m a with
  | nil => exact h
  | cons b rest ih =>
    rw [List.length_cons] at ha
    exact ih (Memory.wf_writeByte h b (by omega)) (by omega)

/-- Storing output elements keeps the canonical form. -/
theorem Memory.wf_writeElements {m : Memory} (h : m.wf = true) {base esize : Nat} (values : List Nat)
    (ha : base + values.length * esize ≤ 2 ^ 64) : (m.writeElements base esize values).wf = true := by
  induction values generalizing m base with
  | nil => exact h
  | cons v rest ih =>
    rw [List.length_cons, Nat.add_mul] at ha
    exact ih (Memory.wf_writeBytes h _ (by simp; omega)) (by omega)

/-- Freeing bytes keeps the canonical form. -/
theorem Memory.wf_makeFree {m : Memory} (h : m.wf = true) {base size draw : Nat}
    (ha : base + size ≤ 2 ^ 64) : (m.makeFree base size draw).wf = true := by
  unfold Memory.makeFree
  split
  · exact h
  · rename_i hsize
    rw [Memory.wf_iff] at h ⊢
    obtain ⟨h1, h2, h3, h4⟩ := h
    refine ⟨h1.filter _, ?_, ?_, ?_⟩
    · intro c hc
      obtain ⟨hm, hout⟩ := List.mem_filter.mp hc
      refine ⟨(h2 c hm).1, (h2 c hm).2.1, ?_⟩
      have hnot : ¬ (base ≤ c.1 ∧ c.1 < base + size) := by
        simp only [Bool.not_eq_true', Bool.and_eq_false_iff, decide_eq_false_iff_not] at hout
        omega
      have hcon : ¬ (FreeRegion.contains ⟨base, size, draw⟩ c.1 = true) := by
        simpa [FreeRegion.contains] using hnot
      rw [freeDraw_insertRegion _ _ _ (fun hc => absurd hc hcon), if_neg hcon,
        freeDraw_carveFree, if_neg hnot]
      exact (h2 c hm).2.2
    · exact pairwise_insertRegion (pairwise_carveFree (by omega) h3) (by show 0 < size; omega)
        (fun q hq => by obtain ⟨r, -, -, -, hp⟩ := mem_carveFree hq; exact hp)
        (fun q hq => apart_carveFree hq)
    · intro q hq
      rcases mem_insertRegion.mp hq with rfl | hq
      · exact ⟨by show 0 < size; omega, ha⟩
      · obtain ⟨r, hr, hb, he, hp⟩ := mem_carveFree hq
        have := h4 r hr
        exact ⟨hp, by omega⟩

/-- Making regions free leaves every address outside them as it was. -/
theorem Memory.read_makeFreeAll_outside {rs : List FreeRegion} {a : Nat} (m : Memory)
    (h : ∀ r ∈ rs, ¬(r.base ≤ a ∧ a < r.base + r.size)) : (m.makeFreeAll rs).read a = m.read a := by
  induction rs generalizing m with
  | nil => rfl
  | cons r rs ih =>
    rw [Memory.makeFreeAll, ih _ fun q hq => h q (List.mem_cons_of_mem r hq), Memory.read_makeFree,
      if_neg (h r List.mem_cons_self)]

/-- Making regions below 2^64 free keeps the canonical form. -/
theorem Memory.wf_makeFreeAll {rs : List FreeRegion} {m : Memory} (h : m.wf = true)
    (hr : ∀ r ∈ rs, r.base + r.size ≤ 2 ^ 64) : (m.makeFreeAll rs).wf = true := by
  induction rs generalizing m with
  | nil => exact h
  | cons r rs ih =>
    exact ih (Memory.wf_makeFree h (hr r List.mem_cons_self)) fun q hq => hr q (List.mem_cons_of_mem r hq)

/-- The memory right after reset is in canonical form. -/
theorem Memory.wf_reset : State.reset.mem.wf = true := by decide

end Sys2Proof.Machine
end

