-- ==== Sys2Proof/Laws/State.lean ====
section
/-! SUPPORT. What each register operation does to each field of the state, one lemma per field, all true by definition. -/

namespace Sys2Proof.Machine

/-! ### `completeDone` -/

@[simp] theorem completeDone_id (s : State) (esize p : Nat) (values : List Nat) :
    (completeDone s esize p values).id = s.id := rfl
@[simp] theorem completeDone_irqEn (s : State) (esize p : Nat) (values : List Nat) :
    (completeDone s esize p values).irqEn = s.irqEn := rfl
@[simp] theorem completeDone_state (s : State) (esize p : Nat) (values : List Nat) :
    (completeDone s esize p values).state = .done := rfl
@[simp] theorem completeDone_fault (s : State) (esize p : Nat) (values : List Nat) :
    (completeDone s esize p values).fault = .none := rfl
@[simp] theorem completeDone_irqPending (s : State) (esize p : Nat) (values : List Nat) :
    (completeDone s esize p values).irqPending = true := rfl
@[simp] theorem completeDone_wrIgnored (s : State) (esize p : Nat) (values : List Nat) :
    (completeDone s esize p values).wrIgnored = s.wrIgnored := rfl
@[simp] theorem completeDone_cmd (s : State) (esize p : Nat) (values : List Nat) :
    (completeDone s esize p values).cmd = s.cmd := rfl
@[simp] theorem completeDone_inBase (s : State) (esize p : Nat) (values : List Nat) :
    (completeDone s esize p values).inBase = s.inBase := rfl
@[simp] theorem completeDone_inLen (s : State) (esize p : Nat) (values : List Nat) :
    (completeDone s esize p values).inLen = s.inLen := rfl
@[simp] theorem completeDone_cursor (s : State) (esize p : Nat) (values : List Nat) :
    (completeDone s esize p values).cursor = BitVec.ofNat 64 p := rfl
@[simp] theorem completeDone_outBase (s : State) (esize p : Nat) (values : List Nat) :
    (completeDone s esize p values).outBase = s.outBase := rfl
@[simp] theorem completeDone_outCap (s : State) (esize p : Nat) (values : List Nat) :
    (completeDone s esize p values).outCap = s.outCap := rfl
@[simp] theorem completeDone_arg0 (s : State) (esize p : Nat) (values : List Nat) :
    (completeDone s esize p values).arg0 = s.arg0 := rfl
@[simp] theorem completeDone_outCount (s : State) (esize p : Nat) (values : List Nat) :
    (completeDone s esize p values).outCount = BitVec.ofNat 64 values.length := rfl
@[simp] theorem completeDone_faultPos (s : State) (esize p : Nat) (values : List Nat) :
    (completeDone s esize p values).faultPos = 0 := rfl
@[simp] theorem completeDone_mem (s : State) (esize p : Nat) (values : List Nat) :
    (completeDone s esize p values).mem = s.mem.writeElements s.outBase.toNat esize values := rfl
@[simp] theorem completeDone_inReset (s : State) (esize p : Nat) (values : List Nat) :
    (completeDone s esize p values).inReset = s.inReset := rfl
@[simp] theorem completeDone_owned (s : State) (esize p : Nat) (values : List Nat) :
    (completeDone s esize p values).owned = s.owned := rfl
@[simp] theorem completeDone_platform (s : State) (esize p : Nat) (values : List Nat) :
    (completeDone s esize p values).platform = s.platform := rfl
@[simp] theorem completeDone_draws (s : State) (esize p : Nat) (values : List Nat) :
    (completeDone s esize p values).draws = s.draws := rfl
@[simp] theorem completeDone_inputs (s : State) (esize p : Nat) (values : List Nat) :
    (completeDone s esize p values).inputs = s.inputs := rfl
@[simp] theorem completeDone_hostReg (s : State) (esize p : Nat) (values : List Nat) :
    (completeDone s esize p values).hostReg = s.hostReg := rfl
@[simp] theorem completeDone_hostBytes (s : State) (esize p : Nat) (values : List Nat) :
    (completeDone s esize p values).hostBytes = s.hostBytes := rfl

/-! ### `takeFault` -/

@[simp] theorem takeFault_id (s : State) (f : FaultCode) (pos : Word) : (takeFault s f pos).id = s.id := rfl
@[simp] theorem takeFault_irqEn (s : State) (f : FaultCode) (pos : Word) : (takeFault s f pos).irqEn = s.irqEn := rfl
@[simp] theorem takeFault_state (s : State) (f : FaultCode) (pos : Word) : (takeFault s f pos).state = .error := rfl
@[simp] theorem takeFault_fault (s : State) (f : FaultCode) (pos : Word) : (takeFault s f pos).fault = f := rfl
@[simp] theorem takeFault_irqPending (s : State) (f : FaultCode) (pos : Word) :
    (takeFault s f pos).irqPending = true := rfl
@[simp] theorem takeFault_wrIgnored (s : State) (f : FaultCode) (pos : Word) :
    (takeFault s f pos).wrIgnored = s.wrIgnored := rfl
@[simp] theorem takeFault_cmd (s : State) (f : FaultCode) (pos : Word) : (takeFault s f pos).cmd = s.cmd := rfl
@[simp] theorem takeFault_inBase (s : State) (f : FaultCode) (pos : Word) :
    (takeFault s f pos).inBase = s.inBase := rfl
@[simp] theorem takeFault_inLen (s : State) (f : FaultCode) (pos : Word) : (takeFault s f pos).inLen = s.inLen := rfl
@[simp] theorem takeFault_cursor (s : State) (f : FaultCode) (pos : Word) :
    (takeFault s f pos).cursor = s.cursor := rfl
@[simp] theorem takeFault_outBase (s : State) (f : FaultCode) (pos : Word) :
    (takeFault s f pos).outBase = s.outBase := rfl
@[simp] theorem takeFault_outCap (s : State) (f : FaultCode) (pos : Word) :
    (takeFault s f pos).outCap = s.outCap := rfl
@[simp] theorem takeFault_arg0 (s : State) (f : FaultCode) (pos : Word) : (takeFault s f pos).arg0 = s.arg0 := rfl
@[simp] theorem takeFault_outCount (s : State) (f : FaultCode) (pos : Word) : (takeFault s f pos).outCount = 0 := rfl
@[simp] theorem takeFault_faultPos (s : State) (f : FaultCode) (pos : Word) :
    (takeFault s f pos).faultPos = pos := rfl
@[simp] theorem takeFault_mem (s : State) (f : FaultCode) (pos : Word) : (takeFault s f pos).mem = s.mem := rfl
@[simp] theorem takeFault_inReset (s : State) (f : FaultCode) (pos : Word) :
    (takeFault s f pos).inReset = s.inReset := rfl
@[simp] theorem takeFault_owned (s : State) (f : FaultCode) (pos : Word) : (takeFault s f pos).owned = s.owned := rfl
@[simp] theorem takeFault_platform (s : State) (f : FaultCode) (pos : Word) :
    (takeFault s f pos).platform = s.platform := rfl
@[simp] theorem takeFault_draws (s : State) (f : FaultCode) (pos : Word) : (takeFault s f pos).draws = s.draws := rfl
@[simp] theorem takeFault_inputs (s : State) (f : FaultCode) (pos : Word) :
    (takeFault s f pos).inputs = s.inputs := rfl
@[simp] theorem takeFault_hostReg (s : State) (f : FaultCode) (pos : Word) :
    (takeFault s f pos).hostReg = s.hostReg := rfl
@[simp] theorem takeFault_hostBytes (s : State) (f : FaultCode) (pos : Word) :
    (takeFault s f pos).hostBytes = s.hostBytes := rfl

/-! ### `freeOutput` -/

@[simp] theorem freeOutput_id (s : State) (esize : Nat) : (freeOutput s esize).id = s.id := rfl
@[simp] theorem freeOutput_irqEn (s : State) (esize : Nat) : (freeOutput s esize).irqEn = s.irqEn := rfl
@[simp] theorem freeOutput_state (s : State) (esize : Nat) : (freeOutput s esize).state = s.state := rfl
@[simp] theorem freeOutput_fault (s : State) (esize : Nat) : (freeOutput s esize).fault = s.fault := rfl
@[simp] theorem freeOutput_irqPending (s : State) (esize : Nat) :
    (freeOutput s esize).irqPending = s.irqPending := rfl
@[simp] theorem freeOutput_wrIgnored (s : State) (esize : Nat) : (freeOutput s esize).wrIgnored = s.wrIgnored := rfl
@[simp] theorem freeOutput_cmd (s : State) (esize : Nat) : (freeOutput s esize).cmd = s.cmd := rfl
@[simp] theorem freeOutput_inBase (s : State) (esize : Nat) : (freeOutput s esize).inBase = s.inBase := rfl
@[simp] theorem freeOutput_inLen (s : State) (esize : Nat) : (freeOutput s esize).inLen = s.inLen := rfl
@[simp] theorem freeOutput_cursor (s : State) (esize : Nat) : (freeOutput s esize).cursor = s.cursor := rfl
@[simp] theorem freeOutput_outBase (s : State) (esize : Nat) : (freeOutput s esize).outBase = s.outBase := rfl
@[simp] theorem freeOutput_outCap (s : State) (esize : Nat) : (freeOutput s esize).outCap = s.outCap := rfl
@[simp] theorem freeOutput_arg0 (s : State) (esize : Nat) : (freeOutput s esize).arg0 = s.arg0 := rfl
@[simp] theorem freeOutput_outCount (s : State) (esize : Nat) : (freeOutput s esize).outCount = s.outCount := rfl
@[simp] theorem freeOutput_faultPos (s : State) (esize : Nat) : (freeOutput s esize).faultPos = s.faultPos := rfl
@[simp] theorem freeOutput_mem (s : State) (esize : Nat) :
    (freeOutput s esize).mem = s.mem.makeFree s.outBase.toNat
      (min (s.outCap.toNat * esize) (2 ^ 64 - s.outBase.toNat)) s.draws := rfl
@[simp] theorem freeOutput_inReset (s : State) (esize : Nat) : (freeOutput s esize).inReset = s.inReset := rfl
@[simp] theorem freeOutput_owned (s : State) (esize : Nat) : (freeOutput s esize).owned = s.owned := rfl
@[simp] theorem freeOutput_platform (s : State) (esize : Nat) : (freeOutput s esize).platform = s.platform := rfl
@[simp] theorem freeOutput_draws (s : State) (esize : Nat) : (freeOutput s esize).draws = s.draws + 1 := rfl
@[simp] theorem freeOutput_inputs (s : State) (esize : Nat) : (freeOutput s esize).inputs = s.inputs := rfl
@[simp] theorem freeOutput_hostReg (s : State) (esize : Nat) : (freeOutput s esize).hostReg = s.hostReg := rfl
@[simp] theorem freeOutput_hostBytes (s : State) (esize : Nat) : (freeOutput s esize).hostBytes = s.hostBytes := rfl

/-! ### `startCommand` -/

@[simp] theorem startCommand_id (s : State) : (startCommand s).id = s.id := rfl
@[simp] theorem startCommand_irqEn (s : State) : (startCommand s).irqEn = s.irqEn := rfl
@[simp] theorem startCommand_state (s : State) : (startCommand s).state = .busy := rfl
@[simp] theorem startCommand_fault (s : State) : (startCommand s).fault = .none := rfl
@[simp] theorem startCommand_irqPending (s : State) : (startCommand s).irqPending = s.irqPending := rfl
@[simp] theorem startCommand_wrIgnored (s : State) : (startCommand s).wrIgnored = s.wrIgnored := rfl
@[simp] theorem startCommand_cmd (s : State) : (startCommand s).cmd = s.cmd := rfl
@[simp] theorem startCommand_inBase (s : State) : (startCommand s).inBase = s.inBase := rfl
@[simp] theorem startCommand_inLen (s : State) : (startCommand s).inLen = s.inLen := rfl
@[simp] theorem startCommand_cursor (s : State) : (startCommand s).cursor = s.cursor := rfl
@[simp] theorem startCommand_outBase (s : State) : (startCommand s).outBase = s.outBase := rfl
@[simp] theorem startCommand_outCap (s : State) : (startCommand s).outCap = s.outCap := rfl
@[simp] theorem startCommand_arg0 (s : State) : (startCommand s).arg0 = s.arg0 := rfl
@[simp] theorem startCommand_outCount (s : State) : (startCommand s).outCount = 0 := rfl
@[simp] theorem startCommand_faultPos (s : State) : (startCommand s).faultPos = 0 := rfl
@[simp] theorem startCommand_mem (s : State) : (startCommand s).mem = s.mem := rfl
@[simp] theorem startCommand_inReset (s : State) : (startCommand s).inReset = s.inReset := rfl
@[simp] theorem startCommand_owned (s : State) : (startCommand s).owned = ownedWindow s :: s.owned := rfl
@[simp] theorem startCommand_platform (s : State) : (startCommand s).platform = s.platform := rfl
@[simp] theorem startCommand_draws (s : State) : (startCommand s).draws = s.draws := rfl
@[simp] theorem startCommand_inputs (s : State) : (startCommand s).inputs = s.inputs := rfl
@[simp] theorem startCommand_hostReg (s : State) : (startCommand s).hostReg = s.hostReg := rfl
@[simp] theorem startCommand_hostBytes (s : State) : (startCommand s).hostBytes = s.hostBytes := rfl

/-! ### `clearRegisters` -/

@[simp] theorem clearRegisters_id (s : State) : (clearRegisters s).id = s.id := rfl
@[simp] theorem clearRegisters_irqEn (s : State) : (clearRegisters s).irqEn = false := rfl
@[simp] theorem clearRegisters_state (s : State) : (clearRegisters s).state = .idle := rfl
@[simp] theorem clearRegisters_fault (s : State) : (clearRegisters s).fault = .none := rfl
@[simp] theorem clearRegisters_irqPending (s : State) : (clearRegisters s).irqPending = false := rfl
@[simp] theorem clearRegisters_wrIgnored (s : State) : (clearRegisters s).wrIgnored = false := rfl
@[simp] theorem clearRegisters_cmd (s : State) : (clearRegisters s).cmd = 0 := rfl
@[simp] theorem clearRegisters_inBase (s : State) : (clearRegisters s).inBase = 0 := rfl
@[simp] theorem clearRegisters_inLen (s : State) : (clearRegisters s).inLen = 0 := rfl
@[simp] theorem clearRegisters_cursor (s : State) : (clearRegisters s).cursor = 0 := rfl
@[simp] theorem clearRegisters_outBase (s : State) : (clearRegisters s).outBase = 0 := rfl
@[simp] theorem clearRegisters_outCap (s : State) : (clearRegisters s).outCap = 0 := rfl
@[simp] theorem clearRegisters_arg0 (s : State) : (clearRegisters s).arg0 = 0 := rfl
@[simp] theorem clearRegisters_outCount (s : State) : (clearRegisters s).outCount = 0 := rfl
@[simp] theorem clearRegisters_faultPos (s : State) : (clearRegisters s).faultPos = 0 := rfl
@[simp] theorem clearRegisters_mem (s : State) : (clearRegisters s).mem = s.mem := rfl
@[simp] theorem clearRegisters_inReset (s : State) : (clearRegisters s).inReset = s.inReset := rfl
@[simp] theorem clearRegisters_owned (s : State) : (clearRegisters s).owned = [] := rfl
@[simp] theorem clearRegisters_platform (s : State) : (clearRegisters s).platform = s.platform := rfl
@[simp] theorem clearRegisters_draws (s : State) : (clearRegisters s).draws = s.draws := rfl
@[simp] theorem clearRegisters_inputs (s : State) : (clearRegisters s).inputs = s.inputs := rfl
@[simp] theorem clearRegisters_hostReg (s : State) : (clearRegisters s).hostReg = s.hostReg := rfl
@[simp] theorem clearRegisters_hostBytes (s : State) : (clearRegisters s).hostBytes = s.hostBytes := rfl

/-! ### `writeStatus` -/

@[simp] theorem writeStatus_id (w : Word) (s : State) : (writeStatus w s).id = s.id := rfl
@[simp] theorem writeStatus_irqEn (w : Word) (s : State) : (writeStatus w s).irqEn = s.irqEn := rfl
@[simp] theorem writeStatus_state (w : Word) (s : State) : (writeStatus w s).state = s.state := rfl
@[simp] theorem writeStatus_fault (w : Word) (s : State) : (writeStatus w s).fault = s.fault := rfl
@[simp] theorem writeStatus_irqPending (w : Word) (s : State) :
    (writeStatus w s).irqPending = (s.irqPending && !w.getLsbD 16) := rfl
@[simp] theorem writeStatus_wrIgnored (w : Word) (s : State) :
    (writeStatus w s).wrIgnored = (s.wrIgnored && !w.getLsbD 17) := rfl
@[simp] theorem writeStatus_cmd (w : Word) (s : State) : (writeStatus w s).cmd = s.cmd := rfl
@[simp] theorem writeStatus_inBase (w : Word) (s : State) : (writeStatus w s).inBase = s.inBase := rfl
@[simp] theorem writeStatus_inLen (w : Word) (s : State) : (writeStatus w s).inLen = s.inLen := rfl
@[simp] theorem writeStatus_cursor (w : Word) (s : State) : (writeStatus w s).cursor = s.cursor := rfl
@[simp] theorem writeStatus_outBase (w : Word) (s : State) : (writeStatus w s).outBase = s.outBase := rfl
@[simp] theorem writeStatus_outCap (w : Word) (s : State) : (writeStatus w s).outCap = s.outCap := rfl
@[simp] theorem writeStatus_arg0 (w : Word) (s : State) : (writeStatus w s).arg0 = s.arg0 := rfl
@[simp] theorem writeStatus_outCount (w : Word) (s : State) : (writeStatus w s).outCount = s.outCount := rfl
@[simp] theorem writeStatus_faultPos (w : Word) (s : State) : (writeStatus w s).faultPos = s.faultPos := rfl
@[simp] theorem writeStatus_mem (w : Word) (s : State) : (writeStatus w s).mem = s.mem := rfl
@[simp] theorem writeStatus_inReset (w : Word) (s : State) : (writeStatus w s).inReset = s.inReset := rfl
@[simp] theorem writeStatus_owned (w : Word) (s : State) : (writeStatus w s).owned = s.owned := rfl
@[simp] theorem writeStatus_platform (w : Word) (s : State) : (writeStatus w s).platform = s.platform := rfl
@[simp] theorem writeStatus_draws (w : Word) (s : State) : (writeStatus w s).draws = s.draws := rfl
@[simp] theorem writeStatus_inputs (w : Word) (s : State) : (writeStatus w s).inputs = s.inputs := rfl
@[simp] theorem writeStatus_hostReg (w : Word) (s : State) : (writeStatus w s).hostReg = s.hostReg := rfl
@[simp] theorem writeStatus_hostBytes (w : Word) (s : State) : (writeStatus w s).hostBytes = s.hostBytes := rfl

end Sys2Proof.Machine
end

