-- ==== Sys2Proof/Laws/Command.lean ====
section
/-! SUPPORT. The laws of a command as a whole: what its checks say, what an undisturbed run gives, and everything the
completion step can do (40_command_execution.md R133, R141; 20_memory.md R66; 60_exceptions.md R290). -/

namespace Sys2Proof.Machine

open Sys2Proof.Safety

/-! ### The checks -/

theorem elementSize_eq (i : Instr) : elementSize i = 4 ∨ elementSize i = 8 := by
  cases i <;> first | exact Or.inl rfl | exact Or.inr rfl

theorem elementSize_pos (i : Instr) : 0 < elementSize i := by
  rcases elementSize_eq i with h | h <;> omega

/-- The region checks pass exactly when the operands are as 40_command_execution.md R133 asks (checks 6 to 10). -/
theorem checkRegions_iff (esize : Nat) (s : State) : checkRegions esize s = true ↔ OperandsOk esize s := by
  unfold checkRegions inputWindow outputRegion
  simp only [Bool.and_eq_true, Bool.not_eq_true', Bool.and_eq_false_iff, decide_eq_true_eq,
    decide_eq_false_iff_not]
  constructor
  · rintro ⟨⟨⟨⟨h1, h2⟩, h3⟩, h4⟩, h5⟩
    exact ⟨h1, h2, h3, h4, by omega⟩
  · rintro ⟨h1, h2, h3, h4, h5⟩
    exact ⟨⟨⟨⟨h1, h2⟩, h3⟩, h4⟩, by omega⟩

/-- All checks pass exactly when the width is legal, an `RLE` header is even, and the operands are in order. -/
theorem operandsLegal_iff (i : Instr) (s : State) : operandsLegal i s = true ↔
    i.wellFormed = true ∧ checkRleHeader i s = true ∧ OperandsOk (elementSize i) s := by
  unfold operandsLegal checkWidth
  rw [Bool.and_eq_true, Bool.and_eq_true, checkRegions_iff, and_assoc]

/-! ### The platform -/

theorem not_meets_of_apart {r q : AddrRange} (h : ∀ a, r.lo ≤ a → a < r.hi → ¬(q.lo ≤ a ∧ a < q.hi)) :
    r.meets q = false := by
  unfold AddrRange.meets
  by_contra hc
  simp only [Bool.not_eq_false, Bool.and_eq_true, decide_eq_true_eq] at hc
  have := h (max r.lo q.lo) (by omega) (by omega)
  omega

theorem touchesSideEffects_of_quiet {i : Instr} {s : State} (h : PlatformQuiet (elementSize i) s) :
    touchesSideEffects i s = false := by
  unfold touchesSideEffects
  rw [List.any_eq_false]
  intro r hr
  rw [Bool.or_eq_true, not_or, Bool.not_eq_true, Bool.not_eq_true]
  exact ⟨not_meets_of_apart fun a h1 h2 => (h.noSideEffect r hr a h1 h2).1,
    not_meets_of_apart fun a h1 h2 => (h.noSideEffect r hr a h1 h2).2⟩

/-- The refusal of a command reads `CMD`, the operand registers and the platform, and nothing else. -/
theorem commandRefusal_congr {s t : State} (hcmd : t.cmd = s.cmd) (hbase : t.inBase = s.inBase)
    (hlen : t.inLen = s.inLen) (hcursor : t.cursor = s.cursor) (hout : t.outBase = s.outBase)
    (hcap : t.outCap = s.outCap) (harg : t.arg0 = s.arg0) (hplatform : t.platform = s.platform) :
    commandRefusal t = commandRefusal s := by
  unfold commandRefusal operandsLegal checkRleHeader checkRegions touchesSideEffects outputRegion inputWindow
  rw [hcmd, hbase, hlen, hcursor, hout, hcap, harg, hplatform]

/-- A command the model does not refuse, on a coherent platform, completes when its word spells it. -/
theorem exec_next_of_commandRefusal {s : State} {i : Instr} (h : commandRefusal s = none) (hd : decode s.cmd = .ok i) :
    s.platform.coherent = true ∧ ∃ t, exec i s = .next t := by
  unfold commandRefusal at h
  rw [hd] at h
  cases hc : s.platform.coherent with
  | false => rw [hc] at h; cases h
  | true =>
    rw [hc] at h
    refine ⟨rfl, ?_⟩
    rw [exec_eq_runCommand]
    unfold runCommand
    cases hl : operandsLegal i s with
    | false => exact ⟨_, rfl⟩
    | true =>
      cases ht : touchesSideEffects i s with
      | false => exact ⟨_, rfl⟩
      | true => simp [hl, ht] at h

theorem meetsBusError_of_apart {s : State} {k : Access} {q : AddrRange}
    (h : ∀ b ∈ s.platform.busErr, b.kind = k → ∀ a, b.range.lo ≤ a → a < b.range.hi → ¬(q.lo ≤ a ∧ a < q.hi)) :
    meetsBusError s k q = false := by
  unfold meetsBusError
  rw [List.any_eq_false]
  intro b hb
  rw [Bool.and_eq_true, not_and, Bool.not_eq_true, decide_eq_true_eq]
  intro hk
  exact not_meets_of_apart (h b hb hk)

/-- On a quiet platform no access of the command meets a bus error, whatever the engine prefetches. -/
theorem commandMeetsBusError_of_quiet {esize : Nat} {s : State} {c : Ctx} (h : PlatformQuiet esize s)
    (hp : c.p ≤ s.inLen.toNat) (hn : c.n ≤ s.outCap.toNat) : commandMeetsBusError esize s c = false := by
  have hmul : c.n * esize ≤ s.outCap.toNat * esize := Nat.mul_le_mul_right _ hn
  unfold commandMeetsBusError bodyMeetsBusError
  rw [meetsBusError_of_apart, meetsBusError_of_apart, meetsBusError_of_apart]
  · rfl
  · exact fun b hb hk a h1 h2 => h.noReadError b hb hk a h1 h2
  · intro b hb hk a h1 h2 hc
    exact h.noWriteError b hb hk a h1 h2 ⟨hc.1, by have := hc.2; simp only at this; omega⟩
  · intro b hb hk a h1 h2 hc
    exact h.noReadError b hb hk a h1 h2 ⟨hc.1, by have := hc.2; simp only at this; omega⟩

/-! ### Everything the completion step can do -/

theorem startContext_extends {s : State} {esize : Nat} (h : OperandsOk esize s) :
    (startContext (captureOperands s)).p ≤ (captureOperands s).inLen
      ∧ (startContext (captureOperands s)).n ≤ (captureOperands s).outCap :=
  ⟨h.cursorInWindow, Nat.zero_le _⟩

/-- A body started on operands that pass the checks ends, by success or at its raise, within the window and the
capacity, and raises only a body's faults. -/
theorem orderly_body (i : Instr) {s : State} (h : OperandsOk (elementSize i) s) :
    Orderly (captureOperands s) s.inLen.toNat (startContext (captureOperands s))
      (bodyOf i (captureOperands s) (startContext (captureOperands s))) :=
  orderly_bodyOf i (startContext_extends h).1 (startContext_extends h).2

/-- The ways a command can end in a next state: turned away by a check; completed without fault by a body that
succeeded; or completed with a fault of its body or of the bus. Every fault leaves the output region free. -/
inductive CommandEnd (i : Instr) (s t : State) : Prop where
  | turnedAway (hcheck : operandsLegal i s = false) (ht : t = turnAway s (elementSize i) .badArg)
  | completed (c : Ctx) (hcheck : operandsLegal i s = true)
      (hbody : bodyOf i (captureOperands s) (startContext (captureOperands s)) = .ok () c)
      (hp : s.cursor.toNat ≤ c.p) (hlim : c.p ≤ s.inLen.toNat) (hn : c.n ≤ s.outCap.toNat)
      (ht : t = { completeDone s (elementSize i) c.p c.out with draws := s.draws + 1 })
  | faulted (f : FaultCode) (pos : Word) (hcheck : operandsLegal i s = true) (hf : f ≠ .none)
      (ht : t = takeFault (freeOutput s (elementSize i)) f pos)

theorem ne_none_of_ofBody {f : FaultCode} (h : f.ofBody = true) : f ≠ .none := by
  rintro rfl; cases h

/-- Everything `exec` can do when it answers a next state. -/
theorem exec_cases {i : Instr} {s t : State} (h : exec i s = .next t) : CommandEnd i s t := by
  rw [exec_eq_runCommand] at h
  unfold runCommand at h
  cases hc : operandsLegal i s with
  | false =>
    rw [hc] at h
    cases h
    exact .turnedAway hc rfl
  | true =>
    rw [hc] at h
    simp only [Bool.not_true, Bool.false_eq_true, if_false] at h
    split at h
    · cases h
    · have hok := ((operandsLegal_iff i s).mp hc).2.2
      have ho := orderly_body i hok
      injection h with h
      subst h
      generalize hr : bodyOf i (captureOperands s) (startContext (captureOperands s)) = r at ho
      unfold completeBody
      cases r with
      | ok u c =>
        have e : Ctx.Extends _ _ _ c := ho.extends_
        split
        · exact .faulted _ _ hc (by unfold busErrorCode; exact FaultCode.noConfusion) rfl
        · exact .completed c hc hr e.forward e.inLimit e.fits rfl
      | raised f c =>
        have hf := ne_none_of_ofBody (ho.fault f c rfl)
        split
        · refine .faulted _ _ hc ?_ rfl
          unfold busErrorCode
          dsimp only
          split
          · exact hf
          · exact FaultCode.noConfusion
        · exact .faulted _ _ hc hf rfl

/-! ### Undisturbed runs -/

/-- A command whose checks pass on a quiet platform and whose body succeeds completes without fault. -/
theorem exec_of_body_ok {i : Instr} {s : State} {c : Ctx} (hwf : i.wellFormed = true)
    (hrle : checkRleHeader i s = true) (h : Undisturbed (elementSize i) s)
    (hbody : bodyOf i (captureOperands s) (startContext (captureOperands s)) = .ok () c) :
    exec i s = .next { completeDone s (elementSize i) c.p c.out with draws := s.draws + 1 } := by
  have ho := orderly_body i h.operands
  rw [hbody] at ho
  have e : Ctx.Extends _ _ _ c := ho.extends_
  rw [exec_eq_runCommand]
  unfold runCommand
  rw [(operandsLegal_iff i s).mpr ⟨hwf, hrle, h.operands⟩, touchesSideEffects_of_quiet h.platform, hbody]
  simp only [Bool.not_true, Bool.false_eq_true, if_false]
  unfold completeBody finalContext
  dsimp only
  rw [commandMeetsBusError_of_quiet h.platform e.inLimit e.fits]
  rfl

/-- A command whose checks pass on a quiet platform and whose body raises completes with that fault. -/
theorem exec_of_body_raised {i : Instr} {s : State} {f : FaultCode} {c : Ctx} (hwf : i.wellFormed = true)
    (hrle : checkRleHeader i s = true) (h : Undisturbed (elementSize i) s)
    (hbody : bodyOf i (captureOperands s) (startContext (captureOperands s)) = .raised f c) :
    exec i s = .next (takeFault (freeOutput s (elementSize i)) f (BitVec.ofNat 64 c.p)) := by
  have ho := orderly_body i h.operands
  rw [hbody] at ho
  have e : Ctx.Extends _ _ _ c := ho.extends_
  rw [exec_eq_runCommand]
  unfold runCommand
  rw [(operandsLegal_iff i s).mpr ⟨hwf, hrle, h.operands⟩, touchesSideEffects_of_quiet h.platform, hbody]
  simp only [Bool.not_true, Bool.false_eq_true, if_false]
  unfold completeBody finalContext
  dsimp only
  rw [commandMeetsBusError_of_quiet h.platform e.inLimit e.fits]
  rfl

/-- What `completeDone` leaves is a completion with those elements, when they fit the output region. -/
theorem completedWith_completeDone {s : State} {esize p d : Nat} {values : List Nat} (hp : p < 2 ^ 64)
    (hn : values.length < 2 ^ 64) :
    CompletedWith s { completeDone s esize p values with draws := d } esize p values where
  state := rfl
  fault := rfl
  faultPos := rfl
  pending := rfl
  cursor := by
    show (BitVec.ofNat 64 p).toNat = p
    rw [BitVec.toNat_ofNat, Nat.mod_eq_of_lt hp]
  outCount := by
    show (BitVec.ofNat 64 values.length).toNat = values.length
    rw [BitVec.toNat_ofNat, Nat.mod_eq_of_lt hn]
  elements := by
    intro i hi
    show littleEndian ((s.mem.writeElements s.outBase.toNat esize values).readBytes _ esize) = _
    rw [Memory.readBytes_writeElements _ _ hi, littleEndian_bytesOf]
  elsewhere := by
    intro a ha
    exact Memory.read_writeElements_outside _ _ (by omega)
  kept := rfl

/-- What taking a fault after freeing the output region leaves. -/
theorem faultedWith_takeFault {s : State} {esize : Nat} {f : FaultCode} {p : Nat} (hp : p < 2 ^ 64) :
    FaultedWith s (takeFault (freeOutput s esize) f (BitVec.ofNat 64 p)) esize f p where
  state := rfl
  fault := rfl
  faultPos := by
    show (BitVec.ofNat 64 p).toNat = p
    rw [BitVec.toNat_ofNat, Nat.mod_eq_of_lt hp]
  pending := rfl
  outCount := rfl
  elsewhere := by
    intro a ha
    show (s.mem.makeFree _ _ _).read a = s.mem.read a
    rw [Memory.read_makeFree, if_neg (by dsimp only [freeOutputRegion]; omega)]
  kept := rfl

/-- What turning a command away leaves: a fault at `CURSOR`. -/
theorem faultedWith_turnAway (s : State) (esize : Nat) (f : FaultCode) :
    FaultedWith s (turnAway s esize f) esize f s.cursor.toNat := by
  have h := faultedWith_takeFault (s := s) (esize := esize) (f := f) s.cursor.isLt
  rwa [BitVec.ofNat_toNat, BitVec.setWidth_eq] at h

/-- A command a check turns away completes with BAD_ARG at `CURSOR`. -/
theorem exec_turnedAway {i : Instr} {s : State} (h : operandsLegal i s = false) :
    exec i s = .next (turnAway s (elementSize i) .badArg) := by
  rw [exec_eq_runCommand]
  unfold runCommand
  rw [h]
  rfl

/-- An undisturbed command whose body succeeds completes DONE with the body's final position and elements. -/
theorem exec_completes (i : Instr) {s : State} {c : Ctx} {esize : Nat} (he : elementSize i = esize)
    (hwf : i.wellFormed = true) (hrle : checkRleHeader i s = true) (h : Undisturbed esize s)
    (hbody : bodyOf i (captureOperands s) (startContext (captureOperands s)) = .ok () c) :
    ∃ t, exec i s = .next t ∧ CompletedWith s t esize c.p c.out := by
  subst he
  have ho := orderly_body i h.operands
  rw [hbody] at ho
  have e : Ctx.Extends _ _ _ c := ho.extends_
  exact ⟨_, exec_of_body_ok hwf hrle h hbody,
    completedWith_completeDone (lt_of_le_of_lt e.inLimit s.inLen.isLt) (lt_of_le_of_lt e.fits s.outCap.isLt)⟩

/-- An undisturbed command whose body raises completes ERROR with that fault at the position of the raise. -/
theorem exec_faults (i : Instr) {s : State} {c : Ctx} {f : FaultCode} {esize : Nat} (he : elementSize i = esize)
    (hwf : i.wellFormed = true) (hrle : checkRleHeader i s = true) (h : Undisturbed esize s)
    (hbody : bodyOf i (captureOperands s) (startContext (captureOperands s)) = .raised f c) :
    ∃ t, exec i s = .next t ∧ FaultedWith s t esize f c.p := by
  subst he
  have ho := orderly_body i h.operands
  rw [hbody] at ho
  have e : Ctx.Extends _ _ _ c := ho.extends_
  exact ⟨_, exec_of_body_raised hwf hrle h hbody, faultedWith_takeFault (lt_of_le_of_lt e.inLimit s.inLen.isLt)⟩

end Sys2Proof.Machine
end

