-- ==== Sys2Proof/Laws/Formats.lean ====
section
/-! SUPPORT. The stream primitives on bytes laid out as the spec says: where the bytes are a varint, a bit-packed run, a
row of hybrid runs or a row of delta blocks, the primitive gives their values and consumes exactly them
(30_encoding.md R100 to R105). -/

namespace Sys2Proof.Machine

open Sys2Proof.Safety

/-- The bytes stand at offset `q` of the input window. -/
def HeldAt (o : Operands) (q : Nat) (bytes : List Byte) : Prop :=
  o.mem.readBytes (o.inBase + q) bytes.length = bytes

theorem heldAt_append {o : Operands} {q : Nat} {xs ys : List Byte} :
    HeldAt o q (xs ++ ys) ↔ HeldAt o q xs ∧ HeldAt o (q + xs.length) ys := by
  unfold HeldAt
  rw [List.length_append, Memory.readBytes_append, ← Nat.add_assoc]
  constructor
  · intro h
    exact List.append_inj h (by simp)
  · rintro ⟨h1, h2⟩
    rw [h1, h2]

theorem heldAt_cons {o : Operands} {q : Nat} {x : Byte} {xs : List Byte} :
    HeldAt o q (x :: xs) ↔ o.mem.read (o.inBase + q) = x ∧ HeldAt o (q + 1) xs := by
  unfold HeldAt
  rw [List.length_cons, Memory.readBytes, List.cons.injEq, Nat.add_assoc]

/-! ### Varints -/

theorem varintFrom_of_bytes {o : Operands} {l : Nat} (left shift result : Nat) (init : List Byte) (last : Byte)
    {c : Ctx} (hheld : HeldAt o c.p (init ++ [last])) (hfits : c.p + init.length + 1 ≤ l)
    (hinit : ∀ b ∈ init, 0x80 ≤ b.toNat) (hlast : last.toNat < 0x80) (hlen : init.length ≤ left)
    (htenth : init.length = left → last.toNat < 0x02) :
    varintFrom o l left shift result c =
      .ok (result + groupsValue (init ++ [last]) * 2 ^ shift) { c with p := c.p + init.length + 1 } := by
  induction left generalizing shift result init c with
  | zero =>
    obtain rfl : init = [] := List.length_eq_zero_iff.mp (by omega)
    have hb := (heldAt_cons.mp hheld).1
    have h2 := htenth rfl
    unfold varintFrom
    rw [andThen_ok (readByte_ok o (by simp at hfits; omega)), hb]
    rw [if_neg (by omega)]
    simp [groupsValue]
  | succ left ih =>
    unfold varintFrom
    cases init with
    | nil =>
      have hb := (heldAt_cons.mp hheld).1
      rw [andThen_ok (readByte_ok o (by simp at hfits; omega)), hb, if_pos hlast]
      simp [groupsValue]
    | cons b init =>
      obtain ⟨hb, hrest⟩ := heldAt_cons.mp hheld
      have hb80 := hinit b (by simp)
      simp only [List.length_cons] at hfits hlen htenth
      rw [andThen_ok (readByte_ok o (by omega)), hb, if_neg (by omega)]
      rw [ih (shift + 7) _ init (c := { c with p := c.p + 1 }) hrest (by show c.p + 1 + init.length + 1 ≤ l; omega)
        (fun x hx => hinit x (by simp [hx])) (by omega) (fun h => htenth (by omega))]
      simp only [List.cons_append, groupsValue, List.length_cons]
      congr 1
      · rw [Nat.pow_add]; ring
      · congr 1; omega

/-- Bytes that are a varint decode to its value, and exactly they are consumed (41_varint.md R160). -/
theorem varint_of_isVarint {o : Operands} {l v : Nat} {bytes : List Byte} {c : Ctx} (hv : IsVarint bytes v)
    (hheld : HeldAt o c.p bytes) (hfits : c.p + bytes.length ≤ l) :
    varint o l c = .ok v { c with p := c.p + bytes.length } := by
  obtain ⟨⟨init, last, rfl, hinit, hlast⟩, hten, htenth, rfl⟩ := hv
  rw [List.length_append, List.length_singleton] at hten hfits htenth
  unfold varint
  rw [varintFrom_of_bytes 9 0 0 init last hheld (by omega) hinit hlast (by omega)]
  · simp [Nat.add_assoc]
  · intro h
    have := htenth (by omega)
    rwa [List.getD_append_right _ _ _ _ (by omega), h] at this

theorem isVarint_length_pos {bytes : List Byte} {v : Nat} (h : IsVarint bytes v) : 0 < bytes.length := by
  obtain ⟨⟨init, last, rfl, -, -⟩, -, -, -⟩ := h
  simp

theorem varints_of_laid {o : Operands} (vs : List Nat) {bytes : List Byte} {c : Ctx} (hlaid : VarintsLaid vs bytes)
    (hheld : HeldAt o c.p bytes) (hfits : c.p + bytes.length ≤ o.inLen) :
    varints o vs.length c = .ok () { p := c.p + bytes.length, out := c.out ++ vs } := by
  induction vs generalizing bytes c with
  | nil => obtain rfl := hlaid; simp [varints]
  | cons v vs ih =>
    obtain ⟨first, rest, rfl, hv, hrest⟩ := hlaid
    obtain ⟨h1, h2⟩ := heldAt_append.mp hheld
    rw [List.length_append] at hfits
    rw [List.length_cons, varints, andThen_ok (varint_of_isVarint hv h1 (by omega)), andThen_ok (emit_apply _ _),
      ih hrest h2 (by show c.p + first.length + rest.length ≤ o.inLen; omega)]
    simp [Nat.add_assoc]

/-! ### Bit-packed runs -/

theorem unpack_of_isPacked {bw : Nat} {values : List Nat} {bytes : List Byte} (h : IsPacked bw values bytes)
    (count : Nat) : unpack (littleEndian bytes) bw (min values.length count) = values.take count := by
  apply List.ext_getElem (by simp [Nat.min_comm])
  intro j h1 h2
  have hj : j < min values.length count := by simpa using h1
  have hjv : j < values.length := by omega
  have e1 := getD_unpack (littleEndian bytes) bw (min values.length count) j hj
  rw [List.getD_eq_getElem _ _ (by simpa using hj)] at e1
  rw [e1, List.getElem_take]
  apply Nat.eq_of_testBit_eq
  intro i
  rw [Nat.testBit_mod_two_pow]
  by_cases hi : i < bw
  · have hb := h.bits j hjv i hi
    rw [List.getD_eq_getElem _ _ hjv] at hb
    rw [Nat.testBit_shiftRight, testBit_littleEndian, hb]
    simp [hi]
  · have hlt := h.fits _ (List.getElem_mem hjv)
    have : values[j] < 2 ^ i := lt_of_lt_of_le hlt (Nat.pow_le_pow_right (by omega) (by omega))
    rw [Nat.testBit_lt_two_pow this]
    simp [hi]

theorem unpack_all_of_isPacked {bw : Nat} {values : List Nat} {bytes : List Byte} (h : IsPacked bw values bytes) :
    unpack (littleEndian bytes) bw values.length = values := by
  have := unpack_of_isPacked h values.length
  rwa [Nat.min_self, List.take_length] at this

/-- Bytes that are a bit-packed run of `ng` groups unpack to its first values, and exactly they are consumed
(42_bitpack_rle.md R180). -/
theorem bitUnpackFirst_of_isPacked {o : Operands} {ng bw count l : Nat} {values : List Nat} {bytes : List Byte}
    {c : Ctx} (h : IsPacked bw values bytes) (hcount : values.length = ng * 8) (hheld : HeldAt o c.p bytes)
    (hfits : c.p + bytes.length ≤ l) :
    bitUnpackFirst o ng bw (min values.length count) l c =
      .ok (values.take count) { c with p := c.p + bytes.length } := by
  have hlen : ng * bw = bytes.length := by
    have := h.size
    rw [hcount] at this
    have : 8 * (ng * bw) = 8 * bytes.length := by rw [Nat.mul_comm 8 bytes.length, this]; ring
    omega
  rw [bitUnpackFirst_ok o (by omega), hlen, hheld, unpack_of_isPacked h]

/-! ### Hybrid regions -/

theorem hybridRun_of_laid {o : Operands} {bw stop : Nat} {run : HybridRun} {bytes : List Byte} {c : Ctx}
    (hlaid : run.Laid bw bytes) (hheld : HeldAt o c.p bytes) (hfits : c.p + bytes.length ≤ stop)
    (hcap : c.n + run.values.length ≤ o.outCap) :
    hybridRun o bw stop c = .ok () { p := c.p + bytes.length, out := c.out ++ run.values } := by
  unfold hybridRun
  cases run with
  | rle count body =>
    obtain ⟨header, rfl, hv, hbody⟩ := hlaid
    obtain ⟨h1, h2⟩ := heldAt_append.mp hheld
    rw [List.length_append] at hfits
    simp only [HybridRun.values, List.length_replicate] at hcap
    rw [andThen_ok (varint_of_isVarint hv h1 (by omega)), if_pos (by omega)]
    have hhalf : 2 * count / 2 = count := by omega
    rw [rleRun_ok o (by rw [hhalf]; exact hcap) (by show c.p + header.length + _ ≤ stop; omega), hhalf, ← hbody]
    have h2' : o.mem.readBytes (o.inBase + (c.p + header.length)) body.length = body := h2
    simp only [h2', HybridRun.values, List.length_append, Nat.add_assoc]
  | packed vs =>
    obtain ⟨header, packed, groups, rfl, hv, hcount, hp⟩ := hlaid
    obtain ⟨h1, h2⟩ := heldAt_append.mp hheld
    rw [List.length_append] at hfits
    simp only [HybridRun.values] at hcap
    rw [andThen_ok (varint_of_isVarint hv h1 (by omega)), if_neg (by omega)]
    have hhalf : (2 * groups + 1) / 2 = groups := by omega
    rw [hhalf, andThen_ok (need_ok o (by show c.n + groups * 8 ≤ o.outCap; omega))]
    have hu := bitUnpackFirst_of_isPacked (o := o) (l := stop) (c := { c with p := c.p + header.length })
      (count := vs.length) hp hcount h2 (by show c.p + header.length + _ ≤ stop; omega)
    rw [Nat.min_self, List.take_length] at hu
    have hu' : bitUnpack o groups bw stop { c with p := c.p + header.length } =
        .ok vs { c with p := c.p + header.length + packed.length } := by
      unfold bitUnpack; rw [← hcount]; exact hu
    rw [andThen_ok hu']
    simp only [emit_apply, HybridRun.values, List.length_append, Nat.add_assoc]

theorem hybridRuns_of_laid {o : Operands} {bw stop : Nat} (runs : List HybridRun) (fuel : Nat) {bytes : List Byte}
    {c : Ctx} (hlaid : RunsLaid bw runs bytes) (hheld : HeldAt o c.p bytes) (hends : c.p + bytes.length = stop)
    (hfuel : bytes.length ≤ fuel) (hcap : c.n + (runs.flatMap HybridRun.values).length ≤ o.outCap) :
    hybridRuns o bw stop fuel c =
      .ok () { p := stop, out := c.out ++ runs.flatMap HybridRun.values } := by
  induction runs generalizing fuel bytes c with
  | nil =>
    obtain rfl := hlaid
    have hp : c.p = stop := by simpa using hends
    cases fuel with
    | zero => simp [hybridRuns, ← hp]
    | succ fuel =>
      rw [hybridRuns, andThen_ok (position_apply c), if_neg (by omega)]
      simp [← hp]
  | cons run runs ih =>
    obtain ⟨first, rest, rfl, hrun, hrest⟩ := hlaid
    obtain ⟨h1, h2⟩ := heldAt_append.mp hheld
    rw [List.length_append] at hends hfuel
    rw [List.flatMap_cons, List.length_append] at hcap
    have hpos : 0 < first.length := by
      cases run with
      | rle count body =>
        obtain ⟨header, rfl, hv, -⟩ := hrun
        have := isVarint_length_pos hv
        rw [List.length_append]; omega
      | packed vs =>
        obtain ⟨header, packed, groups, rfl, hv, -, -⟩ := hrun
        have := isVarint_length_pos hv
        rw [List.length_append]; omega
    cases fuel with
    | zero => omega
    | succ fuel =>
      rw [hybridRuns, andThen_ok (position_apply c), if_pos (by omega),
        andThen_ok (hybridRun_of_laid hrun h1 (by omega) (by omega))]
      rw [ih fuel hrest h2 (by show c.p + first.length + rest.length = stop; omega) (by omega)
        (by show (c.out ++ run.values).length + _ ≤ o.outCap
            rw [List.length_append]; unfold Ctx.n at hcap; omega)]
      simp [List.flatMap_cons]

/-! ### Delta blocks -/

/-- The running sums of some increments, from a start, each modulo 2^W (44_delta.md R239). -/
def runningSums (w : Nat) : (start : Nat) → List Nat → List Nat
  | _, [] => []
  | start, x :: xs => (start + x) % 2 ^ w :: runningSums w (start + x) xs

@[simp] theorem length_runningSums (w start : Nat) (xs : List Nat) : (runningSums w start xs).length = xs.length := by
  induction xs generalizing start with
  | nil => rfl
  | cons x xs ih => simp [runningSums, ih]

theorem runningSums_append (w start : Nat) (xs ys : List Nat) :
    runningSums w start (xs ++ ys) = runningSums w start xs ++ runningSums w (start + xs.sum) ys := by
  induction xs generalizing start with
  | nil => simp [runningSums]
  | cons x xs ih => simp [runningSums, ih, Nat.add_assoc]

theorem getD_runningSums (w start : Nat) (xs : List Nat) (k : Nat) (h : k < xs.length) :
    (runningSums w start xs).getD k 0 = (start + (xs.take (k + 1)).sum) % 2 ^ w := by
  induction xs generalizing start k with
  | nil => simp at h
  | cons x xs ih =>
    cases k with
    | zero => simp [runningSums]
    | succ k =>
      rw [runningSums, List.getD_cons_succ, ih _ _ (by simpa using h)]
      simp [Nat.add_assoc]

/-- The values of raw deltas are the running sums of the deltas plus the minimum delta (44_delta.md R235, R239). -/
theorem deltaValues_eq_runningSums (w minDelta start : Nat) (ds : List Nat) :
    deltaValues w minDelta (start % 2 ^ w) ds = runningSums w start (ds.map fun d => d + minDelta) := by
  induction ds generalizing start with
  | nil => rfl
  | cons d ds ih =>
    have h : (start % 2 ^ w + d + minDelta) % 2 ^ w = (start + (d + minDelta)) % 2 ^ w := by
      rw [Nat.add_assoc, Nat.mod_add_mod]
    rw [deltaValues, h, ih, List.map_cons, runningSums]

theorem getLastD_runningSums (w start : Nat) (xs : List Nat) :
    (runningSums w start xs).getLastD (start % 2 ^ w) = (start + xs.sum) % 2 ^ w := by
  induction xs generalizing start with
  | nil => simp [runningSums]
  | cons x xs ih =>
    rw [runningSums, List.getLastD_cons, ih]
    simp [Nat.add_assoc]

/-- What a mini-block adds to the values before it. -/
def miniIncrements (minDelta : Nat) (m : Byte × List Nat) : List Nat := m.2.map fun d => d + minDelta

theorem deltaMiniBlock_of_isPacked {o : Operands} {w minDelta start : Nat} {h : DeltaHeader} {m : Byte × List Nat}
    {bytes : List Byte} {c : Ctx} (hper : h.perMiniBlock % 8 = 0) (hcount : m.2.length = h.perMiniBlock)
    (hp : IsPacked m.1.toNat m.2 bytes) (hheld : HeldAt o c.p bytes) (hfits : c.p + bytes.length ≤ o.inLen) :
    deltaMiniBlock o w h minDelta (start % 2 ^ w) m.1.toNat c =
      .ok ((start + ((miniIncrements minDelta m).take (h.numValues - c.n)).sum) % 2 ^ w)
        { p := c.p + bytes.length
          out := c.out ++ runningSums w start ((miniIncrements minDelta m).take (h.numValues - c.n)) } := by
  unfold deltaMiniBlock
  have hu := bitUnpackFirst_of_isPacked (o := o) (ng := h.perMiniBlock / 8) (count := h.numValues - c.n)
    (l := o.inLen) hp (by omega) hheld hfits
  rw [hcount] at hu
  rw [andThen_ok (emitted_apply c), andThen_ok hu, andThen_ok (emit_apply _ _), give_apply,
    deltaValues_eq_runningSums, getLastD_runningSums]
  simp only [miniIncrements, List.map_take]

theorem deltaMiniBlocks_of_laid {o : Operands} {w minDelta : Nat} {h : DeltaHeader} (hper : h.perMiniBlock % 8 = 0)
    (ms : List (Byte × List Nat)) {start : Nat} {bytes : List Byte} {c : Ctx}
    (hlaid : MinisLaid w h.perMiniBlock ms bytes) (hheld : HeldAt o c.p bytes)
    (hfits : c.p + bytes.length ≤ o.inLen) :
    deltaMiniBlocks o w h minDelta (start % 2 ^ w) (ms.map Prod.fst) c =
      .ok ((start + ((ms.flatMap (miniIncrements minDelta)).take (h.numValues - c.n)).sum) % 2 ^ w)
        { p := c.p + bytes.length
          out := c.out ++ runningSums w start ((ms.flatMap (miniIncrements minDelta)).take (h.numValues - c.n)) } := by
  induction ms generalizing start bytes c with
  | nil =>
    obtain rfl := hlaid
    simp [deltaMiniBlocks, runningSums]
  | cons m ms ih =>
    obtain ⟨first, rest, rfl, -, hcount, hp, hrest⟩ := hlaid
    obtain ⟨h1, h2⟩ := heldAt_append.mp hheld
    rw [List.length_append] at hfits
    rw [List.map_cons, deltaMiniBlocks,
      andThen_ok (deltaMiniBlock_of_isPacked (start := start) hper hcount hp h1 (by omega)),
      ih hrest h2 (by show c.p + first.length + rest.length ≤ o.inLen; omega)]
    have hn : h.numValues - Ctx.n
        { p := c.p + first.length
          out := c.out ++ runningSums w start ((miniIncrements minDelta m).take (h.numValues - c.n)) }
        = h.numValues - c.n - (miniIncrements minDelta m).length := by
      unfold Ctx.n
      simp only [List.length_append, length_runningSums, List.length_take]
      omega
    rw [hn, List.flatMap_cons, List.take_append, runningSums_append]
    simp [Nat.add_assoc]

theorem length_miniIncrements_of_laid {w per minDelta : Nat} (ms : List (Byte × List Nat)) {bytes : List Byte}
    (hlaid : MinisLaid w per ms bytes) : (ms.flatMap (miniIncrements minDelta)).length = ms.length * per := by
  induction ms generalizing bytes with
  | nil => simp
  | cons m ms ih =>
    obtain ⟨first, rest, -, -, hcount, -, hrest⟩ := hlaid
    rw [List.flatMap_cons, List.length_append, ih hrest, List.length_cons]
    simp only [miniIncrements, List.length_map, hcount]; ring

theorem widths_of_laid {w per : Nat} (ms : List (Byte × List Nat)) {bytes : List Byte}
    (hlaid : MinisLaid w per ms bytes) : ((ms.map Prod.fst).any fun b => b.toNat > w) = false := by
  induction ms generalizing bytes with
  | nil => rfl
  | cons m ms ih =>
    obtain ⟨first, rest, -, hw, -, -, hrest⟩ := hlaid
    rw [List.map_cons, List.any_cons, ih hrest]
    simp; omega

theorem increments_eq (w : Nat) (b : DeltaBlock) :
    b.increments w = b.minis.flatMap (miniIncrements (unzigzagCut w b.minDeltaImage)) := rfl

theorem deltaBlock_of_laid {o : Operands} {w start : Nat} {h : DeltaHeader} (hper : h.perMiniBlock % 8 = 0)
    {b : DeltaBlock} {bytes : List Byte} {c : Ctx} (hlaid : b.Laid w h.miniBlocks h.perMiniBlock bytes)
    (hheld : HeldAt o c.p bytes) (hfits : c.p + bytes.length ≤ o.inLen) :
    deltaBlock o w h (start % 2 ^ w) c =
      .ok ((start + ((b.increments w).take (h.numValues - c.n)).sum) % 2 ^ w)
        { p := c.p + bytes.length
          out := c.out ++ runningSums w start ((b.increments w).take (h.numValues - c.n)) } := by
  obtain ⟨minDelta, bodies, rfl, hv, hcount, hminis⟩ := hlaid
  rw [List.length_append, List.length_append, List.length_map] at hfits
  obtain ⟨h12, h3⟩ := heldAt_append.mp hheld
  obtain ⟨h1, h2⟩ := heldAt_append.mp h12
  unfold deltaBlock
  rw [andThen_ok (varint_of_isVarint hv h1 (by omega))]
  have hr := readBytes_ok o (k := h.miniBlocks) (l := o.inLen) (c := { c with p := c.p + minDelta.length })
    (by show c.p + minDelta.length + h.miniBlocks ≤ o.inLen; omega)
  have h2' : o.mem.readBytes (o.inBase + (c.p + minDelta.length)) h.miniBlocks = b.minis.map Prod.fst := by
    rw [← hcount, ← List.length_map (f := Prod.fst)]; exact h2
  rw [show o.mem.readBytes (o.inBase + Ctx.p { c with p := c.p + minDelta.length }) h.miniBlocks
    = b.minis.map Prod.fst from h2'] at hr
  rw [andThen_ok hr, widths_of_laid _ hminis, if_neg (by simp)]
  have h3' : HeldAt o (c.p + minDelta.length + h.miniBlocks) bodies := by
    rw [List.length_append, List.length_map, hcount] at h3
    rw [Nat.add_assoc]; exact h3
  rw [deltaMiniBlocks_of_laid hper b.minis (c := { c with p := c.p + minDelta.length + h.miniBlocks }) hminis h3'
    (by show c.p + minDelta.length + h.miniBlocks + _ ≤ o.inLen; omega)]
  simp only [increments_eq, List.length_append, List.length_map, hcount, Nat.add_assoc]
  rfl

theorem length_increments_of_laid {w miniBlocks per : Nat} {b : DeltaBlock} {bytes : List Byte}
    (hlaid : b.Laid w miniBlocks per bytes) : (b.increments w).length = miniBlocks * per := by
  obtain ⟨minDelta, bodies, -, -, hcount, hminis⟩ := hlaid
  rw [increments_eq, length_miniIncrements_of_laid _ hminis, hcount]

/-- Blocks laid out in a row, as many as it takes to reach `numValues`, give the running sums of their increments, and
exactly they are consumed (44_delta.md R233, R238; log 25). -/
theorem deltaBlocks_of_laid {o : Operands} {w : Nat} {h : DeltaHeader} (hper : h.perMiniBlock % 8 = 0)
    (blocks : List DeltaBlock) (fuel : Nat) {start : Nat} {bytes : List Byte} {c : Ctx}
    (hlaid : BlocksLaid w h.miniBlocks h.perMiniBlock blocks bytes) (hheld : HeldAt o c.p bytes)
    (hfits : c.p + bytes.length ≤ o.inLen) (hpos : 0 < h.miniBlocks * h.perMiniBlock)
    (henough : h.numValues ≤ c.n + blocks.length * (h.miniBlocks * h.perMiniBlock))
    (hleast : blocks.length = 0 ∨ c.n + (blocks.length - 1) * (h.miniBlocks * h.perMiniBlock) < h.numValues)
    (hfuel : h.numValues ≤ c.n + fuel) :
    deltaBlocks o w h fuel (start % 2 ^ w) c =
      .ok () { p := c.p + bytes.length
               out := c.out ++ runningSums w start
                 ((blocks.flatMap (DeltaBlock.increments w)).take (h.numValues - c.n)) } := by
  induction blocks generalizing fuel start bytes c with
  | nil =>
    obtain rfl := hlaid
    have hn : h.numValues ≤ c.n := by simpa using henough
    cases fuel with
    | zero => simp [deltaBlocks, runningSums]
    | succ fuel =>
      rw [deltaBlocks, andThen_ok (emitted_apply c), if_neg (by omega)]
      simp [runningSums]
  | cons b blocks ih =>
    obtain ⟨first, rest, rfl, hb, hrest⟩ := hlaid
    obtain ⟨h1, h2⟩ := heldAt_append.mp hheld
    rw [List.length_append] at hfits
    rw [List.length_cons] at henough hleast
    have hlt : c.n + blocks.length * (h.miniBlocks * h.perMiniBlock) < h.numValues := by
      rcases hleast with h0 | h0
      · omega
      · simpa using h0
    cases fuel with
    | zero => omega
    | succ fuel =>
      have hinc := length_increments_of_laid hb
      have hn' : Ctx.n { p := c.p + first.length
                         out := c.out ++ runningSums w start ((b.increments w).take (h.numValues - c.n)) }
          = c.n + min (h.numValues - c.n) (h.miniBlocks * h.perMiniBlock) := by
        unfold Ctx.n
        rw [List.length_append, length_runningSums, List.length_take, hinc]
      rw [deltaBlocks, andThen_ok (emitted_apply c), if_pos (by omega),
        andThen_ok (deltaBlock_of_laid hper hb h1 (by omega))]
      rw [ih fuel hrest h2 (by show c.p + first.length + rest.length ≤ o.inLen; omega)
        (by rw [hn']; rw [Nat.add_mul] at henough; omega)
        (by
          rw [hn']
          by_cases h0 : blocks.length = 0
          · exact Or.inl h0
          · right
            obtain ⟨k, hk⟩ : ∃ k, blocks.length = k + 1 := ⟨blocks.length - 1, by omega⟩
            rw [hk] at hlt ⊢
            rw [Nat.add_mul] at hlt
            have : k + 1 - 1 = k := by omega
            rw [this]; omega)
        (by rw [hn']; omega)]
      rw [hn', List.flatMap_cons, List.take_append, runningSums_append, hinc]
      have harith : h.numValues - (c.n + min (h.numValues - c.n) (h.miniBlocks * h.perMiniBlock))
          = h.numValues - c.n - h.miniBlocks * h.perMiniBlock := by omega
      rw [harith]
      simp [Nat.add_assoc]

end Sys2Proof.Machine
end

