-- ==== Sys2Proof/Laws/Faults.lean ====
section
/-! SUPPORT. Where a body raises its fault: a varint left open or over-long, and a fault after the pieces of a stream
that decode (41_varint.md R161, R162; 43_hybrid.md R212; 44_delta.md R233). -/

namespace Sys2Proof.Machine

open Sys2Proof.Safety

/-! ### Varints -/

/-- Nine bytes with bit 7 set and a 10th of 0x02 or more are MALFORMED just past the 10th (41_varint.md R161). Stated
with `left` bytes still to come, so that it can be proved along the bytes. -/
theorem varintFrom_overlong {o : Operands} {l left shift result : Nat} {init : List Byte} {tenth : Byte} {c : Ctx}
    (hlen : init.length = left) (hinit : ∀ b ∈ init, 0x80 ≤ b.toNat) (htenth : 0x02 ≤ tenth.toNat)
    (hheld : HeldAt o c.p (init ++ [tenth])) (hfits : c.p + left + 1 ≤ l) :
    varintFrom o l left shift result c = .raised .malformed { c with p := c.p + left + 1 } := by
  induction left generalizing shift result init c with
  | zero =>
    obtain rfl : init = [] := List.length_eq_zero_iff.mp hlen
    unfold varintFrom
    rw [andThen_ok (readByte_ok o (by omega)), (heldAt_cons.mp hheld).1, if_pos htenth]
    rfl
  | succ left ih =>
    cases init with
    | nil => simp at hlen
    | cons b init =>
      obtain ⟨h1, h2⟩ := heldAt_cons.mp hheld
      have hb := hinit b (by simp)
      unfold varintFrom
      rw [andThen_ok (readByte_ok o (by omega)), h1, if_neg (by omega),
        ih (c := { c with p := c.p + 1 }) (by simpa using hlen) (fun x hx => hinit x (by simp [hx])) h2
          (by show c.p + 1 + left + 1 ≤ l; omega)]
      simp
      omega

theorem varint_overlong {o : Operands} {l : Nat} {nine : List Byte} {tenth : Byte} {c : Ctx} (hlen : nine.length = 9)
    (hnine : ∀ b ∈ nine, 0x80 ≤ b.toNat) (htenth : 0x02 ≤ tenth.toNat) (hheld : HeldAt o c.p (nine ++ [tenth]))
    (hfits : c.p + 10 ≤ l) : varint o l c = .raised .malformed { c with p := c.p + 10 } :=
  varintFrom_overlong hlen hnine htenth hheld hfits

/-- Bytes with bit 7 set up to the limit are TRUNCATED there (41_varint.md R162). -/
theorem varintFrom_unterminated {o : Operands} {l left shift result : Nat} {bytes : List Byte} {c : Ctx}
    (hlen : bytes.length ≤ left) (hset : ∀ b ∈ bytes, 0x80 ≤ b.toNat) (hheld : HeldAt o c.p bytes)
    (hends : c.p + bytes.length = l) : varintFrom o l left shift result c = .raised .truncated { c with p := l } := by
  induction bytes generalizing shift result left c with
  | nil =>
    have : c.p = l := by simpa using hends
    subst this
    unfold varintFrom
    cases left <;> exact andThen_raised (readByte_short o (by omega))
  | cons b bytes ih =>
    obtain ⟨left, rfl⟩ : ∃ k, left = k + 1 := ⟨left - 1, by simp at hlen; omega⟩
    obtain ⟨h1, h2⟩ := heldAt_cons.mp hheld
    have hb := hset b (by simp)
    rw [List.length_cons] at hends
    unfold varintFrom
    rw [andThen_ok (readByte_ok o (by omega)), h1, if_neg (by omega)]
    exact ih (c := { c with p := c.p + 1 }) (by simpa using hlen) (fun x hx => hset x (by simp [hx])) h2
      (by show c.p + 1 + bytes.length = l; omega)

theorem varint_unterminated {o : Operands} {l : Nat} {bytes : List Byte} {c : Ctx} (hlen : bytes.length < 10)
    (hset : ∀ b ∈ bytes, 0x80 ≤ b.toNat) (hheld : HeldAt o c.p bytes) (hends : c.p + bytes.length = l) :
    varint o l c = .raised .truncated { c with p := l } :=
  varintFrom_unterminated (by omega) hset hheld hends

/-- Varints that decode, then one that raises: `VARINT` raises there. -/
theorem varints_raises {o : Operands} (vs : List Nat) {bytes : List Byte} {c c' : Ctx} {f : FaultCode} {count : Nat}
    (hlaid : VarintsLaid vs bytes) (hheld : HeldAt o c.p bytes) (hfits : c.p + bytes.length ≤ o.inLen)
    (hcount : vs.length < count)
    (hraise : varint o o.inLen { p := c.p + bytes.length, out := c.out ++ vs } = .raised f c') :
    varints o count c = .raised f c' := by
  induction vs generalizing bytes c count with
  | nil =>
    obtain rfl := hlaid
    obtain ⟨count, rfl⟩ : ∃ k, count = k + 1 := ⟨count - 1, by simp at hcount; omega⟩
    exact andThen_raised (by simpa using hraise)
  | cons v vs ih =>
    obtain ⟨first, rest, rfl, hv, hrest⟩ := hlaid
    obtain ⟨h1, h2⟩ := heldAt_append.mp hheld
    rw [List.length_append] at hfits hraise
    obtain ⟨count, rfl⟩ : ∃ k, count = k + 1 := ⟨count - 1, by simp at hcount; omega⟩
    rw [varints, andThen_ok (varint_of_isVarint hv h1 (by omega)), andThen_ok (emit_apply _ _)]
    refine ih hrest h2 (by show c.p + first.length + rest.length ≤ o.inLen; omega) (by simpa using hcount) ?_
    simpa [Nat.add_assoc] using hraise

/-! ### Hybrid runs -/

theorem hybridRun_laid_length_pos {bw : Nat} {run : HybridRun} {bytes : List Byte} (h : run.Laid bw bytes) :
    0 < bytes.length := by
  cases run with
  | rle count body =>
    obtain ⟨header, rfl, hv, -⟩ := h
    have := isVarint_length_pos hv
    rw [List.length_append]; omega
  | packed vs =>
    obtain ⟨header, packed, groups, rfl, hv, -, -⟩ := h
    have := isVarint_length_pos hv
    rw [List.length_append]; omega

/-- Runs that decode, then, before the region's end, one that raises: the region raises there. -/
theorem hybridRuns_raises {o : Operands} {bw stop : Nat} (runs : List HybridRun) (fuel : Nat) {bytes : List Byte}
    {c c' : Ctx} {f : FaultCode} (hlaid : RunsLaid bw runs bytes) (hheld : HeldAt o c.p bytes)
    (hends : c.p + bytes.length < stop) (hfuel : bytes.length < fuel)
    (hcap : c.n + (runs.flatMap HybridRun.values).length ≤ o.outCap)
    (hraise : hybridRun o bw stop { p := c.p + bytes.length, out := c.out ++ runs.flatMap HybridRun.values }
      = .raised f c') :
    hybridRuns o bw stop fuel c = .raised f c' := by
  induction runs generalizing fuel bytes c with
  | nil =>
    obtain rfl := hlaid
    obtain ⟨fuel, rfl⟩ : ∃ k, fuel = k + 1 := ⟨fuel - 1, by omega⟩
    rw [hybridRuns, andThen_ok (position_apply c), if_pos (by simpa using hends)]
    exact andThen_raised (by simpa using hraise)
  | cons run runs ih =>
    obtain ⟨first, rest, rfl, hrun, hrest⟩ := hlaid
    obtain ⟨h1, h2⟩ := heldAt_append.mp hheld
    have hpos := hybridRun_laid_length_pos hrun
    rw [List.length_append] at hends hfuel hraise
    rw [List.flatMap_cons, List.length_append] at hcap
    obtain ⟨fuel, rfl⟩ : ∃ k, fuel = k + 1 := ⟨fuel - 1, by omega⟩
    rw [hybridRuns, andThen_ok (position_apply c), if_pos (by omega),
      andThen_ok (hybridRun_of_laid hrun h1 (by omega) (by omega))]
    refine ih fuel hrest h2 (by show c.p + first.length + rest.length < stop; omega) (by omega)
      (by show (c.out ++ run.values).length + _ ≤ o.outCap
          rw [List.length_append]; unfold Ctx.n at hcap; omega) ?_
    simpa [Nat.add_assoc] using hraise

/-! ### Delta blocks -/

/-- Whole blocks that do not reach `numValues`, then a block that raises wherever it starts: the stream raises there. -/
theorem deltaBlocks_raises {o : Operands} {w : Nat} {h : DeltaHeader} (hper : h.perMiniBlock % 8 = 0)
    (blocks : List DeltaBlock) (fuel : Nat) {start : Nat} {bytes : List Byte} {c : Ctx} {f : FaultCode} {pos : Nat}
    (hlaid : BlocksLaid w h.miniBlocks h.perMiniBlock blocks bytes) (hheld : HeldAt o c.p bytes)
    (hfits : c.p + bytes.length ≤ o.inLen)
    (hshort : c.n + blocks.length * (h.miniBlocks * h.perMiniBlock) < h.numValues)
    (hfuel : h.numValues ≤ c.n + fuel) (hpos : 0 < h.miniBlocks * h.perMiniBlock)
    (hraise : ∀ prev out, ∃ c', deltaBlock o w h prev { p := c.p + bytes.length, out := out } = .raised f c'
      ∧ c'.p = pos) :
    ∃ c', deltaBlocks o w h fuel (start % 2 ^ w) c = .raised f c' ∧ c'.p = pos := by
  induction blocks generalizing fuel start bytes c with
  | nil =>
    obtain rfl := hlaid
    obtain ⟨fuel, rfl⟩ : ∃ k, fuel = k + 1 := ⟨fuel - 1, by simp at hshort; omega⟩
    obtain ⟨c', h1, h2⟩ := hraise (start % 2 ^ w) c.out
    refine ⟨c', ?_, h2⟩
    rw [deltaBlocks, andThen_ok (emitted_apply c), if_pos (by simpa using hshort)]
    exact andThen_raised (by simpa using h1)
  | cons b blocks ih =>
    obtain ⟨first, rest, rfl, hb, hrest⟩ := hlaid
    obtain ⟨h1, h2⟩ := heldAt_append.mp hheld
    have hinc := length_increments_of_laid hb
    rw [List.length_append] at hfits hraise
    rw [List.length_cons, Nat.add_mul, Nat.one_mul] at hshort
    obtain ⟨fuel, rfl⟩ : ∃ k, fuel = k + 1 := ⟨fuel - 1, by omega⟩
    have hn : Ctx.n { p := c.p + first.length
                      out := c.out ++ runningSums w start ((b.increments w).take (h.numValues - c.n)) }
        = c.n + h.miniBlocks * h.perMiniBlock := by
      unfold Ctx.n at hshort ⊢
      rw [List.length_append, length_runningSums, List.length_take, hinc]
      omega
    rw [deltaBlocks, andThen_ok (emitted_apply c), if_pos (by omega),
      andThen_ok (deltaBlock_of_laid hper hb h1 (by omega))]
    exact ih fuel hrest h2 (by show c.p + first.length + rest.length ≤ o.inLen; omega) (by rw [hn]; omega)
      (by rw [hn]; omega) (by simpa [Nat.add_assoc] using hraise)

end Sys2Proof.Machine
end

