-- ==== Sys2Proof/Laws/PerInstr.lean ====
section
/-! SUPPORT. The fields of a command word put together by `packCommand`, and of every command's encoding
(30_encoding.md R91, R95, R97): one lemma per constructor of `Instr`. -/

namespace Sys2Proof

theorem opcField_packCommand (opc width : BitVec 8) (lenx : Bool) : opcField (packCommand opc width lenx) = opc := by
  unfold opcField packCommand
  ext i hi
  simp only [BitVec.getElem_extractLsb', BitVec.getLsbD_or, BitVec.getLsbD_shiftLeft, BitVec.truncate_eq_setWidth,
    BitVec.getLsbD_setWidth]
  have : i < 64 := by omega
  simp [hi, this, show i < 16 by omega, BitVec.getLsbD_eq_getElem]

theorem widthField_packCommand (opc width : BitVec 8) (lenx : Bool) :
    widthField (packCommand opc width lenx) = width := by
  unfold widthField packCommand
  ext i hi
  simp only [BitVec.getElem_extractLsb', BitVec.getLsbD_or, BitVec.getLsbD_shiftLeft, BitVec.truncate_eq_setWidth,
    BitVec.getLsbD_setWidth]
  simp [hi, show 8 + i < 64 by omega, show i < 64 by omega, show 8 + i < 16 by omega, BitVec.getLsbD_eq_getElem]

@[simp] theorem lenxField_packCommand (opc width : BitVec 8) (lenx : Bool) :
    lenxField (packCommand opc width lenx) = lenx := by
  unfold lenxField packCommand
  simp

theorem reservedField_packCommand (opc width : BitVec 8) (lenx : Bool) :
    reservedField (packCommand opc width lenx) = 0 := by
  unfold reservedField packCommand
  ext i hi
  simp only [BitVec.getElem_extractLsb', BitVec.getLsbD_or, BitVec.getLsbD_shiftLeft, BitVec.truncate_eq_setWidth,
    BitVec.getLsbD_setWidth]
  simp [show 17 + i < 64 by omega, BitVec.getLsbD_of_ge _ (17 + i) (show 8 ≤ 17 + i by omega),
    BitVec.getLsbD_of_ge _ (17 + i - 8) (show 8 ≤ 17 + i - 8 by omega)]
  omega

namespace Laws.EncodedFields

/-- The encoding of a command has its opcode in `OPC`, no reserved bit, and `LENX` only for `HYBRID`
(30_encoding.md R91, R95, R97). -/
def Statement (i : Instr) : Prop :=
  opcField (encode i) = i.opcode ∧ reservedField (encode i) = 0 ∧ (lenxField (encode i) = true → i.opcode = 0x04)

theorem packed (opc width : BitVec 8) (lenx : Bool) (h : lenx = true → opc = 0x04) :
    opcField (packCommand opc width lenx) = opc ∧ reservedField (packCommand opc width lenx) = 0
      ∧ (lenxField (packCommand opc width lenx) = true → opc = 0x04) :=
  ⟨opcField_packCommand _ _ _, reservedField_packCommand _ _ _, by simpa using h⟩

theorem varint : Statement .varint := packed _ _ _ nofun

theorem bitunpack (width : BitVec 8) : Statement (.bitunpack width) := packed _ _ _ nofun

theorem rle (width : BitVec 8) : Statement (.rle width) := packed _ _ _ nofun

theorem hybrid (width : BitVec 8) (lenx : Bool) : Statement (.hybrid width lenx) := packed _ _ _ fun _ => rfl

theorem delta32 : Statement .delta32 := packed _ _ _ nofun

theorem delta64 : Statement .delta64 := packed _ _ _ nofun

theorem bss32 : Statement .bss32 := packed _ _ _ nofun

theorem bss64 : Statement .bss64 := packed _ _ _ nofun

end Laws.EncodedFields

end Sys2Proof
end

