-- ==== Sys2Proof/Laws/Reset.lean ====
section
/-! SUPPORT. Everything a fault and a reset do to memory, once: which bytes of the output region become free, and that
the canonical form is kept (20_memory.md R66; 70_reset_and_hazards.md R321, R322). -/

namespace Sys2Proof.Machine

open Sys2Proof.Safety

/-- The bytes of the output region that exist lie in the region and below 2^64. -/
theorem freeOutputRegion_end (s : State) (esize : Nat) :
    (freeOutputRegion s esize).base + (freeOutputRegion s esize).size
        ≤ s.outBase.toNat + s.outCap.toNat * esize
      ∧ (freeOutputRegion s esize).base + (freeOutputRegion s esize).size ≤ 2 ^ 64 := by
  have := s.outBase.isLt
  unfold freeOutputRegion
  dsimp only
  omega

/-- A fault leaves every byte outside the output region as it was. -/
theorem freeOutput_read_outside {s : State} {esize a : Nat}
    (h : ¬(s.outBase.toNat ≤ a ∧ a < s.outBase.toNat + s.outCap.toNat * esize)) :
    (freeOutput s esize).mem.read a = s.mem.read a := by
  have := (freeOutputRegion_end s esize).1
  show (s.mem.makeFree (freeOutputRegion s esize).base _ _).read a = _
  rw [Memory.read_makeFree, if_neg]
  have hb : (freeOutputRegion s esize).base = s.outBase.toNat := rfl
  omega

/-- Freeing the output region keeps the canonical form, whatever the operands. -/
theorem freeOutput_wf {s : State} {esize : Nat} (h : s.mem.wf = true) : (freeOutput s esize).mem.wf = true :=
  Memory.wf_makeFree h (freeOutputRegion_end s esize).2

/-- What an abandoned command can change: memory and the count of free choices, and nothing when none is in flight. -/
theorem abandonCommand_eq (s : State) :
    abandonCommand s = { s with mem := (abandonCommand s).mem, draws := (abandonCommand s).draws } := by
  unfold abandonCommand
  split <;> rfl

theorem abandonCommand_of_not_busy {s : State} (h : s.state ≠ .busy) : abandonCommand s = s := by
  unfold abandonCommand
  rw [if_neg h]

/-- An abandoned command leaves every byte outside its output region as it was, and every byte of its input window. -/
theorem abandonCommand_read {s : State} {a : Nat}
    (h : ¬(s.outBase.toNat ≤ a ∧ a < s.outBase.toNat + s.outCap.toNat * elementSizeOf (opcField s.cmd))
      ∨ (s.inBase.toNat ≤ a ∧ a < s.inBase.toNat + s.inLen.toNat)) :
    (abandonCommand s).mem.read a = s.mem.read a := by
  unfold abandonCommand
  split
  · refine Memory.read_makeFreeAll_outside _ fun r hr => ?_
    have hm := mem_outside hr
    have he := (freeOutputRegion_end s (elementSizeOf (opcField s.cmd))).1
    have hb : (freeOutputRegion s (elementSizeOf (opcField s.cmd))).base = s.outBase.toNat := rfl
    have ha := outside_apart hr
    unfold inputWindow at ha
    dsimp only at ha
    omega
  · rfl

/-- Abandoning a command keeps the canonical form of memory. -/
theorem abandonCommand_wf {s : State} (h : s.mem.wf = true) : (abandonCommand s).mem.wf = true := by
  unfold abandonCommand
  split
  · refine Memory.wf_makeFreeAll h fun r hr => ?_
    have hm := mem_outside hr
    have he := (freeOutputRegion_end s (elementSizeOf (opcField s.cmd))).2
    omega
  · exact h

/-- Every register and field but `ID` holds its reset value after a reset (10_state.md R52). -/
theorem resetBlock_atResetValues (s : State) : AtResetValues (resetBlock s) :=
  ⟨rfl, rfl, rfl, rfl, rfl, rfl, rfl, rfl, rfl, rfl, rfl, rfl, rfl, rfl⟩

@[simp] theorem resetBlock_mem (s : State) : (resetBlock s).mem = (abandonCommand s).mem := rfl
@[simp] theorem resetBlock_owned (s : State) : (resetBlock s).owned = [] := rfl

@[simp] theorem resetBlock_id (s : State) : (resetBlock s).id = s.id := by
  show (abandonCommand s).id = s.id
  rw [abandonCommand_eq]

@[simp] theorem resetBlock_platform (s : State) : (resetBlock s).platform = s.platform := by
  show (abandonCommand s).platform = s.platform
  rw [abandonCommand_eq]

@[simp] theorem resetBlock_inReset (s : State) : (resetBlock s).inReset = s.inReset := by
  show (abandonCommand s).inReset = s.inReset
  rw [abandonCommand_eq]

@[simp] theorem resetBlock_inputs (s : State) : (resetBlock s).inputs = s.inputs := by
  show (abandonCommand s).inputs = s.inputs
  rw [abandonCommand_eq]

@[simp] theorem resetBlock_hostReg (s : State) : (resetBlock s).hostReg = s.hostReg := by
  show (abandonCommand s).hostReg = s.hostReg
  rw [abandonCommand_eq]

@[simp] theorem resetBlock_hostBytes (s : State) : (resetBlock s).hostBytes = s.hostBytes := by
  show (abandonCommand s).hostBytes = s.hostBytes
  rw [abandonCommand_eq]

end Sys2Proof.Machine
end

