-- ==== Sys2Proof/Laws/Step.lean ====
section
/-! SUPPORT. Everything a step can do, once: which agent moved, what it did, and what no step changes. -/

namespace Sys2Proof.Machine

open Sys2Proof.Safety

/-! ### The register block -/

/-- What a register access that is carried out says of the access. -/
theorem guardAccess_eq_next {offset : BitVec 8} {size : Nat} {s t : State} {after : Host.Outcome State Fault Refusal}
    (h : guardAccess offset size s after = .next t) :
    s.inReset = false ∧ accessShapeLegal offset size = true ∧ after = .next t := by
  unfold guardAccess at h
  cases hr : s.inReset with
  | true => rw [hr] at h; simp at h
  | false =>
    cases ha : accessShapeLegal offset size with
    | false => rw [hr, ha] at h; simp at h
    | true => rw [hr, ha] at h; exact ⟨rfl, rfl, h⟩

theorem guardAccess_ok {offset : BitVec 8} {s : State} {after : Host.Outcome State Fault Refusal}
    (hr : s.inReset = false) (ho : offset.toNat % 8 = 0) : guardAccess offset 8 s after = after := by
  unfold guardAccess accessShapeLegal
  simp [hr, ho]

/-- What a data access by the host that is carried out says of the access. -/
theorem guardMemory_eq_next {addr : Word} {n : Nat} {touches : Window → AddrRange → Bool} {s after t : State}
    (h : guardMemory addr n touches s after = .next t) :
    addr.toNat + n ≤ 2 ^ 64 ∧ (∀ w ∈ s.owned, touches w ⟨addr.toNat, addr.toNat + n⟩ = false)
      ∧ (∀ r ∈ s.platform.sideEffect, r.meets ⟨addr.toNat, addr.toNat + n⟩ = false) ∧ t = after := by
  unfold guardMemory at h
  split at h
  · cases h
  · split at h
    · cases h
    · split at h
      · cases h
      · cases h
        rename_i h1 h2 h3
        rw [Bool.not_eq_true, List.any_eq_false] at h2 h3
        exact ⟨by omega, fun w hw => by simpa using h2 w hw, fun r hr => by simpa using h3 r hr, rfl⟩

/-- A data access by the host that fits, and meets neither what the engine owns nor a device, is carried out. -/
theorem guardMemory_ok {addr : Word} {n : Nat} {touches : Window → AddrRange → Bool} {s after : State}
    (hfits : addr.toNat + n ≤ 2 ^ 64) (howned : ∀ w ∈ s.owned, touches w ⟨addr.toNat, addr.toNat + n⟩ = false)
    (hdevice : ∀ r ∈ s.platform.sideEffect, r.meets ⟨addr.toNat, addr.toNat + n⟩ = false) :
    guardMemory addr n touches s after = .next after := by
  unfold guardMemory
  rw [if_neg (by omega), if_neg, if_neg]
  · rw [Bool.not_eq_true, List.any_eq_false]
    exact fun r hr => by simpa using hdevice r hr
  · rw [Bool.not_eq_true, List.any_eq_false]
    exact fun w hw => by simpa using howned w hw

/-! ### START and the control register -/

/-- What a START that is carried out says: the model does not refuse the command. -/
theorem hostStart_eq_next {s t : State} (h : hostStart s = .next t) : commandRefusal s = none ∧ t = startCommand s := by
  unfold hostStart at h
  split at h
  · cases h
  · cases h; exact ⟨‹_›, rfl⟩

theorem hostStart_ok {s : State} (h : commandRefusal s = none) : hostStart s = .next (startCommand s) := by
  unfold hostStart
  rw [h]

/-- Everything a write of `CTRL` can do (10_state.md R25). -/
inductive CtrlEnd (w : Word) (s t : State) : Prop where
  | reset (hw : w.getLsbD 2 = true) (ht : t = resetBlock s)
  | enable (hw : w.getLsbD 2 = false) (h0 : w.getLsbD 0 = false) (ht : t = { s with irqEn := w.getLsbD 1 })
  | ignored (hw : w.getLsbD 2 = false) (h0 : w.getLsbD 0 = true) (hs : s.state = .busy)
      (ht : t = { s with irqEn := w.getLsbD 1, wrIgnored := true })
  | start (hw : w.getLsbD 2 = false) (h0 : w.getLsbD 0 = true) (hs : s.state ≠ .busy)
      (hc : commandRefusal { s with irqEn := w.getLsbD 1 } = none)
      (ht : t = startCommand { s with irqEn := w.getLsbD 1 })

theorem writeCtrl_cases {w : Word} {s t : State} (h : writeCtrl w s = .next t) : CtrlEnd w s t := by
  unfold writeCtrl at h
  cases hw : w.getLsbD 2 with
  | true => rw [hw] at h; cases h; exact .reset hw rfl
  | false =>
    cases h0 : w.getLsbD 0 with
    | false => rw [hw, h0] at h; cases h; exact .enable hw h0 rfl
    | true =>
      rw [hw, h0] at h
      simp only [Bool.not_true, Bool.false_eq_true, if_false] at h
      split at h
      · cases h; exact .ignored hw h0 ‹_› rfl
      · obtain ⟨hc, ht⟩ := hostStart_eq_next h
        exact .start hw h0 ‹_› hc ht

/-! ### Everything an event can do -/

/-- What the engine's completion step can do (40_command_execution.md R133, R142). -/
inductive Completion (s t : State) : Prop where
  | noCommand (e : DecodeError) (hd : decode s.cmd = .error e)
      (ht : t = turnAway s (elementSizeOf (opcField s.cmd)) (decodeFault e))
  | command (i : Instr) (hd : decode s.cmd = .ok i) (ht : exec i s = .next t)

theorem completeCommand_eq_next {s t : State} (h : completeCommand s = .next t) : Completion s t := by
  unfold completeCommand at h
  split at h
  · cases h
  · split at h
    · rename_i e hd
      cases h
      exact .noCommand e hd rfl
    · rename_i i hd
      exact .command i hd h

/-- What an event can do when it answers a next state. -/
inductive EventEnd (e : Event) (s t : State) : Prop where
  | rest (he : e = .engine) (hs : s.state ≠ .busy) (ht : t = s)
  | completes (he : e = .engine) (hs : s.state = .busy) (ht : Completion s t)
  | restWithStatusWrite (w : Word) (he : e = .engineWithStatusWrite w) (hr : s.inReset = false)
      (hs : s.state ≠ .busy) (ht : t = writeStatus w s)
  | completesWithStatusWrite (w : Word) (he : e = .engineWithStatusWrite w) (hr : s.inReset = false)
      (hs : s.state = .busy) (ht : Completion (writeStatus w s) t)
  | regRead (offset : BitVec 8) (he : e = .regRead offset 8) (hr : s.inReset = false)
      (ht : t = { s with hostReg := readReg (regAt offset) s, owned := t.owned })
      (ho : t.owned = if regAt offset = .status ∧ s.state ≠ .busy then [] else s.owned)
  | ctrlWrite (offset : BitVec 8) (w : Word) (he : e = .regWrite offset 8 w) (hr : s.inReset = false)
      (hoff : offset.toNat % 8 = 0) (hreg : regAt offset = .ctrl) (ht : CtrlEnd w s t)
  | regWrite (offset : BitVec 8) (w : Word) (he : e = .regWrite offset 8 w) (hr : s.inReset = false)
      (hoff : offset.toNat % 8 = 0) (hreg : regAt offset ≠ .ctrl) (ht : t = writeStored (regAt offset) w s)
  | memRead (addr : Word) (n : Nat) (he : e = .memRead addr n)
      (ht : t = { s with hostBytes := s.mem.readBytes addr.toNat n })
  | memWrite (addr : Word) (bytes : List Byte) (he : e = .memWrite addr bytes)
      (hfits : addr.toNat + bytes.length ≤ 2 ^ 64)
      (ht : t = { s with mem := s.mem.writeBytes addr.toNat bytes })
  | assertReset (he : e = .assertReset) (ht : t = { resetBlock s with inReset := true })
  | releaseReset (he : e = .releaseReset) (ht : t = { s with inReset := false })

theorem engineStep_eq_next {s t : State} (h : engineStep s = .next t) :
    (s.state ≠ .busy ∧ t = s) ∨ (s.state = .busy ∧ Completion s t) := by
  unfold engineStep at h
  split at h
  · exact .inr ⟨‹_›, completeCommand_eq_next h⟩
  · cases h; exact .inl ⟨‹_›, rfl⟩

theorem accessShapeLegal_size {offset : BitVec 8} {size : Nat} (h : accessShapeLegal offset size = true) :
    size = 8 ∧ offset.toNat % 8 = 0 := by
  unfold accessShapeLegal at h
  simpa using h

/-- Everything an event can do. -/
theorem applyEvent_cases {e : Event} {s t : State} (h : applyEvent e s = .next t) : EventEnd e s t := by
  cases e with
  | engine =>
    rcases engineStep_eq_next h with ⟨h1, h2⟩ | ⟨h1, h2⟩
    · exact .rest rfl h1 h2
    · exact .completes rfl h1 h2
  | engineWithStatusWrite w =>
    unfold applyEvent at h
    dsimp only at h
    split at h
    · cases h
    · rename_i hr
      rcases engineStep_eq_next h with ⟨h1, h2⟩ | ⟨h1, h2⟩
      · exact .restWithStatusWrite w rfl (by simpa using hr) h1 h2
      · exact .completesWithStatusWrite w rfl (by simpa using hr) h1 h2
  | regRead offset size =>
    obtain ⟨hr, ha, ht⟩ := guardAccess_eq_next h
    obtain ⟨rfl, -⟩ := accessShapeLegal_size ha
    injection ht with ht
    refine .regRead offset rfl hr ?_ ?_ <;> subst ht
    · split
      · unfold observeStatus; split <;> rfl
      · rfl
    · unfold observeStatus
      by_cases h1 : regAt offset = .status <;> by_cases h2 : s.state = .busy <;> simp [h1, h2]
  | regWrite offset size w =>
    obtain ⟨hr, ha, ht⟩ := guardAccess_eq_next h
    obtain ⟨rfl, ho⟩ := accessShapeLegal_size ha
    unfold writeReg at ht
    split at ht
    · exact .ctrlWrite offset w rfl hr ho ‹_› (writeCtrl_cases ht)
    · injection ht with ht
      exact .regWrite offset w rfl hr ho ‹_› ht.symm
  | memRead addr n =>
    replace h : hostReadMem addr n s = .next t := h
    unfold hostReadMem at h
    obtain ⟨-, -, -, ht⟩ := guardMemory_eq_next h
    exact .memRead addr n rfl ht
  | memWrite addr bytes =>
    replace h : hostWriteMem addr bytes s = .next t := h
    unfold hostWriteMem at h
    obtain ⟨h1, -, -, ht⟩ := guardMemory_eq_next h
    exact .memWrite addr bytes rfl h1 ht
  | assertReset => cases h; exact .assertReset rfl rfl
  | releaseReset => cases h; exact .releaseReset rfl rfl

/-- Everything a step can do: what the next event does, or, with none to come, what the engine does. The event acts on
`s'`, the state with that event taken off the list. -/
theorem step_cases {s t : State} (h : step s = .next t) :
    ∃ e s', s' = { s with inputs := s.inputs.tail }
      ∧ ((s.inputs = [] ∧ e = .engine) ∨ s.inputs = e :: s.inputs.tail) ∧ EventEnd e s' t := by
  unfold step advance at h
  split at h
  · rename_i hi
    refine ⟨.engine, s, ?_, .inl ⟨hi, rfl⟩, applyEvent_cases (e := .engine) h⟩
    cases s
    cases hi
    rfl
  · rename_i e rest hi
    exact ⟨e, { s with inputs := rest }, by rw [hi]; rfl, .inr (by rw [hi]; rfl), applyEvent_cases h⟩

end Sys2Proof.Machine
end

