-- ==== Sys2Proof/Tests/Slice0.lean ====
section
/-! SUPPORT. The model's own tests. Expected results come from spec/: the encodings of 30_encoding.md R91, R95 and R107,
and the vectors of 95_test_vectors.md, whose numbers the tests name. Then, for every obligation with hypotheses, a
concrete state that meets them. -/

namespace Sys2Proof.Tests

open Sys2Proof.Machine Sys2Proof.Safety

/-! ### States to test on -/

/-- Bytes from numbers. -/
def bytes (ns : List Nat) : List Byte := ns.map (BitVec.ofNat 8)

/-- A BUSY block with the input at 0x1000, as 95_test_vectors.md starts its vectors. -/
def running (input : List Nat) (cmd arg0 : Word) (cap : Word := 1024) (cursor : Word := 0) : State :=
  { State.reset with
    state := .busy
    cmd := cmd
    inBase := 0x1000
    inLen := BitVec.ofNat 64 input.length
    cursor := cursor
    outBase := 0x8000
    outCap := cap
    arg0 := arg0
    mem := State.reset.mem.writeBytes 0x1000 (bytes input) }

/-- What a vector of 95_test_vectors.md lists: `STATE`, `FAULT`, `FAULT_POS`, `CURSOR` and the output elements. -/
structure Listed where
  state : EngineState
  fault : FaultCode
  faultPos : Nat
  cursor : Nat
  elements : List Nat
  deriving DecidableEq, Repr

/-- One step of a state, as a vector lists its result. -/
def listed (s : State) : Option Listed :=
  match step s with
  | .next t =>
    let esize := elementSizeOf (opcField s.cmd)
    some ⟨t.state, t.fault, t.faultPos.toNat, t.cursor.toNat,
      (List.range t.outCount.toNat).map fun i =>
        littleEndian (t.mem.readBytes (t.outBase.toNat + i * esize) esize)⟩
  | _ => none

/-- "DONE v_0, v_1, …; C=c". -/
def doneWith (cursor : Nat) (elements : List Nat) : Option Listed := some ⟨.done, .none, 0, cursor, elements⟩

/-- "F @p", with `CURSOR` at its START value. -/
def faultAt (f : FaultCode) (pos : Nat) (cursor : Nat := 0) : Option Listed := some ⟨.error, f, pos, cursor, []⟩

/-! ### Ill-formed commands are refused -/

theorem test_wellFormed_refuses_bitunpack_65 : (Instr.bitunpack 65).wellFormed = false := by decide
theorem test_wellFormed_refuses_rle_33 : (Instr.rle 33).wellFormed = false := by decide
theorem test_wellFormed_refuses_hybrid_33 :
    (Instr.hybrid 33 false).wellFormed = false ∧ (Instr.hybrid 33 true).wellFormed = false := by decide
theorem test_wellFormed_accepts_the_bounds : (Instr.bitunpack 64).wellFormed = true
    ∧ (Instr.rle 32).wellFormed = true ∧ (Instr.hybrid 32 true).wellFormed = true := by decide

/-! ### Decoding words written out from the spec -/

theorem test_decode_varint : decode 0b0000001 = .ok .varint := by decide
theorem test_decode_bitunpack : decode 0b00000011_00000010 = .ok (.bitunpack 3) := by decide
theorem test_decode_rle : decode 0b00001000_00000011 = .ok (.rle 8) := by decide
theorem test_decode_hybrid : decode 0b0_00001000_00000100 = .ok (.hybrid 8 false) := by decide
theorem test_decode_hybrid_lenx : decode 0b1_00001000_00000100 = .ok (.hybrid 8 true) := by decide
theorem test_decode_delta32 : decode 0b0000101 = .ok .delta32 := by decide
theorem test_decode_delta64 : decode 0b0000110 = .ok .delta64 := by decide
theorem test_decode_bss32 : decode 0b0000111 = .ok .bss32 := by decide
theorem test_decode_bss64 : decode 0b0001000 = .ok .bss64 := by decide

/-- Vectors K1 to K3. -/
theorem test_decode_reserved_opcodes : decode 0x00 = .error .invalidType ∧ decode 0x09 = .error .invalidType
    ∧ decode 0xFF = .error .invalidType ∧ decode 0x8000000000000009 = .error .invalidType := by decide

/-- Vectors K4 to K6, B8, R8, H12, T7. -/
theorem test_decode_illegal_forms : decode 0x20001 = .error .badArg ∧ decode 0x10001 = .error .badArg
    ∧ decode 0x101 = .error .badArg ∧ decode 0x4102 = .error .badArg ∧ decode 0x2103 = .error .badArg
    ∧ decode 0x2104 = .error .badArg ∧ decode 0x107 = .error .badArg
    ∧ decode 0x8000000000000004 = .error .badArg := by decide

theorem test_decodeTableWord_hybrid : decodeTableWord 64 0x10304 = some (.hybrid 3 true) := by decide

theorem test_encode_hybrid : encode (.hybrid 3 true) = 0x10304 := by decide

/-! ### One step of each command -/

/-- Vector V5. -/
theorem test_varint_largest :
    listed (running [0xFF, 0xFF, 0xFF, 0xFF, 0xFF, 0xFF, 0xFF, 0xFF, 0xFF, 0x01] 0x01 1)
      = doneWith 10 [0xFFFFFFFFFFFFFFFF] := by decide +kernel

/-- Vector V17. -/
theorem test_varint_truncated : listed (running [0x01, 0x81] 0x01 2) = faultAt .truncated 2 := by decide +kernel

/-- Vector B11. -/
theorem test_bitunpack_crosses_bytes :
    listed (running [0x01, 0x20, 0x00, 0xFF, 0xEF, 0xCD, 0, 0, 0, 0, 0, 0] 0x0C02 3)
      = doneWith 12 [1, 2, 0xFFF, 0xCDE, 0, 0, 0, 0] := by decide +kernel

/-- Vector K13. -/
theorem test_bitunpack_capacity :
    listed (running [0xAA, 0x88, 0xC6, 0xFA] 0x0302 3 7 1) = faultAt .capacity 1 1 := by decide +kernel

/-- Vector R3. -/
theorem test_rle_is_not_masked : listed (running [0xFF] 0x0303 4) = doneWith 1 [0xFF, 0xFF] := by decide +kernel

/-- Vector R7. -/
theorem test_rle_odd_header : listed (running [0x05] 0x0803 7) = faultAt .badArg 0 := by decide +kernel

/-- Vector H4. -/
theorem test_hybrid_both_runs :
    listed (running [0x06, 0, 0, 0, 0x04, 0x01, 0x03, 0x88, 0xC6, 0xFA] 0x0304 0)
      = doneWith 10 [1, 1, 0, 1, 2, 3, 4, 5, 6, 7] := by decide +kernel

/-- Vector H9. -/
theorem test_hybrid_region_end : listed (running [0x01, 0, 0, 0, 0x80, 0x01] 0x0804 0) = faultAt .truncated 5 := by
  decide +kernel

/-- Vector D3. -/
theorem test_delta32_wraps :
    listed (running [0x08, 0x01, 0x05, 0x0E, 0x03, 0x00] 0x05 0) = doneWith 6 [7, 5, 3, 1, 0xFFFFFFFF] := by decide +kernel

/-- Vector D12. -/
theorem test_delta32_width : listed (running [0x08, 0x01, 0x05, 0x06, 0x00, 0x21] 0x05 0) = faultAt .malformed 6 := by
  decide +kernel

/-- Vector D17. -/
theorem test_delta64_consumes_the_block :
    listed (running [0x10, 0x02, 0x05, 0x00, 0x02, 0x00, 0x01, 0xFF] 0x06 0) = doneWith 8 [0, 1, 2, 3, 4] := by decide +kernel

/-- Vector D19. -/
theorem test_delta64_wraps :
    listed (running [0x08, 0x01, 0x02, 0xFE, 0xFF, 0xFF, 0xFF, 0xFF, 0xFF, 0xFF, 0xFF, 0xFF, 0x01, 0x02, 0x00] 0x06 0)
      = doneWith 15 [0x7FFFFFFFFFFFFFFF, 0x8000000000000000] := by decide +kernel

/-- Vector T1. -/
theorem test_bss32_planes :
    listed (running [0, 0, 0, 0, 0, 0, 0x80, 0x20, 0xC0, 0x3F, 0xC0, 0x7F] 0x07 3)
      = doneWith 12 [0x3F800000, 0xC0200000, 0x7FC00000] := by decide +kernel

/-- Vector T3. -/
theorem test_bss32_truncated :
    listed (running [0, 0, 0, 0, 0, 0, 0x80, 0x20, 0xC0, 0x3F, 0xC0] 0x07 3) = faultAt .truncated 0 := by decide +kernel

/-- Vector T5. -/
theorem test_bss64_bytes : listed (running [1, 2, 3, 4, 5, 6, 7, 8] 0x08 1) = doneWith 8 [0x0807060504030201] := by
  decide +kernel

/-- Vector T2 at eight bytes. -/
theorem test_bss64_of_none : listed (running [] 0x08 0) = doneWith 0 [] := by decide +kernel

/-! ### Witnesses: a state that meets the hypotheses of each obligation -/

/-- On the platform right after reset, a command whose operands pass the checks runs undisturbed. -/
theorem undisturbed_of {esize : Nat} {s : State} (hp : s.platform = State.reset.platform)
    (h : checkRegions esize s = true) : Undisturbed esize s :=
  ⟨(checkRegions_iff esize s).mp h, by rw [hp]; exact nofun, by rw [hp]; exact nofun, by rw [hp]; exact nofun⟩

/-- A BUSY block with `VARINT` of one byte to run. -/
def oneVarint : State := running [0x05] 0x01 1

/-- What running it leaves. -/
def oneVarintDone : State := { completeDone oneVarint 8 1 [5] with draws := 1 }

theorem exec_oneVarint : exec .varint oneVarint = .next oneVarintDone := rfl

/-- A BUSY block right after a START of `VARINT`, owning its window. -/
def started : State := startCommand { oneVarint with state := .idle, owned := [] }

theorem inv_started (inputs : List Event) : Inv { started with inputs := inputs } where
  memory := show started.mem.wf = true by decide
  faultIffError := show started.fault ≠ .none ↔ started.state = .error by decide
  faultPosOutsideError := show started.state ≠ .error → started.faultPos = 0 by decide
  outCountOutsideDone := show started.state ≠ .done → started.outCount = 0 by decide
  idleIsQuiet := show started.state = .idle → started.irqPending = false ∧ started.wrIgnored = false by decide
  busyOwns := show started.state = .busy → ownedWindow started ∈ started.owned by decide
  busyRuns := fun _ =>
    have h : commandRefusal started = none := by decide
    (commandRefusal_congr (s := started) (t := { started with inputs := inputs }) rfl rfl rfl rfl rfl rfl rfl rfl).trans h
  resetHolds := nofun

theorem isVarint_05 : IsVarint (bytes [0x05]) 5 :=
  ⟨⟨[], 0x05, rfl, by decide, by decide⟩, by decide, by decide, by decide⟩

theorem isVarint_byte (n : Nat) (h : n < 128) : IsVarint (bytes [n]) n := by
  have h8 : n % 256 = n := by omega
  refine ⟨⟨[], BitVec.ofNat 8 n, rfl, by simp, by simp; omega⟩, by simp [bytes], by simp [bytes], ?_⟩
  simp [bytes, groupsValue]; omega

theorem witness_DecodeOfEncodedCommand :
    (Instr.hybrid 32 true).wellFormed = true ∧ (Instr.bitunpack 64).wellFormed = true := by decide

theorem witness_DecodedWordIsTheEncoding : decode 0x12004 = .ok (.hybrid 32 true) := by decide

theorem witness_DecoderClassifiesEveryWord_reserved : OpcodeReserved 0x00 ∧ OpcodeReserved 0x09 ∧ OpcodeReserved 0xFF := by
  unfold OpcodeReserved; decide

theorem witness_DecoderClassifiesEveryWord_illegal :
    (¬OpcodeReserved 0x20001 ∧ IllegalForm 0x20001) ∧ (¬OpcodeReserved 0x10003 ∧ IllegalForm 0x10003)
      ∧ (¬OpcodeReserved 0x4102 ∧ IllegalForm 0x4102) ∧ (¬OpcodeReserved 0x2103 ∧ IllegalForm 0x2103)
      ∧ (¬OpcodeReserved 0x2104 ∧ IllegalForm 0x2104) ∧ (¬OpcodeReserved 0x0101 ∧ IllegalForm 0x0101)
      ∧ (¬OpcodeReserved 0x0108 ∧ IllegalForm 0x0108) := by
  refine ⟨⟨?_, ?_⟩, ⟨?_, ?_⟩, ⟨?_, ?_⟩, ⟨?_, ?_⟩, ⟨?_, ?_⟩, ⟨?_, ?_⟩, ?_, ?_⟩ <;>
    first | (unfold OpcodeReserved; decide) | (unfold IllegalForm; decide)

theorem witness_DecoderClassifiesEveryWord_legal :
    (¬OpcodeReserved 0x01 ∧ ¬IllegalForm 0x01) ∧ (¬OpcodeReserved 0x4002 ∧ ¬IllegalForm 0x4002)
      ∧ (¬OpcodeReserved 0x2003 ∧ ¬IllegalForm 0x2003) ∧ (¬OpcodeReserved 0x12004 ∧ ¬IllegalForm 0x12004)
      ∧ (¬OpcodeReserved 0x08 ∧ ¬IllegalForm 0x08) := by
  refine ⟨⟨?_, ?_⟩, ⟨?_, ?_⟩, ⟨?_, ?_⟩, ⟨?_, ?_⟩, ?_, ?_⟩ <;>
    first | (unfold OpcodeReserved; decide) | (unfold IllegalForm; decide)

theorem witness_DecoderClassifiesEveryWord_no_row :
    ¬OpcodeReserved 0x0101 ∧ (∀ r ∈ opcodeTable, ¬r.Matches 0x0101) := by
  unfold OpcodeReserved OpcodeRow.Matches; decide

theorem witness_DecoderClassifiesEveryWord_width :
    ∃ r ∈ opcodeTable, r.Matches 0x4102 ∧ r.maxWidth < (0x4102 : Word).toNat / 2 ^ 8 % 2 ^ 8 := by
  unfold OpcodeRow.Matches; decide

theorem witness_StepRunsTheDecodedCommand :
    oneVarint.state = .busy ∧ oneVarint.platform.coherent = true ∧ decode oneVarint.cmd = .ok .varint
      ∧ oneVarint.inputs = [] ∧ { oneVarint with inputs := [.engine] }.inputs = .engine :: [] := by decide

theorem witness_OperandChecksInOrder_reserved :
    ∃ s : State, s.inputs = [] ∧ s.state = .busy ∧ s.platform.coherent = true ∧ OpcodeReserved s.cmd :=
  ⟨running [] 0x09 0, rfl, rfl, rfl, by unfold OpcodeReserved; decide⟩

theorem witness_OperandChecksInOrder_badArg :
    (∃ s : State, s.inputs = [] ∧ s.state = .busy ∧ s.platform.coherent = true ∧ ¬OpcodeReserved s.cmd
        ∧ IllegalForm s.cmd)
      ∧ (∃ s : State, s.inputs = [] ∧ s.state = .busy ∧ s.platform.coherent = true ∧ ¬OpcodeReserved s.cmd
        ∧ s.cmd.toNat % 2 ^ 8 = 3 ∧ s.arg0.getLsbD 0 = true)
      ∧ ∃ s : State, s.inputs = [] ∧ s.state = .busy ∧ s.platform.coherent = true ∧ ¬OpcodeReserved s.cmd
        ∧ ¬OperandsOk (elementSizeOf (BitVec.ofNat 8 s.cmd.toNat)) s :=
  ⟨⟨running [] 0x4102 0, rfl, rfl, rfl, by unfold OpcodeReserved; decide, by unfold IllegalForm; decide⟩,
    ⟨running [0x05] 0x0803 7, rfl, rfl, rfl, by unfold OpcodeReserved; decide, rfl, rfl⟩,
    ⟨running [] 0x01 0 1024 1, rfl, rfl, rfl, by unfold OpcodeReserved; decide,
      fun h => absurd h.cursorInWindow (by decide)⟩⟩

theorem witness_OperandChecksInOrder_pass :
    ∃ s t : State, s.inputs = [] ∧ s.state = .busy ∧ s.platform.coherent = true ∧ ¬OpcodeReserved s.cmd
      ∧ ¬IllegalForm s.cmd ∧ ¬(s.cmd.toNat % 2 ^ 8 = 3 ∧ s.arg0.getLsbD 0 = true)
      ∧ OperandsOk (elementSizeOf (BitVec.ofNat 8 s.cmd.toNat)) s ∧ step s = .next t :=
  ⟨oneVarint, oneVarintDone, rfl, rfl, rfl, by unfold OpcodeReserved; decide, by unfold IllegalForm; decide,
    by decide, (checkRegions_iff _ _).mp (by decide), rfl⟩

theorem witness_BlockAtRestTakesNoStep :
    State.reset.state ≠ .busy ∧ State.reset.inputs = []
      ∧ { State.reset with inputs := [.engine] }.inputs = .engine :: [] := by decide

theorem witness_BusyBlockCompletes : oneVarint.inputs = [] ∧ oneVarint.state = .busy
    ∧ oneVarint.platform.coherent = true ∧ oneVarint.platform.sideEffect = [] := by decide

theorem witness_BusyBlockCompletes_inv : ∃ s : State, s.inputs = [] ∧ s.state = .busy ∧ Inv s :=
  ⟨{ started with inputs := [] }, rfl, rfl, inv_started _⟩

theorem witness_ArgWriteRacesCompletion : oneVarint.state = .busy ∧ oneVarint.inReset = false
    ∧ oneVarint.platform.coherent = true ∧ decode oneVarint.cmd = .ok .varint
    ∧ ∃ t, exec .varint { oneVarint with inputs := [] } = .next t :=
  ⟨rfl, rfl, rfl, rfl, _, rfl⟩

theorem witness_RegisterReads : State.reset.inReset = false ∧ 0 < 32 ∧ 11 < 32 ∧ 31 < 32 := by decide

theorem witness_StatusWriteAndRead : oneVarintDone.inReset = false ∧ oneVarintDone.irqPending = true
    ∧ (0x10000 : Word).getLsbD 16 = true ∧ (0x20000 : Word).getLsbD 17 = true := by decide

theorem witness_ControlWriteOrder : oneVarint.inReset = false ∧ (0x7 : Word).getLsbD 2 = true
    ∧ ((0x2 : Word).getLsbD 2 = false ∧ (0x2 : Word).getLsbD 0 = false)
    ∧ ((0x3 : Word).getLsbD 2 = false ∧ (0x3 : Word).getLsbD 0 = true ∧ oneVarint.state = .busy)
    ∧ ((0x1 : Word).getLsbD 2 = false ∧ (0x1 : Word).getLsbD 0 = true ∧ State.reset.state ≠ .busy
        ∧ State.reset.inReset = false ∧ commandRefusal State.reset = none) := by decide

theorem witness_WritesWhileBusyAreIgnored : oneVarint.state = .busy ∧ oneVarint.inReset = false
    ∧ ((0x1 : Word).getLsbD 2 = false ∧ (0x1 : Word).getLsbD 0 = true)
    ∧ ((0x2 : Word).getLsbD 2 = false ∧ (0x2 : Word).getLsbD 0 = false) ∧ (0x7 : Word).getLsbD 2 = true := by decide

/-- Vector G9: a reset while BUSY leaves the output region at any value, the input window as it was. -/
theorem test_reset_while_busy : (resetBlock oneVarint).mem.read 0x8000 = Config.freeByte 0 0x8000
    ∧ (resetBlock oneVarint).mem.read 0x1000 = 0x05 := ⟨rfl, by decide⟩

/-- A command turned away leaves its output region at any value (93 I1). -/
theorem test_turned_away : ∃ t, exec (.rle 8) (running [0x05] 0x0803 7) = .next t
    ∧ t.mem.read 0x8000 = Config.freeByte 0 0x8000 ∧ t.mem.read 0x1000 = 0x05 :=
  ⟨_, rfl, rfl, by decide⟩

/-- Vector G7: a write of `CURSOR` while BUSY. -/
theorem witness_WritesWhileBusyAreIgnored_in_flight :
    ∃ s t : State, s.state = .busy ∧ step s = .next t ∧ t.state = .busy ∧ t.wrIgnored = true :=
  ⟨{ oneVarint with inputs := [.regWrite 0x30 8 9] }, _, rfl, rfl, rfl, rfl⟩

theorem witness_OperandRegistersStoreAllBits : State.reset.state ≠ .busy ∧ State.reset.inReset = false := by decide

theorem witness_ReadOnlyWritesAreIgnored : State.reset.inReset = false ∧ (0 = 0 ∨ (10 ≤ 0 ∧ 0 < 32))
    ∧ (10 = 0 ∨ (10 ≤ 10 ∧ 10 < 32)) ∧ (31 = 0 ∨ (10 ≤ 31 ∧ 31 < 32)) ∧ (12 ≤ 12 ∧ 12 < 32)
    ∧ (12 ≤ 31 ∧ 31 < 32) := by decide

theorem witness_RegisterAccessesRefused :
    { State.reset with inReset := true }.inReset = true ∧ State.reset.inReset = false
      ∧ (4 ≠ 8 ∨ (0x08 : BitVec 8).toNat % 8 ≠ 0) ∧ (8 ≠ 8 ∨ (0x0C : BitVec 8).toNat % 8 ≠ 0) := by decide

theorem witness_SoftResetClearsTheBlock : oneVarint.inReset = false ∧ (0x4 : Word).getLsbD 2 = true
    ∧ State.reset.inReset = false ∧ State.reset.state ≠ .busy := by decide

theorem witness_PowerOnReset_assert :
    { oneVarint with inputs := [.assertReset, .releaseReset] }.inputs = .assertReset :: .releaseReset :: []
      ∧ { State.reset with inputs := [.assertReset, .releaseReset] }.state ≠ .busy := by decide

/-- Reset asserted, with an event to come. -/
def heldInReset (inputs : List Event) : State := { State.reset with inReset := true, inputs := inputs }

theorem atResetValues_heldInReset (inputs : List Event) : AtResetValues (heldInReset inputs) :=
  ⟨rfl, rfl, rfl, rfl, rfl, rfl, rfl, rfl, rfl, rfl, rfl, rfl, rfl, rfl⟩

theorem witness_PowerOnReset_held : ∃ s t : State, s.inReset = true ∧ AtResetValues s ∧ step s = .next t
    ∧ t.inReset = true ∧ t.mem ≠ s.mem :=
  ⟨heldInReset [.memWrite 0x10 [7], .releaseReset], _, rfl, atResetValues_heldInReset _, rfl, rfl, by decide⟩

theorem witness_PowerOnReset_release : ∃ (s : State) (rest : List Event), s.inReset = true ∧ AtResetValues s
    ∧ s.inputs = .releaseReset :: rest ∧ rest = .engine :: [] :=
  ⟨heldInReset [.releaseReset, .engine], _, rfl, atResetValues_heldInReset _, rfl, rfl⟩

theorem witness_PowerOnReset_start : ∃ u v : State, u.state = .idle ∧ step u = .next v ∧ v.state ≠ .idle :=
  ⟨{ State.reset with inputs := [.regWrite 0x08 8 1] }, _, rfl, rfl, nofun⟩

theorem witness_CommandEndsDoneOrError : (∃ t, exec .varint oneVarint = .next t ∧ t.state = .done)
    ∧ ∃ t, exec .varint (running [0x80] 0x01 1) = .next t ∧ t.state = .error :=
  ⟨⟨_, rfl, rfl⟩, ⟨_, rfl, rfl⟩⟩

theorem witness_FailedCheckTurnsTheCommandAway :
    ¬OperandsOk (elementSize .varint) (running [] 0x01 0 1024 1)
      ∧ (∃ w, Instr.rle 8 = .rle w ∧ (running [0x05] 0x0803 7).arg0.getLsbD 0 = true) := by
  refine ⟨fun h => absurd h.cursorInWindow (by decide), 8, rfl, by decide⟩

theorem witness_FaultsOfEachCommand :
    (∃ t, exec .varint (running [0x80, 0x80, 0x80, 0x80, 0x80, 0x80, 0x80, 0x80, 0x80, 0x02] 0x01 1) = .next t
        ∧ t.state = .error ∧ t.fault = .malformed)
      ∧ ∃ t, exec (.rle 8) (running [0x05] 0x0803 7) = .next t ∧ t.state = .error ∧ t.fault = .badArg :=
  ⟨⟨_, rfl, rfl, rfl⟩, ⟨_, rfl, rfl, rfl⟩⟩

theorem witness_CompletionRaisesTheInterrupt : ∃ t, exec .varint oneVarint = .next t ∧ t.inReset = false :=
  ⟨_, rfl, rfl⟩

theorem witness_InterruptPendingBit_completion :
    ∃ s t : State, step s = .next t ∧ s.state = .busy ∧ s.irqEn = false ∧ t.state = .done :=
  ⟨oneVarint, oneVarintDone, rfl, rfl, rfl, rfl⟩

theorem witness_InterruptPendingBit_write :
    ∃ s t : State, step s = .next t ∧ s.irqPending = true ∧ t.irqPending = false :=
  ⟨{ oneVarintDone with inputs := [.regWrite 0x10 8 0x10000] }, _, rfl, rfl, rfl⟩

theorem witness_InterruptPendingBit_same_instant :
    ∃ (s t : State) (w : Word) (rest : List Event), s.inputs = .engineWithStatusWrite w :: rest ∧ s.state = .busy
      ∧ step s = .next t ∧ w.getLsbD 16 = true :=
  ⟨{ oneVarint with inputs := [.engineWithStatusWrite 0x10000] }, _, 0x10000, [], rfl, rfl, rfl, rfl⟩

/-- Vector of a read, and of a write, that answers with an error. -/
def withBusError (kind : Access) (a : Nat) (s : State) : State :=
  { s with platform := { s.platform with busErr := [⟨⟨a, a + 1⟩, kind⟩] } }

theorem witness_BusErrorFailsTheCommand_read :
    ∃ t, exec .varint { withBusError .read 0x1000 oneVarint with
        platform := { (withBusError .read 0x1000 oneVarint).platform with busErr := [] } } = .next t
      ∧ t.state = .done
      ∧ ∃ b ∈ (withBusError .read 0x1000 oneVarint).platform.busErr, ∃ a, b.range.lo ≤ a ∧ a < b.range.hi
        ∧ b.kind = .read ∧ oneVarint.inBase.toNat + oneVarint.cursor.toNat ≤ a
        ∧ a < oneVarint.inBase.toNat + t.cursor.toNat :=
  ⟨_, rfl, rfl, ⟨⟨0x1000, 0x1001⟩, .read⟩, by decide, 0x1000, by decide, by decide, rfl, by decide, by decide⟩

theorem witness_BusErrorFailsTheCommand_write :
    ∃ t, exec .varint { withBusError .write 0x8007 oneVarint with
        platform := { (withBusError .write 0x8007 oneVarint).platform with busErr := [] } } = .next t
      ∧ t.state = .done
      ∧ ∃ b ∈ (withBusError .write 0x8007 oneVarint).platform.busErr, ∃ a, b.range.lo ≤ a ∧ a < b.range.hi
        ∧ b.kind = .write ∧ oneVarint.outBase.toNat ≤ a
        ∧ a < oneVarint.outBase.toNat + t.outCount.toNat * elementSize .varint :=
  ⟨_, rfl, rfl, ⟨⟨0x8007, 0x8008⟩, .write⟩, by decide, 0x8007, by decide, by decide, rfl, by decide, by decide⟩

theorem witness_CommandsThePlatformRefuses :
    (∃ (s : State) (r : AddrRange) (a : Nat), Instr.wellFormed .varint = true ∧ checkRleHeader .varint s = true
        ∧ OperandsOk (elementSize .varint) s ∧ r ∈ s.platform.sideEffect ∧ r.lo ≤ a ∧ a < r.hi
        ∧ (s.inBase.toNat ≤ a ∧ a < s.inBase.toNat + s.inLen.toNat) ∧ decode s.cmd = .ok .varint
        ∧ s.platform.coherent = true ∧ s.inReset = false ∧ s.state ≠ .busy)
      ∧ (∃ s : State, s.platform.coherent = false ∧ s.inputs = [] ∧ s.state = .busy)
      ∧ (∃ s : State, s.platform.coherent = false ∧ s.inReset = false ∧ s.state ≠ .busy)
      ∧ (0x1 : Word).getLsbD 2 = false ∧ (0x1 : Word).getLsbD 0 = true :=
  ⟨⟨{ oneVarint with
        state := .idle, platform := { busErr := [], sideEffect := [⟨0x1000, 0x1001⟩], coherent := true } }, _, 0x1000,
      rfl, rfl, (checkRegions_iff _ _).mp (by decide), List.mem_singleton.mpr rfl, by decide, by decide,
      ⟨by decide, by decide⟩, rfl, rfl, rfl, nofun⟩,
    ⟨{ oneVarint with platform := { busErr := [], sideEffect := [], coherent := false } }, rfl, rfl, rfl⟩,
    ⟨{ State.reset with platform := { busErr := [], sideEffect := [], coherent := false } }, rfl, rfl, nofun⟩, rfl, rfl⟩

theorem witness_VarintDecodesItsInput : ∃ (s : State) (values : List Nat) (input : List Byte), Undisturbed 8 s
    ∧ s.arg0.toNat = values.length ∧ values.length ≤ s.outCap.toNat ∧ VarintsLaid values input ∧ InputAt s input :=
  ⟨oneVarint, [5], bytes [0x05], undisturbed_of rfl (by decide), rfl, by decide,
    ⟨bytes [0x05], [], rfl, isVarint_05, rfl⟩, by decide, by decide⟩

theorem witness_VarintRoundTrip : 2 ^ 64 - 1 < 2 ^ 64 ∧ ∃ s : State, Undisturbed 8 s ∧ s.arg0.toNat = 1
    ∧ 1 ≤ s.outCap.toNat ∧ InputAt s (varintEncode (2 ^ 64 - 1)) :=
  ⟨by decide, running [0xFF, 0xFF, 0xFF, 0xFF, 0xFF, 0xFF, 0xFF, 0xFF, 0xFF, 0x01] 0x01 1,
    undisturbed_of rfl (by decide), rfl, by decide, by decide, by decide⟩

theorem witness_BitunpackUnpacksARun : ∃ s : State, (64#8).toNat ≤ 64 ∧ Undisturbed 8 s
    ∧ s.arg0.toNat / 2 * 8 ≤ s.outCap.toNat
    ∧ s.cursor.toNat + s.arg0.toNat / 2 * (64#8).toNat ≤ s.inLen.toNat ∧ 0 < s.arg0.toNat / 2 :=
  ⟨running (List.replicate 64 0xA5) 0x4002 3, by decide, undisturbed_of rfl (by decide), by decide, by decide,
    by decide⟩

theorem isPacked_b1 : IsPacked 3 [0, 1, 2, 3, 4, 5, 6, 7] (bytes [0x88, 0xC6, 0xFA]) :=
  ⟨by decide, by decide, by decide⟩

theorem witness_BitPackingRoundTrip : ∃ (s : State) (values : List Nat) (input : List Byte), (3#8).toNat ≤ 64
    ∧ Undisturbed 8 s ∧ IsPacked (3#8).toNat values input ∧ values.length = s.arg0.toNat / 2 * 8
    ∧ values.length ≤ s.outCap.toNat ∧ InputAt s input :=
  ⟨running [0x88, 0xC6, 0xFA] 0x0302 3, _, _, by decide, undisturbed_of rfl (by decide), isPacked_b1, rfl, by decide,
    by decide, by decide⟩

theorem witness_RleRepeatsItsValue : ∃ s : State, (32#8).toNat ≤ 32 ∧ Undisturbed 4 s ∧ s.arg0.getLsbD 0 = false
    ∧ s.arg0.toNat / 2 ≤ s.outCap.toNat ∧ s.cursor.toNat + ((32#8).toNat + 7) / 8 ≤ s.inLen.toNat :=
  ⟨running [0x78, 0x56, 0x34, 0x12] 0x2003 2, by decide, undisturbed_of rfl (by decide), by decide, by decide,
    by decide⟩

/-- The runs of vector H4. -/
theorem runsLaid_h4 : RunsLaid 3 [.rle 2 (bytes [0x01]), .packed [0, 1, 2, 3, 4, 5, 6, 7]]
    (bytes [0x04, 0x01, 0x03, 0x88, 0xC6, 0xFA]) :=
  ⟨bytes [0x04, 0x01], bytes [0x03, 0x88, 0xC6, 0xFA], rfl, ⟨bytes [0x04], rfl, isVarint_byte 4 (by decide), rfl⟩,
    bytes [0x03, 0x88, 0xC6, 0xFA], [], rfl,
    ⟨bytes [0x03], bytes [0x88, 0xC6, 0xFA], 1, rfl, isVarint_byte 3 (by decide), rfl, isPacked_b1⟩, rfl⟩

theorem witness_HybridDecodesItsRuns_prefix : ∃ (s : State) (runs : List HybridRun) (lead input : List Byte),
    (3#8).toNat ≤ 32 ∧ Undisturbed 4 s ∧ RunsLaid (3#8).toNat runs input ∧ input.length < 2 ^ 31
      ∧ lead = bytesOf 4 input.length ∧ InputAt s (lead ++ input)
      ∧ (runs.flatMap HybridRun.values).length ≤ s.outCap.toNat :=
  ⟨running [0x06, 0, 0, 0, 0x04, 0x01, 0x03, 0x88, 0xC6, 0xFA] 0x0304 0, _, _, _, by decide,
    undisturbed_of rfl (by decide), runsLaid_h4, by decide, rfl, ⟨by decide, by decide⟩, by decide⟩

theorem witness_HybridDecodesItsRuns_lenx : ∃ (s : State) (runs : List HybridRun) (input : List Byte),
    (3#8).toNat ≤ 32 ∧ Undisturbed 4 s ∧ RunsLaid (3#8).toNat runs input ∧ s.arg0.toNat = input.length
      ∧ InputAt s ([] ++ input) ∧ (runs.flatMap HybridRun.values).length ≤ s.outCap.toNat :=
  ⟨running [0x04, 0x01, 0x03, 0x88, 0xC6, 0xFA] 0x10304 6, _, _, by decide, undisturbed_of rfl (by decide),
    runsLaid_h4, by decide, ⟨by decide, by decide⟩, by decide⟩

/-- The stream of vector D4, whose block has one mini-block of width 3. -/
theorem deltaStream_d4 (w : Nat) (h : 3 ≤ w) : DeltaStream w 8 1 5 2 [⟨1, [(0x03, [3, 0, 4, 0, 0, 0, 0, 0])]⟩]
    (bytes [0x08, 0x01, 0x05, 0x02, 0x01, 0x03, 0x03, 0x01, 0x00]) where
  laid := ⟨bytes [8], bytes [1], bytes [5], bytes [2], bytes [0x01, 0x03, 0x03, 0x01, 0x00], rfl,
    isVarint_byte 8 (by decide), isVarint_byte 1 (by decide), isVarint_byte 5 (by decide), isVarint_byte 2 (by decide),
    bytes [0x01, 0x03, 0x03, 0x01, 0x00], [], rfl,
    ⟨bytes [1], bytes [0x03, 0x01, 0x00], rfl, isVarint_byte 1 (by decide), rfl,
      bytes [0x03, 0x01, 0x00], [], rfl, h, rfl, ⟨by decide, by decide, by decide⟩, rfl⟩, rfl⟩
  someMiniBlocks := by decide
  someValues := by decide
  even := by decide
  groups := by decide
  enough := by decide
  least := by decide

theorem witness_Delta32DecodesItsStream : ∃ (s : State) (blocks : List DeltaBlock) (input : List Byte),
    Undisturbed 4 s ∧ DeltaStream 32 8 1 5 2 blocks input ∧ InputAt s input ∧ 5 ≤ s.outCap.toNat :=
  ⟨running [0x08, 0x01, 0x05, 0x02, 0x01, 0x03, 0x03, 0x01, 0x00] 0x05 0, _, _, undisturbed_of rfl (by decide),
    deltaStream_d4 32 (by decide), ⟨by decide, by decide⟩, by decide⟩

theorem witness_Delta64DecodesItsStream : ∃ (s : State) (blocks : List DeltaBlock) (input : List Byte),
    Undisturbed 8 s ∧ DeltaStream 64 8 1 5 2 blocks input ∧ InputAt s input ∧ 5 ≤ s.outCap.toNat :=
  ⟨running [0x08, 0x01, 0x05, 0x02, 0x01, 0x03, 0x03, 0x01, 0x00] 0x06 0, _, _, undisturbed_of rfl (by decide),
    deltaStream_d4 64 (by decide), ⟨by decide, by decide⟩, by decide⟩

theorem witness_ByteStreamSplitGathersPlanes :
    (∃ s : State, Undisturbed 4 s ∧ s.arg0.toNat ≤ s.outCap.toNat
        ∧ s.cursor.toNat + s.arg0.toNat * 4 ≤ s.inLen.toNat ∧ 0 < s.arg0.toNat)
      ∧ ∃ s : State, Undisturbed 8 s ∧ s.arg0.toNat ≤ s.outCap.toNat
        ∧ s.cursor.toNat + s.arg0.toNat * 8 ≤ s.inLen.toNat ∧ 0 < s.arg0.toNat :=
  ⟨⟨running [1, 0, 0xC0, 0x7F] 0x07 1, undisturbed_of rfl (by decide), by decide, by decide, by decide⟩,
    ⟨running [1, 2, 3, 4, 5, 6, 7, 8] 0x08 1, undisturbed_of rfl (by decide), by decide, by decide, by decide⟩⟩

/-- The planes of vector T1. -/
theorem isPlanes_t1 : IsPlanes 4 [0x3F800000, 0xC0200000, 0x7FC00000]
    (bytes [0, 0, 0, 0, 0, 0, 0x80, 0x20, 0xC0, 0x3F, 0xC0, 0x7F]) :=
  ⟨by decide, by decide, by decide⟩

/-- The planes of vector T5. -/
theorem isPlanes_t5 : IsPlanes 8 [0x0807060504030201] (bytes [1, 2, 3, 4, 5, 6, 7, 8]) :=
  ⟨by decide, by decide, by decide⟩

theorem witness_ByteStreamSplitRoundTrip :
    (∃ (s : State) (values : List Nat) (input : List Byte), Undisturbed 4 s ∧ IsPlanes 4 values input
        ∧ s.arg0.toNat = values.length ∧ values.length ≤ s.outCap.toNat ∧ InputAt s input)
      ∧ ∃ (s : State) (values : List Nat) (input : List Byte), Undisturbed 8 s ∧ IsPlanes 8 values input
        ∧ s.arg0.toNat = values.length ∧ values.length ≤ s.outCap.toNat ∧ InputAt s input :=
  ⟨⟨running [0, 0, 0, 0, 0, 0, 0x80, 0x20, 0xC0, 0x3F, 0xC0, 0x7F] 0x07 3, _, _, undisturbed_of rfl (by decide),
      isPlanes_t1, rfl, by decide, ⟨by decide, by decide⟩⟩,
    ⟨running [1, 2, 3, 4, 5, 6, 7, 8] 0x08 1, _, _, undisturbed_of rfl (by decide), isPlanes_t5, rfl, by decide,
      ⟨by decide, by decide⟩⟩⟩

/-- The other memory differs in the byte just past the region, which is still in the window. -/
theorem witness_HybridIsASubStream :
    (∃ (s t : State) (m : Memory), NoBusErrors 4 s ∧ 6 = s.cursor.toNat
          + (4 + littleEndian (s.mem.readBytes (s.inBase.toNat + s.cursor.toNat) 4))
        ∧ 6 ≤ s.inLen.toNat ∧ exec (.hybrid 8 false) s = .next t
        ∧ (∀ a, s.inBase.toNat + s.cursor.toNat ≤ a → a < s.inBase.toNat + 6 → m.read a = s.mem.read a)
        ∧ m.read 0x1006 ≠ s.mem.read 0x1006 ∧ t.state = .done)
      ∧ ∃ s t : State, NoBusErrors 4 s ∧ 2 = s.cursor.toNat + s.arg0.toNat ∧ 2 ≤ s.inLen.toNat ∧ exec (.hybrid 8 true) s = .next t
        ∧ t.state = .done := by
  refine ⟨⟨running [0x02, 0, 0, 0, 0x06, 0x05, 0xFF] 0x0804 0, _,
      (running [0x02, 0, 0, 0, 0x06, 0x05, 0xFF] 0x0804 0).mem.writeByte 0x1006 7, ⟨nofun, nofun⟩, by decide, by decide, rfl, ?_,
      by decide, rfl⟩, running [0x06, 0x05, 0xFF] 0x10804 2, _, ⟨nofun, nofun⟩, by decide, by decide, rfl, rfl⟩
  intro a _ h2
  have h3 : (running [0x02, 0, 0, 0, 0x06, 0x05, 0xFF] 0x0804 0).inBase.toNat = 0x1000 := by decide
  exact Memory.read_writeByte_other _ _ (by omega)

theorem witness_CountBeyondCapacityFaults :
    (∃ s : State, s.arg0.toNat = 2 ∧ Undisturbed (elementSize .varint) s ∧ s.outCap.toNat < 2)
      ∧ (∃ s : State, (64#8).toNat ≤ 64 ∧ s.arg0.toNat / 2 * 8 = 8 ∧ Undisturbed (elementSize (.bitunpack 64)) s
        ∧ s.outCap.toNat < 8)
      ∧ (∃ s : State, (32#8).toNat ≤ 32 ∧ s.arg0.getLsbD 0 = false ∧ s.arg0.toNat / 2 = 3
        ∧ Undisturbed (elementSize (.rle 32)) s ∧ s.outCap.toNat < 3)
      ∧ (∃ s : State, s.arg0.toNat = 3 ∧ Undisturbed (elementSize .bss32) s ∧ s.outCap.toNat < 3)
      ∧ ∃ s : State, s.arg0.toNat = 3 ∧ Undisturbed (elementSize .bss64) s ∧ s.outCap.toNat < 3 :=
  ⟨⟨running [1, 2] 0x01 2 1, rfl, undisturbed_of rfl (by decide), by decide⟩,
    ⟨running [] 0x4002 3 7, by decide, rfl, undisturbed_of rfl (by decide), by decide⟩,
    ⟨running [5] 0x2003 6 2, by decide, by decide, rfl, undisturbed_of rfl (by decide), by decide⟩,
    ⟨running [] 0x07 3 2, rfl, undisturbed_of rfl (by decide), by decide⟩,
    ⟨running [] 0x08 3 2, rfl, undisturbed_of rfl (by decide), by decide⟩⟩

theorem witness_ShortInputFaults :
    (∃ s : State, (64#8).toNat ≤ 64 ∧ Undisturbed (elementSize (.bitunpack 64)) s
        ∧ s.arg0.toNat / 2 * 8 ≤ s.outCap.toNat ∧ s.inLen.toNat < s.cursor.toNat + s.arg0.toNat / 2 * (64#8).toNat)
      ∧ (∃ s : State, (9#8).toNat ≤ 32 ∧ s.arg0.getLsbD 0 = false ∧ Undisturbed (elementSize (.rle 9)) s
        ∧ s.arg0.toNat / 2 ≤ s.outCap.toNat ∧ s.inLen.toNat < s.cursor.toNat + ((9#8).toNat + 7) / 8)
      ∧ (∃ s : State, Undisturbed (elementSize .bss32) s ∧ s.arg0.toNat ≤ s.outCap.toNat
        ∧ s.inLen.toNat < s.cursor.toNat + s.arg0.toNat * 4)
      ∧ ∃ s : State, Undisturbed (elementSize .bss64) s ∧ s.arg0.toNat ≤ s.outCap.toNat
        ∧ s.inLen.toNat < s.cursor.toNat + s.arg0.toNat * 8 :=
  ⟨⟨running [0x88, 0xC6] 0x4002 3, by decide, undisturbed_of rfl (by decide), by decide, by decide⟩,
    ⟨running [0x34] 0x0903 4, by decide, by decide, undisturbed_of rfl (by decide), by decide, by decide⟩,
    ⟨running [1, 2, 3] 0x07 1, undisturbed_of rfl (by decide), by decide, by decide⟩,
    ⟨running [1, 2, 3, 4, 5, 6, 7] 0x08 1, undisturbed_of rfl (by decide), by decide, by decide⟩⟩

theorem witness_OverlongVarintFaults :
    ∃ (s : State) (values : List Nat) (before nine : List Byte) (tenth : Byte), Undisturbed 8 s
      ∧ values.length < s.arg0.toNat ∧ s.arg0.toNat ≤ s.outCap.toNat ∧ VarintsLaid values before ∧ nine.length = 9
      ∧ (∀ b ∈ nine, 0x80 ≤ b.toNat) ∧ 0x02 ≤ tenth.toNat ∧ InputAt s (before ++ nine ++ [tenth]) :=
  ⟨running [0x05, 0x80, 0x80, 0x80, 0x80, 0x80, 0x80, 0x80, 0x80, 0x80, 0x02] 0x01 2, [5], bytes [0x05],
    List.replicate 9 0x80, 0x02, undisturbed_of rfl (by decide), by decide, by decide,
    ⟨bytes [0x05], [], rfl, isVarint_05, rfl⟩, rfl, by decide, by decide, ⟨by decide, by decide⟩⟩

theorem witness_UnterminatedVarintFaults :
    (∃ (s : State) (values : List Nat) (before open_ : List Byte), Undisturbed 8 s ∧ values.length < s.arg0.toNat
        ∧ s.arg0.toNat ≤ s.outCap.toNat ∧ VarintsLaid values before ∧ open_.length < 10
        ∧ (∀ b ∈ open_, 0x80 ≤ b.toNat) ∧ InputAt s (before ++ open_)
        ∧ s.cursor.toNat + before.length + open_.length = s.inLen.toNat ∧ open_.length = 9)
      ∧ ∃ (s : State) (values : List Nat) (before open_ : List Byte), Undisturbed 8 s ∧ values.length < s.arg0.toNat
        ∧ s.arg0.toNat ≤ s.outCap.toNat ∧ VarintsLaid values before ∧ open_.length < 10
        ∧ (∀ b ∈ open_, 0x80 ≤ b.toNat) ∧ InputAt s (before ++ open_)
        ∧ s.cursor.toNat + before.length + open_.length = s.inLen.toNat ∧ open_.length = 0 :=
  ⟨⟨running [0x80, 0x80, 0x80, 0x80, 0x80, 0x80, 0x80, 0x80, 0x80] 0x01 1, [], [], List.replicate 9 0x80,
      undisturbed_of rfl (by decide), by decide, by decide, rfl, by decide, by decide, ⟨by decide, by decide⟩, rfl,
      rfl⟩,
    ⟨running [0x05] 0x01 2, [5], bytes [0x05], [], undisturbed_of rfl (by decide), by decide, by decide,
      ⟨bytes [0x05], [], rfl, isVarint_05, rfl⟩, by decide, by decide, ⟨by decide, by decide⟩, rfl, rfl⟩⟩

theorem witness_HybridPrefixFaults_lenx : ∃ s : State, Undisturbed 4 s ∧ s.inLen.toNat < s.cursor.toNat + s.arg0.toNat :=
  ⟨running [0x06, 0x05] 0x10804 3, undisturbed_of rfl (by decide), by decide⟩

theorem witness_HybridPrefixFaults : (32#8).toNat ≤ 32
    ∧ (∃ s : State, Undisturbed 4 s ∧ s.inLen.toNat < s.cursor.toNat + 4)
    ∧ (∃ s : State, Undisturbed 4 s ∧ InputAt s (bytesOf 4 (0x80000000#32).toNat) ∧ (0x80000000#32).toInt < 0)
    ∧ (∃ s : State, Undisturbed 4 s ∧ InputAt s (bytesOf 4 (0x7FFFFFFF#32).toNat) ∧ 0 ≤ (0x7FFFFFFF#32).toInt
        ∧ s.inLen.toNat < s.cursor.toNat + 4 + (0x7FFFFFFF#32).toNat)
    ∧ ∃ s : State, Undisturbed 4 s ∧ InputAt s (bytesOf 4 (1#32).toNat) ∧ 0 ≤ (1#32).toInt
        ∧ s.inLen.toNat < s.cursor.toNat + 4 + (1#32).toNat :=
  ⟨by decide, ⟨running [2, 0, 0] 0x2004 0, undisturbed_of rfl (by decide), by decide⟩,
    ⟨running [0, 0, 0, 0x80] 0x2004 0, undisturbed_of rfl (by decide), ⟨by decide, by decide⟩, by decide⟩,
    ⟨running [0xFF, 0xFF, 0xFF, 0x7F] 0x2004 0, undisturbed_of rfl (by decide), ⟨by decide, by decide⟩, by decide,
      by decide⟩,
    ⟨running [1, 0, 0, 0] 0x2004 0, undisturbed_of rfl (by decide), ⟨by decide, by decide⟩, by decide, by decide⟩⟩

/-- The hypotheses that the clauses of `HybridRunFaults` share, for a region with a prefix after the run `04 01` of width
8. -/
def HybridRunMet (s : State) (len : Nat) (header : List Byte) : Prop :=
  (8#8).toNat ≤ 32 ∧ Undisturbed 4 s ∧ RunsLaid (8#8).toNat [.rle 2 (bytes [0x01])] (bytes [0x04, 0x01]) ∧ len < 2 ^ 31
    ∧ s.cursor.toNat + (bytesOf 4 len).length + len ≤ s.inLen.toNat
    ∧ InputAt s (bytesOf 4 len ++ bytes [0x04, 0x01] ++ header)
    ∧ (([.rle 2 (bytes [0x01])] : List HybridRun).flatMap HybridRun.values).length ≤ s.outCap.toNat

theorem hybridRunMet (s : State) (len : Nat) (header : List Byte) (hp : s.platform = State.reset.platform)
    (hc : checkRegions 4 s = true) (hlen : len < 2 ^ 31)
    (hw : s.cursor.toNat + (bytesOf 4 len).length + len ≤ s.inLen.toNat)
    (hi : InputAt s (bytesOf 4 len ++ bytes [0x04, 0x01] ++ header)) (hcap : 2 ≤ s.outCap.toNat) :
    HybridRunMet s len header :=
  ⟨by decide, undisturbed_of hp hc,
    ⟨bytes [0x04, 0x01], [], rfl, ⟨bytes [0x04], rfl, isVarint_byte 4 (by decide), rfl⟩, rfl⟩, hlen, hw, hi, hcap⟩

theorem witness_HybridRunFaults :
    (HybridRunMet (running [3, 0, 0, 0, 0x04, 0x01, 0x80, 0x01] 0x0804 0) 3 (bytes [0x80])
        ∧ (∀ b ∈ bytes [0x80], 0x80 ≤ b.toNat))
      ∧ (HybridRunMet (running [12, 0, 0, 0, 0x04, 0x01, 0x80, 0x80, 0x80, 0x80, 0x80, 0x80, 0x80, 0x80, 0x80, 0x02]
          0x0804 0) 12 (List.replicate 9 0x80 ++ [0x02]))
      ∧ (HybridRunMet (running [3, 0, 0, 0, 0x04, 0x01, 0x06] 0x0804 0 2) 3 (bytes [0x06]) ∧ IsVarint (bytes [0x06]) 6)
      ∧ HybridRunMet (running [3, 0, 0, 0, 0x04, 0x01, 0x06, 0x05] 0x0804 0) 3 (bytes [0x06])
      ∧ HybridRunMet (running [4, 0, 0, 0, 0x04, 0x01, 0x03, 0x05, 0x05] 0x0804 0) 4 (bytes [0x03])
      ∧ IsVarint (bytes [0x03]) 3 := by
  refine ⟨⟨?_, by decide⟩, ?_, ⟨?_, isVarint_byte 6 (by decide)⟩, ?_, ?_, isVarint_byte 3 (by decide)⟩ <;>
    exact hybridRunMet _ _ _ rfl (by decide) (by decide) (by decide) ⟨by decide, by decide⟩ (by decide)

theorem witness_HybridRunFaults_lenx : ∃ s : State, (8#8).toNat ≤ 32 ∧ Undisturbed 4 s ∧ RunsLaid (8#8).toNat [] []
    ∧ s.arg0.toNat = 1 ∧ s.cursor.toNat + 0 + 1 ≤ s.inLen.toNat ∧ InputAt s ([] ++ [] ++ bytes [0x06]) :=
  ⟨running [0x06] 0x10804 1, by decide, undisturbed_of rfl (by decide), rfl, by decide, by decide,
    ⟨by decide, by decide⟩⟩

/-- The first three header varints of a delta stream, then one left open: over-long, or cut at the window's end. -/
theorem witness_DeltaVarintFaults_header :
    (∃ s : State, Undisturbed (elementSize .delta32) s ∧ VarintsLaid [8, 1, 5] (bytes [8, 1, 5])
        ∧ InputAt s (bytes [8, 1, 5] ++ (List.replicate 9 0x80 ++ [0x02])))
      ∧ ∃ s : State, Undisturbed (elementSize .delta64) s ∧ VarintsLaid [8, 1, 5] (bytes [8, 1, 5])
        ∧ InputAt s (bytes [8, 1, 5] ++ bytes [0x80])
        ∧ s.cursor.toNat + (bytes [8, 1, 5]).length + (bytes [0x80]).length = s.inLen.toNat :=
  have hlaid : VarintsLaid [8, 1, 5] (bytes [8, 1, 5]) :=
    ⟨bytes [8], bytes [1, 5], rfl, isVarint_byte 8 (by decide), bytes [1], bytes [5], rfl, isVarint_byte 1 (by decide),
      bytes [5], [], rfl, isVarint_byte 5 (by decide), rfl⟩
  ⟨⟨running [8, 1, 5, 0x80, 0x80, 0x80, 0x80, 0x80, 0x80, 0x80, 0x80, 0x80, 0x02] 0x05 0, undisturbed_of rfl (by decide),
      hlaid, ⟨by decide, by decide⟩⟩,
    ⟨running [8, 1, 5, 0x80] 0x06 0, undisturbed_of rfl (by decide), hlaid, ⟨by decide, by decide⟩, rfl⟩⟩

/-- The `minDelta` of the second block left open, after the block `00 00` of width 0. -/
theorem witness_DeltaVarintFaults_minDelta : ∃ s : State, Undisturbed (elementSize .delta32) s
    ∧ VarintsLaid [8, 1, 10, 6] (bytes [8, 1, 10, 6]) ∧ 8 % 1 = 0 ∧ 8 / 1 % 8 = 0 ∧ 10 ≤ s.outCap.toNat
    ∧ BlocksLaid 32 1 (8 / 1) [⟨0, [(0x00, [0, 0, 0, 0, 0, 0, 0, 0])]⟩] (bytes [0, 0]) ∧ 1 + 1 * 8 < 10
    ∧ InputAt s (bytes [8, 1, 10, 6, 0, 0] ++ bytes [0x80])
    ∧ s.cursor.toNat + (bytes [8, 1, 10, 6, 0, 0]).length + (bytes [0x80]).length = s.inLen.toNat :=
  ⟨running [8, 1, 10, 6, 0, 0, 0x80] 0x05 0, undisturbed_of rfl (by decide),
    ⟨bytes [8], bytes [1, 10, 6], rfl, isVarint_byte 8 (by decide), bytes [1], bytes [10, 6], rfl,
      isVarint_byte 1 (by decide), bytes [10], bytes [6], rfl, isVarint_byte 10 (by decide), bytes [6], [], rfl,
      isVarint_byte 6 (by decide), rfl⟩, by decide, by decide, by decide,
    ⟨bytes [0, 0], [], rfl, ⟨bytes [0], [], rfl, isVarint_byte 0 (by decide), rfl, [], [], rfl, by decide, rfl,
      ⟨by decide, by decide, by decide⟩, rfl⟩, rfl⟩, by decide, ⟨by decide, by decide⟩, rfl⟩

/-- The hypotheses of `DeltaHeaderFaults` that both its clauses share, for one-byte varints. -/
def DeltaHeaderMet (i : Instr) (s : State) (b m n f : Nat) : Prop :=
  Undisturbed (elementSize i) s ∧ IsVarint (bytes [b]) b ∧ IsVarint (bytes [m]) m ∧ IsVarint (bytes [n]) n
    ∧ IsVarint (bytes [f]) f ∧ InputAt s (bytes [b] ++ bytes [m] ++ bytes [n] ++ bytes [f])

theorem deltaHeaderMet (i : Instr) (s : State) (b m n f : Nat) (hb : b < 128) (hm : m < 128) (hn : n < 128)
    (hf : f < 128) (hp : s.platform = State.reset.platform) (hc : checkRegions (elementSize i) s = true)
    (hi : InputAt s (bytes [b] ++ bytes [m] ++ bytes [n] ++ bytes [f])) : DeltaHeaderMet i s b m n f :=
  ⟨undisturbed_of hp hc, isVarint_byte b hb, isVarint_byte m hm, isVarint_byte n hn, isVarint_byte f hf, hi⟩

theorem witness_DeltaHeaderFaults_delta32 :
    (DeltaHeaderMet .delta32 (running [8, 0, 5, 6] 0x05 0) 8 0 5 6 ∧ 0 = 0)
      ∧ (DeltaHeaderMet .delta32 (running [0, 1, 1, 6] 0x05 0) 0 1 1 6 ∧ 0 = 0)
      ∧ (DeltaHeaderMet .delta32 (running [8, 3, 5, 6] 0x05 0) 8 3 5 6 ∧ 8 % 3 ≠ 0)
      ∧ (DeltaHeaderMet .delta32 (running [8, 2, 5, 6] 0x05 0) 8 2 5 6 ∧ 8 / 2 % 8 ≠ 0)
      ∧ DeltaHeaderMet .delta32 (running [8, 1, 5, 6] 0x05 0 4) 8 1 5 6 ∧ 8 % 1 = 0 ∧ 8 / 1 % 8 = 0
        ∧ (running [8, 1, 5, 6] 0x05 0 4).outCap.toNat < 5 := by
  refine ⟨⟨?_, by decide⟩, ⟨?_, by decide⟩, ⟨?_, by decide⟩, ⟨?_, by decide⟩, ?_, by decide, by decide, by decide⟩ <;>
    exact deltaHeaderMet _ _ _ _ _ _ (by decide) (by decide) (by decide) (by decide) rfl (by decide)
      ⟨by decide, by decide⟩

theorem witness_DeltaHeaderFaults_delta64 :
    (DeltaHeaderMet .delta64 (running [8, 0, 5, 6] 0x06 0) 8 0 5 6 ∧ 0 = 0)
      ∧ (DeltaHeaderMet .delta64 (running [0, 1, 1, 6] 0x06 0) 0 1 1 6 ∧ 0 = 0)
      ∧ (DeltaHeaderMet .delta64 (running [8, 3, 5, 6] 0x06 0) 8 3 5 6 ∧ 8 % 3 ≠ 0)
      ∧ (DeltaHeaderMet .delta64 (running [8, 2, 5, 6] 0x06 0) 8 2 5 6 ∧ 8 / 2 % 8 ≠ 0)
      ∧ DeltaHeaderMet .delta64 (running [8, 1, 5, 6] 0x06 0 4) 8 1 5 6 ∧ 8 % 1 = 0 ∧ 8 / 1 % 8 = 0
        ∧ (running [8, 1, 5, 6] 0x06 0 4).outCap.toNat < 5 := by
  refine ⟨⟨?_, by decide⟩, ⟨?_, by decide⟩, ⟨?_, by decide⟩, ⟨?_, by decide⟩, ?_, by decide, by decide, by decide⟩ <;>
    exact deltaHeaderMet _ _ _ _ _ _ (by decide) (by decide) (by decide) (by decide) rfl (by decide)
      ⟨by decide, by decide⟩

theorem witness_DeltaWidthFaults_delta32 : ∃ s : State, Undisturbed (elementSize .delta32) s ∧ IsVarint (bytes [8]) 8
    ∧ IsVarint (bytes [1]) 1 ∧ IsVarint (bytes [5]) 5 ∧ IsVarint (bytes [6]) 6 ∧ IsVarint (bytes [0]) 0
    ∧ (bytes [33]).length = 1 ∧ 8 % 1 = 0 ∧ 8 / 1 % 8 = 0 ∧ 5 ≤ s.outCap.toNat ∧ (∃ b ∈ bytes [33], 32 < b.toNat)
    ∧ InputAt s (bytes [8] ++ bytes [1] ++ bytes [5] ++ bytes [6] ++ bytes [0] ++ bytes [33]) :=
  ⟨running [8, 1, 5, 6, 0, 33] 0x05 0, undisturbed_of rfl (by decide), isVarint_byte 8 (by decide),
    isVarint_byte 1 (by decide), isVarint_byte 5 (by decide), isVarint_byte 6 (by decide), isVarint_byte 0 (by decide),
    rfl, by decide, by decide, by decide, by decide, ⟨by decide, by decide⟩⟩

theorem witness_DeltaWidthFaults_delta64 : ∃ s : State, Undisturbed (elementSize .delta64) s ∧ IsVarint (bytes [8]) 8
    ∧ IsVarint (bytes [1]) 1 ∧ IsVarint (bytes [5]) 5 ∧ IsVarint (bytes [6]) 6 ∧ IsVarint (bytes [0]) 0
    ∧ (bytes [65]).length = 1 ∧ 8 % 1 = 0 ∧ 8 / 1 % 8 = 0 ∧ 5 ≤ s.outCap.toNat ∧ (∃ b ∈ bytes [65], 64 < b.toNat)
    ∧ InputAt s (bytes [8] ++ bytes [1] ++ bytes [5] ++ bytes [6] ++ bytes [0] ++ bytes [65]) :=
  ⟨running [8, 1, 5, 6, 0, 65] 0x06 0, undisturbed_of rfl (by decide), isVarint_byte 8 (by decide),
    isVarint_byte 1 (by decide), isVarint_byte 5 (by decide), isVarint_byte 6 (by decide), isVarint_byte 0 (by decide),
    rfl, by decide, by decide, by decide, by decide, ⟨by decide, by decide⟩⟩

theorem witness_CutInputIsTruncated : ∃ t, exec .varint oneVarint = .next t ∧ t.state = .done
    ∧ AccessesAnswered (elementSize .varint) oneVarint t ∧ oneVarint.cursor.toNat ≤ (0 : Word).toNat
    ∧ (0 : Word).toNat < t.cursor.toNat :=
  ⟨oneVarintDone, rfl, rfl, ⟨nofun, nofun⟩, by decide, by decide⟩

/-- The other memory differs outside the input window. -/
theorem witness_OutcomeDependsOnlyOnTheWindow : ∃ (t : State) (m : Memory),
    NoBusErrors (elementSize .varint) oneVarint ∧ exec .varint oneVarint = .next t
    ∧ (∀ a, oneVarint.inBase.toNat + oneVarint.cursor.toNat ≤ a → a < oneVarint.inBase.toNat + oneVarint.inLen.toNat →
        m.read a = oneVarint.mem.read a)
    ∧ t.state = .done ∧ m.read 0 ≠ oneVarint.mem.read 0 := by
  refine ⟨_, oneVarint.mem.writeByte 0 7, ⟨nofun, nofun⟩, rfl, ?_, rfl, by decide⟩
  intro a h1 h2
  rw [Memory.read_writeByte_other]
  have : oneVarint.inBase.toNat + oneVarint.cursor.toNat = 0x1000 := by decide
  omega

theorem witness_OwnedMemoryIsTheEngines :
    (∃ (s : State) (w : Window) (addr : Word) (a : Nat) (input : List Byte) (rest : List Event), w ∈ s.owned
        ∧ addr.toNat ≤ a ∧ s.inputs = .memWrite addr input :: rest ∧ addr.toNat + input.length ≤ 2 ^ 64
        ∧ a < addr.toNat + input.length ∧ w.input.lo ≤ a ∧ a < w.input.hi)
      ∧ (∃ (s : State) (w : Window) (addr : Word) (a : Nat) (input : List Byte) (rest : List Event), w ∈ s.owned
        ∧ addr.toNat ≤ a ∧ s.inputs = .memWrite addr input :: rest ∧ addr.toNat + input.length ≤ 2 ^ 64
        ∧ a < addr.toNat + input.length ∧ w.output.lo ≤ a ∧ a < w.output.hi)
      ∧ (∃ (s : State) (w : Window) (addr : Word) (a n : Nat) (rest : List Event), w ∈ s.owned ∧ s.state = .done
        ∧ addr.toNat ≤ a ∧ s.inputs = .memRead addr n :: rest ∧ addr.toNat + n ≤ 2 ^ 64 ∧ a < addr.toNat + n
        ∧ w.output.lo ≤ a ∧ a < w.output.hi)
      ∧ (∃ s : State, Inv s ∧ s.state = .busy)
      ∧ ∃ (s t : State) (w : Window), step s = .next t ∧ w ∈ s.owned ∧ w ∉ t.owned ∧ s.state = .done :=
  ⟨⟨{ started with inputs := [.memWrite 0x1000 [7]] }, _, 0x1000, 0x1000, [7], [], List.mem_singleton.mpr rfl,
      by decide, rfl, by decide, by decide, by decide, by decide⟩,
    ⟨{ started with inputs := [.memWrite 0x9FFF [7]] }, _, 0x9FFF, 0x9FFF, [7], [], List.mem_singleton.mpr rfl,
      by decide, rfl, by decide, by decide, by decide, by decide⟩,
    ⟨{ oneVarintDone with owned := started.owned, inputs := [.memRead 0x7FFF 2] }, _, 0x7FFF, 0x8000, 2, [],
      List.mem_singleton.mpr rfl, rfl, by decide, rfl, by decide, by decide, by decide, by decide⟩,
    ⟨_, inv_started [], rfl⟩,
    ⟨{ oneVarintDone with owned := started.owned, inputs := [.regRead 0x10 8] }, _, _, rfl,
      List.mem_singleton.mpr rfl, List.not_mem_nil, rfl⟩⟩

theorem witness_ReadsWhileBusy : ∃ s u : State, Inv s ∧ s.state = .busy ∧ s.inReset = false ∧ step s = .next u
    ∧ u.state = .busy ∧ u.inReset = false :=
  ⟨{ started with inputs := [.regWrite 0x48 8 7] }, _, inv_started _, rfl, rfl, rfl, rfl, rfl⟩

/-- The writes and reads lie beside the windows a BUSY block owns; the last two are beyond the last address, and at a
device. -/
theorem witness_HostMemoryAccess :
    ((0xFFF : Word).toNat + 1 ≤ 2 ^ 64 ∧ started.owned ≠ []
        ∧ (∀ r ∈ started.platform.sideEffect, ∀ a, (0xFFF : Word).toNat ≤ a → a < (0xFFF : Word).toNat + 1 →
          ¬(r.lo ≤ a ∧ a < r.hi))
        ∧ ∀ w ∈ started.owned, ∀ a, (0xFFF : Word).toNat ≤ a → a < (0xFFF : Word).toNat + 1 →
          ¬(w.input.lo ≤ a ∧ a < w.input.hi) ∧ ¬(w.output.lo ≤ a ∧ a < w.output.hi))
      ∧ (∀ w ∈ started.owned, ∀ a, (0x1000 : Word).toNat ≤ a → a < (0x1000 : Word).toNat + 1 →
          ¬(w.output.lo ≤ a ∧ a < w.output.hi))
      ∧ 2 ^ 64 < (0xFFFFFFFFFFFFFFFF : Word).toNat + 2
      ∧ ∃ s : State, s.owned = [] ∧ ∃ r ∈ s.platform.sideEffect, ∃ a, (0x20 : Word).toNat ≤ a
          ∧ a < (0x20 : Word).toNat + 1 ∧ r.lo ≤ a ∧ a < r.hi := by
  have howned : started.owned = [⟨⟨0x1000, 0x1001⟩, ⟨0x8000, 0xA000⟩⟩] := by decide
  have h1 : (0xFFF : Word).toNat = 0xFFF := rfl
  have h2 : (0x1000 : Word).toNat = 0x1000 := rfl
  refine ⟨⟨by decide, by decide, nofun, ?_⟩, ?_, by decide,
    { State.reset with platform := { busErr := [], sideEffect := [⟨0x20, 0x21⟩], coherent := true } }, rfl,
    ⟨0x20, 0x21⟩, List.mem_singleton.mpr rfl, 0x20, by decide, by decide, by decide, by decide⟩ <;>
  · rw [howned]
    intro w hw a ha hb
    obtain rfl := List.mem_singleton.mp hw
    dsimp only
    omega

theorem witness_StatusReadReturnsOwnership :
    (State.reset.inReset = false ∧ (0x10 : BitVec 8).toNat % 8 = 0 ∧ State.reset.state ≠ .busy)
      ∧ (started.inReset = false ∧ (0xF8 : BitVec 8).toNat % 8 = 0 ∧ ((0xF8 : BitVec 8) ≠ 0x10 ∨ started.state = .busy)
        ∧ started.owned ≠ []) := by decide

theorem witness_OnlyOutputAndHostWritesChangeMemory :
    (∃ (s t : State) (a : Nat), step s = .next t ∧ t.mem.read a ≠ s.mem.read a ∧ s.state = .busy)
      ∧ ∃ (s t : State) (a : Nat), step s = .next t ∧ t.mem.read a ≠ s.mem.read a ∧ s.state ≠ .busy :=
  ⟨⟨oneVarint, oneVarintDone, 0x8000, rfl, by decide, rfl⟩,
    ⟨{ State.reset with inputs := [.memWrite 0x10 (bytes [7])] }, { State.reset with mem := State.reset.mem.writeByte 0x10 7 },
      0x10, rfl, by decide, by decide⟩⟩

theorem witness_EveryStepKeepsTheInvariant : ∃ s t : State, Inv s ∧ step s = .next t ∧ t.state = .done :=
  ⟨{ started with inputs := [] }, _, inv_started _, rfl, rfl⟩

theorem witness_IdAndPlatformNeverChange : ∃ t, step oneVarint = .next t :=
  ⟨_, rfl⟩

end Sys2Proof.Tests
end

section
/-! PROOF. ZigZag bit by bit (00_scope.md R15): `zigzag_64` puts the sign at bit 0 and every other bit, folded with the
sign, one place higher; `unzigzag_64` folds every bit with bit 0 and puts it one place lower. -/

namespace Sys2Proof.Machine

open Sys2Proof.Safety

/-- Subtracting the low bit from 0 spreads it over the whole word. -/
theorem zero_sub_and_one (u : Word) : 0 - (u &&& 1) = bif u.getLsbD 0 then BitVec.allOnes 64 else 0 := by
  have hlow : u &&& 1 = BitVec.setWidth 64 (BitVec.ofBool (u.getLsbD 0)) :=
    BitVec.and_one_eq_setWidth_ofBool_getLsbD
  rw [hlow]
  cases u.getLsbD 0 <;> rfl

theorem getLsbD_unzigzag64 (u : Word) {i : Nat} (hi : i < 64) :
    (unzigzag64 u).getLsbD i = (u.getLsbD (i + 1) ^^ u.getLsbD 0) := by
  rw [unzigzag64, zero_sub_and_one, BitVec.getLsbD_xor, BitVec.getLsbD_ushiftRight, Nat.add_comm]
  cases u.getLsbD 0 with
  | false => simp
  | true => rw [cond_true, BitVec.getLsbD_allOnes, decide_eq_true hi]

/-- An arithmetic shift by 63 leaves the sign at every bit. -/
theorem getLsbD_sshiftRight_63 (v : Word) {i : Nat} (hi : i < 64) :
    (v.sshiftRight 63).getLsbD i = v.getLsbD 63 := by
  rw [BitVec.getLsbD_sshiftRight, decide_eq_false (by omega), Bool.not_false, Bool.true_and]
  split
  next hlow =>
    obtain rfl : i = 0 := by omega
    rfl
  next => exact BitVec.msb_eq_getLsbD_last v

theorem getLsbD_zigzag64_zero (v : Word) : (zigzag64 v).getLsbD 0 = v.getLsbD 63 := by
  rw [zigzag64, BitVec.getLsbD_xor, getLsbD_sshiftRight_63 v (by decide)]
  simp

theorem getLsbD_zigzag64_succ (v : Word) {i : Nat} (hi : i + 1 < 64) :
    (zigzag64 v).getLsbD (i + 1) = (v.getLsbD i ^^ v.getLsbD 63) := by
  rw [zigzag64, BitVec.getLsbD_xor, getLsbD_sshiftRight_63 v hi]
  simp [hi, Nat.lt_of_succ_lt hi]

/-- Both maps fold a bit with the sign, and folding twice cancels; the top bit stands for the sign alone. -/
theorem unzigzag64_zigzag64 (v : Word) : unzigzag64 (zigzag64 v) = v := by
  apply BitVec.eq_of_getLsbD_eq
  intro i hi
  rw [getLsbD_unzigzag64 _ hi, getLsbD_zigzag64_zero]
  by_cases htop : i = 63
  · subst htop
    rw [BitVec.getLsbD_of_ge _ _ le_rfl, Bool.false_xor]
  · rw [getLsbD_zigzag64_succ v (by omega), Bool.xor_assoc, Bool.xor_self, Bool.xor_false]

theorem zigzag64_unzigzag64 (u : Word) : zigzag64 (unzigzag64 u) = u := by
  have hsign : (unzigzag64 u).getLsbD 63 = u.getLsbD 0 := by
    rw [getLsbD_unzigzag64 u (by decide), BitVec.getLsbD_of_ge _ _ le_rfl, Bool.false_xor]
  apply BitVec.eq_of_getLsbD_eq
  intro i hi
  cases i with
  | zero => rw [getLsbD_zigzag64_zero, hsign]
  | succ i =>
    rw [getLsbD_zigzag64_succ _ hi, hsign, getLsbD_unzigzag64 u (by omega), Bool.xor_assoc, Bool.xor_self,
      Bool.xor_false]

/-- Settles O40: the two maps agree bit by bit with the identity, in either order. -/
theorem zigzagIsABijection : Obligations.ZigzagIsABijection :=
  fun u => ⟨unzigzag64_zigzag64 u, zigzag64_unzigzag64 u⟩

end Sys2Proof.Machine
end

section
/-! PROOF. The register block slot by slot: which register an offset names, what a read returns and what a write does
in each case (10_state.md R22 to R47). -/

namespace Sys2Proof.Machine

open Sys2Proof.Safety

/-! ### The map -/

/-- The offset of a slot fits the 8 bits of an offset, so it is aligned and names that slot's register. -/
theorem slotOffset {slot : Nat} (h : slot < 32) :
    (BitVec.ofNat 8 (8 * slot)).toNat % 8 = 0 ∧ regAt (BitVec.ofNat 8 (8 * slot)) = regOfSlot slot := by
  have hval : (BitVec.ofNat 8 (8 * slot)).toNat = 8 * slot := by
    rw [BitVec.toNat_ofNat]
    exact Nat.mod_eq_of_lt (by omega)
  refine ⟨by omega, ?_⟩
  rw [regAt, hval, Nat.mul_div_cancel_left slot (by decide)]

theorem regOfSlot_reserved {slot : Nat} (h : 12 ≤ slot) : regOfSlot slot = .reserved := by
  obtain ⟨k, rfl⟩ := Nat.exists_eq_add_of_le' h
  rfl

/-- `CTRL` is at offset 0x08 alone. -/
theorem offset_of_regAt_ctrl {offset : BitVec 8} (ha : offset.toNat % 8 = 0) (h : regAt offset = .ctrl) :
    offset = 0x08 := by
  revert offset
  decide

/-- `STATUS` is at offset 0x10 alone. -/
theorem offset_of_regAt_status {offset : BitVec 8} (ha : offset.toNat % 8 = 0) (h : regAt offset = .status) :
    offset = 0x10 := by
  revert offset
  decide

/-! ### Reads -/

/-- What a read that is carried out leaves: the value returned, and ownership given back when it lets the host see a
completion. -/
theorem hostReadReg_ok {offset : BitVec 8} {s : State} (hr : s.inReset = false) (ha : offset.toNat % 8 = 0) :
    ∃ t, hostReadReg offset 8 s = .next t ∧ t.hostReg = readReg (regAt offset) s
      ∧ t = { s with hostReg := t.hostReg, owned := t.owned } := by
  unfold hostReadReg
  refine ⟨_, guardAccess_ok hr ha, ?_⟩
  split
  · unfold observeStatus
    split <;> exact ⟨rfl, rfl⟩
  · exact ⟨rfl, rfl⟩

/-- The value a read that is carried out returns. -/
theorem hostReadReg_value {offset : BitVec 8} {r : Reg} {s : State} {v : Word} (hr : s.inReset = false)
    (ha : offset.toNat % 8 = 0) (hreg : regAt offset = r) (hv : readReg r s = v) :
    ∃ t, hostReadReg offset 8 s = .next t ∧ t.hostReg = v := by
  obtain ⟨t, ht, hval, -⟩ := hostReadReg_ok hr ha
  exact ⟨t, ht, by rw [hval, hreg, hv]⟩

theorem ctrlWord_eq (s : State) : ctrlWord s = if s.irqEn then 2 else 0 := by
  unfold ctrlWord
  cases s.irqEn <;> rfl

/-- Appended bit vectors are digits of one number. -/
theorem toNat_append_eq_add {m n : Nat} (x : BitVec m) (y : BitVec n) :
    (x ++ y).toNat = x.toNat * 2 ^ n + y.toNat := by
  rw [BitVec.toNat_append, ← Nat.shiftLeft_add_eq_or_of_lt y.isLt, Nat.shiftLeft_eq]

/-- `STATUS` as a number: its fields at bits 0, 8, 16 and 17. -/
theorem statusWord_toNat (s : State) :
    (statusWord s).toNat = s.state.code.toNat + 2 ^ 8 * s.fault.code.toNat
      + (if s.irqPending then 2 ^ 16 else 0) + (if s.wrIgnored then 2 ^ 17 else 0) := by
  have hbit (b : Bool) (k : Nat) : (if b then k else 0) = b.toNat * k := by cases b <;> simp
  unfold statusWord
  simp only [toNat_append_eq_add, BitVec.toNat_ofBool, BitVec.toNat_ofNat, hbit]
  omega

/-! ### Writes of `CTRL` -/

theorem hostWriteReg_ctrl {s : State} (hr : s.inReset = false) (w : Word) :
    hostWriteReg 0x08 8 w s = writeCtrl w s :=
  guardAccess_ok hr rfl

theorem writeCtrl_reset {w : Word} {s : State} (h2 : w.getLsbD 2 = true) : writeCtrl w s = .next (resetBlock s) := by
  rw [writeCtrl, if_pos h2]

theorem writeCtrl_enable {w : Word} {s : State} (h2 : w.getLsbD 2 = false) (h0 : w.getLsbD 0 = false) :
    writeCtrl w s = .next { s with irqEn := w.getLsbD 1 } := by
  simp only [writeCtrl, h2, h0, Bool.not_false, Bool.false_eq_true, if_false, if_true]

theorem writeCtrl_start_busy {w : Word} {s : State} (h2 : w.getLsbD 2 = false) (h0 : w.getLsbD 0 = true)
    (hs : s.state = .busy) : writeCtrl w s = .next { s with irqEn := w.getLsbD 1, wrIgnored := true } := by
  simp only [writeCtrl, h2, h0, hs, Bool.not_true, Bool.false_eq_true, if_false, if_true]

theorem writeCtrl_start {w : Word} {s : State} (h2 : w.getLsbD 2 = false) (h0 : w.getLsbD 0 = true)
    (hs : s.state ≠ .busy) (hc : commandRefusal s = none) :
    writeCtrl w s = .next (startCommand { s with irqEn := w.getLsbD 1 }) := by
  have hc' : commandRefusal { s with irqEn := w.getLsbD 1 } = none :=
    (commandRefusal_congr rfl rfl rfl rfl rfl rfl rfl rfl).trans hc
  simp only [writeCtrl, h2, h0, hs, hostStart_ok hc', Bool.not_true, Bool.false_eq_true, if_false]

/-! ### Writes of the other registers -/

theorem hostWriteReg_stored {offset : BitVec 8} {r : Reg} {s : State} (hr : s.inReset = false)
    (ha : offset.toNat % 8 = 0) (hreg : regAt offset = r) (hctrl : r ≠ .ctrl) (w : Word) :
    hostWriteReg offset 8 w s = .next (writeStored r w s) := by
  rw [hostWriteReg, guardAccess_ok hr ha, hreg, writeReg, if_neg hctrl]

theorem writeUnlocked_of_busy {s : State} (hs : s.state = .busy) (written : State) :
    writeUnlocked s written = { s with wrIgnored := true } :=
  if_pos hs

theorem writeUnlocked_of_not_busy {s : State} (hs : s.state ≠ .busy) (written : State) :
    writeUnlocked s written = written :=
  if_neg hs

/-- A write of `STATUS` clears the bits that are 1 in the word, each alone. -/
theorem writeStatus_eq (w : Word) (s : State) : writeStatus w s = { s with
    irqPending := if w.getLsbD 16 then false else s.irqPending
    wrIgnored := if w.getLsbD 17 then false else s.wrIgnored } := by
  unfold writeStatus
  cases w.getLsbD 16 <;> cases w.getLsbD 17 <;> simp

/-- `CMD` and the operand registers, which are locked while BUSY (10_state.md R46). -/
def lockedRegs : List Reg := [.cmd, .inBase, .inLen, .cursor, .outBase, .outCap, .arg0]

theorem writeStored_locked {r : Reg} (hr : r ∈ lockedRegs) {s : State} (hs : s.state = .busy) (w : Word) :
    writeStored r w s = { s with wrIgnored := true } := by
  cases r with
  | cmd | inBase | inLen | cursor | outBase | outCap | arg0 => exact writeUnlocked_of_busy hs _
  | id | ctrl | status | outCount | faultPos | reserved => exact absurd hr (by decide)

/-- Everything a write of a register other than `CTRL` can do. -/
inductive StoredEnd (r : Reg) (w : Word) (s t : State) : Prop where
  | readOnly (ht : t = s)
  | status (hr : r = .status) (ht : t = writeStatus w s)
  | ignored (hs : s.state = .busy) (ht : t = { s with wrIgnored := true })
  | stored (hs : s.state ≠ .busy) (ht : t = { s with
      cmd := t.cmd, inBase := t.inBase, inLen := t.inLen, cursor := t.cursor, outBase := t.outBase
      outCap := t.outCap, arg0 := t.arg0 })

theorem writeStored_cases (r : Reg) (w : Word) (s : State) : StoredEnd r w s (writeStored r w s) := by
  cases r with
  | id | ctrl | outCount | faultPos | reserved => exact .readOnly rfl
  | status => exact .status rfl rfl
  | cmd | inBase | inLen | cursor | outBase | outCap | arg0 =>
    by_cases hs : s.state = .busy
    · exact .ignored hs (writeUnlocked_of_busy hs _)
    · refine .stored hs ?_
      rw [writeStored, writeUnlocked_of_not_busy hs]

end Sys2Proof.Machine
end

section
/-! PROOF. What a completion changes and what it keeps, and everything a step of a command in flight can do: it
completes, is abandoned by a reset, or stays in flight with its registers as they were (10_state.md R46, R47;
40_command_execution.md R141, R142). -/

namespace Sys2Proof.Machine

open Sys2Proof.Safety

/-! ### Completions -/

/-- A completion ends the command, sets `IRQ_PENDING`, and changes nothing but its results. -/
structure CompletionFrame (s t : State) : Prop where
  ended : t.state = .done ∨ t.state = .error
  kept : t = { s with
    state := t.state, fault := t.fault, faultPos := t.faultPos, irqPending := true, cursor := t.cursor
    outCount := t.outCount, mem := t.mem, draws := t.draws }

theorem turnAway_frame (s : State) (esize : Nat) (f : FaultCode) : CompletionFrame s (turnAway s esize f) :=
  ⟨.inr rfl, rfl⟩

theorem exec_frame {i : Instr} {s t : State} (h : exec i s = .next t) : CompletionFrame s t := by
  cases exec_cases h with
  | turnedAway _ ht => subst ht; exact turnAway_frame s _ _
  | completed c _ _ _ _ _ ht => subst ht; exact ⟨.inl rfl, rfl⟩
  | faulted f pos _ _ ht => subst ht; exact ⟨.inr rfl, rfl⟩

theorem Completion.frame {s t : State} (h : Completion s t) : CompletionFrame s t := by
  cases h with
  | noCommand e _ ht => subst ht; exact turnAway_frame s _ _
  | command i _ ht => exact exec_frame ht

theorem CompletionFrame.irqPending {s t : State} (h : CompletionFrame s t) : t.irqPending = true :=
  congrArg State.irqPending h.kept

theorem CompletionFrame.irqEn {s t : State} (h : CompletionFrame s t) : t.irqEn = s.irqEn := by
  rw [h.kept]

theorem CompletionFrame.id {s t : State} (h : CompletionFrame s t) : t.id = s.id := by
  rw [h.kept]

theorem CompletionFrame.platform {s t : State} (h : CompletionFrame s t) : t.platform = s.platform := by
  rw [h.kept]

/-! ### Steps of a command in flight -/

/-- The reset values are values of registers: memory, ownership, the reset input and what the host has seen are free. -/
theorem atResetValues_withHost {s : State} (h : AtResetValues s) (m : Memory) (b : Bool) (o : List Window)
    (ins : List Event) (v : Word) (bs : List Byte) : AtResetValues
      { s with mem := m, inReset := b, owned := o, inputs := ins, hostReg := v, hostBytes := bs } :=
  { h with }

/-- Everything an event can do to a command in flight. -/
inductive BusyEnd (s t : State) : Prop where
  | completes (hs : t.state = .done ∨ t.state = .error) (hp : t.irqPending = true)
  | reset (ht : AtResetValues t)
  | inFlight (ht : t = { s with
      irqEn := t.irqEn, irqPending := t.irqPending, wrIgnored := t.wrIgnored, mem := t.mem, inReset := t.inReset
      inputs := t.inputs, hostReg := t.hostReg, hostBytes := t.hostBytes })

theorem CompletionFrame.busyEnd {s s' t : State} (h : CompletionFrame s' t) : BusyEnd s t :=
  .completes h.ended h.irqPending

theorem eventEnd_of_busy {e : Event} {s t : State} (h : EventEnd e s t) (hs : s.state = .busy) : BusyEnd s t := by
  cases h with
  | rest _ hn _ | restWithStatusWrite _ _ _ hn _ => exact absurd hs hn
  | completes _ _ ht | completesWithStatusWrite _ _ _ _ ht => exact ht.frame.busyEnd
  | regRead _ _ _ ht ho =>
    have howned : t.owned = s.owned := by simpa [hs] using ho
    rw [howned] at ht
    subst ht
    exact .inFlight rfl
  | ctrlWrite _ w _ _ _ _ ht =>
    cases ht with
    | reset _ ht => subst ht; exact .reset (resetBlock_atResetValues s)
    | enable _ _ ht | ignored _ _ _ ht => subst ht; exact .inFlight rfl
    | start _ _ hn _ _ => exact absurd hs hn
  | regWrite offset w _ _ _ _ ht =>
    subst ht
    cases writeStored_cases (regAt offset) w s with
    | readOnly ht | status _ ht | ignored _ ht => rw [ht]; exact .inFlight rfl
    | stored hn _ => exact absurd hs hn
  | memRead _ _ _ ht | memWrite _ _ _ _ ht | releaseReset _ ht => subst ht; exact .inFlight rfl
  | assertReset _ ht =>
    subst ht
    exact .reset (atResetValues_withHost (resetBlock_atResetValues s) _ _ _ _ _ _)

theorem step_of_busy {s t : State} (h : step s = .next t) (hs : s.state = .busy) : BusyEnd s t := by
  obtain ⟨e, s', rfl, -, hend⟩ := step_cases h
  cases eventEnd_of_busy hend hs with
  | completes hd hp => exact .completes hd hp
  | reset ht => exact .reset ht
  | inFlight ht => exact .inFlight ht

theorem BusyEnd.eq_of_busy {s t : State} (h : BusyEnd s t) (hb : t.state = .busy) : t = { s with
    irqEn := t.irqEn, irqPending := t.irqPending, wrIgnored := t.wrIgnored, mem := t.mem, inReset := t.inReset
    inputs := t.inputs, hostReg := t.hostReg, hostBytes := t.hostBytes } := by
  cases h with
  | completes hs _ => rw [hb] at hs; exact absurd hs (by decide)
  | reset ht => exact absurd (hb.symm.trans ht.state) (by decide)
  | inFlight ht => exact ht

/-- While a command stays in flight no register read changes but those of `CTRL` and `STATUS` (10_state.md R47). -/
theorem readReg_of_inFlight {s t : State} {r : Reg} (h : step s = .next t) (hs : s.state = .busy)
    (hb : t.state = .busy) (hctrl : r ≠ .ctrl) (hstatus : r ≠ .status) : readReg r t = readReg r s := by
  rw [(step_of_busy h hs).eq_of_busy hb]
  cases r with
  | ctrl => exact absurd rfl hctrl
  | status => exact absurd rfl hstatus
  | id | cmd | inBase | inLen | cursor | outBase | outCap | arg0 | outCount | faultPos | reserved => rfl

end Sys2Proof.Machine
end

section
/-! PROOF. The invariant: each kind of change a step makes keeps it, completions and resets establish it afresh, and so
every event and every step keeps it (10_state.md R29, R41, R42, R47, R52; 20_memory.md R71; 70_reset_and_hazards.md
R320). -/

namespace Sys2Proof.Machine

open Sys2Proof.Safety

/-! ### Changes that keep the invariant -/

/-- What the host does outside the registers: memory stays canonical, and ownership is left alone or, outside BUSY,
returned. -/
theorem inv_withHost {s : State} (h : Inv s) {m : Memory} {o : List Window} (hm : m.wf = true)
    (ho : o = s.owned ∨ (s.state ≠ .busy ∧ o = [])) (ins : List Event) (v : Word) (bs : List Byte) :
    Inv { s with mem := m, owned := o, inputs := ins, hostReg := v, hostBytes := bs } :=
  { h with
    memory := hm
    busyOwns := by
      intro hs
      obtain rfl | ⟨hn, -⟩ := ho
      · exact h.busyOwns hs
      · exact absurd hs hn
    resetHolds := by
      intro hr
      obtain ⟨hv, howned⟩ := h.resetHolds hr
      refine ⟨atResetValues_withHost hv m s.inReset o ins v bs, ?_⟩
      obtain rfl | ⟨-, rfl⟩ := ho
      · exact howned
      · rfl }

/-- Writes of the flags, outside reset, that leave an IDLE block quiet. -/
theorem inv_withFlags {s : State} (h : Inv s) (hr : s.inReset = false) {e p g : Bool}
    (hq : s.state = .idle → p = false ∧ g = false) :
    Inv { s with irqEn := e, irqPending := p, wrIgnored := g } :=
  { h with
    idleIsQuiet := hq
    resetHolds := by simp [hr] }

/-- Writes of `CMD` and of the operand registers, outside BUSY and reset. -/
theorem inv_withOperands {s : State} (h : Inv s) (hr : s.inReset = false) (hs : s.state ≠ .busy)
    (c ib il cu ob oc a : Word) :
    Inv { s with cmd := c, inBase := ib, inLen := il, cursor := cu, outBase := ob, outCap := oc, arg0 := a } :=
  { h with
    busyOwns := fun hb => absurd hb hs
    busyRuns := fun hb => absurd hb hs
    resetHolds := by simp [hr] }

theorem inv_writeStatus {s : State} (h : Inv s) (hr : s.inReset = false) (w : Word) : Inv (writeStatus w s) := by
  refine inv_withFlags h hr fun hidle => ?_
  obtain ⟨hp, hg⟩ := h.idleIsQuiet hidle
  rw [hp, hg]
  exact ⟨rfl, rfl⟩

theorem inv_releaseReset {s : State} (h : Inv s) : Inv { s with inReset := false } :=
  { h with resetHolds := nofun }

/-- A START of a command the model does not refuse: the command owns its window from here on. -/
theorem inv_startCommand {s : State} (h : Inv s) (hr : s.inReset = false) (hc : commandRefusal s = none) :
    Inv (startCommand s) where
  memory := h.memory
  faultIffError := by simp
  faultPosOutsideError := fun _ => rfl
  outCountOutsideDone := fun _ => rfl
  idleIsQuiet := nofun
  busyOwns := fun _ => List.mem_cons_self
  busyRuns := fun _ => (commandRefusal_congr rfl rfl rfl rfl rfl rfl rfl rfl).trans hc
  resetHolds := by simp [hr]

/-! ### States that have the invariant -/

/-- A block at its reset values with nothing owned has the invariant, in reset or not. -/
theorem inv_of_atResetValues {t : State} (hm : t.mem.wf = true) (hv : AtResetValues t) (ho : t.owned = []) : Inv t where
  memory := hm
  faultIffError := by simp [hv.fault, hv.state]
  faultPosOutsideError := fun _ => hv.faultPos
  outCountOutsideDone := fun _ => hv.outCount
  idleIsQuiet := fun _ => ⟨hv.irqPending, hv.wrIgnored⟩
  busyOwns := by simp [hv.state]
  busyRuns := by simp [hv.state]
  resetHolds := fun _ => ⟨hv, ho⟩

theorem inv_of_done {t : State} (hm : t.mem.wf = true) (hr : t.inReset = false) (hs : t.state = .done)
    (hf : t.fault = .none) (hp : t.faultPos = 0) : Inv t where
  memory := hm
  faultIffError := by simp [hf, hs]
  faultPosOutsideError := fun _ => hp
  outCountOutsideDone := by simp [hs]
  idleIsQuiet := by simp [hs]
  busyOwns := by simp [hs]
  busyRuns := by simp [hs]
  resetHolds := by simp [hr]

theorem inv_takeFault {s : State} {f : FaultCode} (hm : s.mem.wf = true) (hr : s.inReset = false) (hf : f ≠ .none)
    (pos : Word) : Inv (takeFault s f pos) where
  memory := hm
  faultIffError := ⟨fun _ => rfl, fun _ => hf⟩
  faultPosOutsideError := fun hn => absurd rfl hn
  outCountOutsideDone := fun _ => rfl
  idleIsQuiet := nofun
  busyOwns := nofun
  busyRuns := nofun
  resetHolds := by simp [hr]

/-- The elements of a command whose checks passed lie below 2^64, so that storing them keeps the canonical form. -/
theorem elements_fit_of_operandsOk {esize n : Nat} {s : State} (h : OperandsOk esize s) (hn : n ≤ s.outCap.toNat) :
    s.outBase.toNat + n * esize ≤ 2 ^ 64 :=
  le_trans (Nat.add_le_add_left (Nat.mul_le_mul_right esize hn) _) h.outputFits

theorem inv_of_exec {i : Instr} {s t : State} (hm : s.mem.wf = true) (hr : s.inReset = false)
    (h : exec i s = .next t) : Inv t := by
  cases exec_cases h with
  | turnedAway _ ht => subst ht; exact inv_takeFault (freeOutput_wf hm) hr (by decide) _
  | faulted f pos _ hf ht => subst ht; exact inv_takeFault (freeOutput_wf hm) hr hf pos
  | completed c hcheck _ _ _ hn ht =>
    have hok := ((operandsLegal_iff i s).mp hcheck).2.2
    subst ht
    exact inv_of_done (Memory.wf_writeElements hm c.out (elements_fit_of_operandsOk hok hn)) hr rfl rfl rfl

theorem decodeFault_ne_none (e : DecodeError) : decodeFault e ≠ .none := by
  cases e <;> decide

/-- Every completion leaves the invariant, from any canonical memory. -/
theorem Completion.inv {s t : State} (hm : s.mem.wf = true) (hr : s.inReset = false) (h : Completion s t) : Inv t := by
  cases h with
  | noCommand e _ ht => subst ht; exact inv_takeFault (freeOutput_wf hm) hr (decodeFault_ne_none e) _
  | command i _ ht => exact inv_of_exec hm hr ht

/-- No command is in flight while reset is asserted. -/
theorem inReset_of_inv_of_busy {s : State} (h : Inv s) (hs : s.state = .busy) : s.inReset = false := by
  by_contra hr
  obtain ⟨hv, -⟩ := h.resetHolds (by simpa using hr)
  exact absurd (hs.symm.trans hv.state) (by decide)

/-! ### Events and steps -/

theorem CtrlEnd.inv {w : Word} {s t : State} (h : Inv s) (hr : s.inReset = false) (hend : CtrlEnd w s t) : Inv t := by
  cases hend with
  | reset _ ht =>
    subst ht
    exact inv_of_atResetValues (abandonCommand_wf h.memory) (resetBlock_atResetValues s) rfl
  | enable _ _ ht => subst ht; exact inv_withFlags h hr h.idleIsQuiet
  | ignored _ _ hs ht =>
    subst ht
    exact inv_withFlags h hr fun hi => absurd (hs.symm.trans hi) (by decide)
  | start _ _ _ hc ht =>
    subst ht
    exact inv_startCommand (inv_withFlags h hr h.idleIsQuiet) hr hc

theorem StoredEnd.inv {r : Reg} {w : Word} {s t : State} (h : Inv s) (hr : s.inReset = false)
    (hend : StoredEnd r w s t) : Inv t := by
  cases hend with
  | readOnly ht => subst ht; exact h
  | status _ ht => subst ht; exact inv_writeStatus h hr w
  | ignored hs ht =>
    subst ht
    exact inv_withFlags h hr fun hi => absurd (hs.symm.trans hi) (by decide)
  | stored hs ht => rw [ht]; exact inv_withOperands h hr hs _ _ _ _ _ _ _

theorem EventEnd.inv {e : Event} {s t : State} (h : Inv s) (hend : EventEnd e s t) : Inv t := by
  cases hend with
  | rest _ _ ht => subst ht; exact h
  | completes _ hs ht => exact ht.inv h.memory (inReset_of_inv_of_busy h hs)
  | restWithStatusWrite w _ hr _ ht => subst ht; exact inv_writeStatus h hr w
  | completesWithStatusWrite w _ hr _ ht => exact ht.inv (s := writeStatus w s) h.memory hr
  | regRead offset _ _ ht ho =>
    have howned : t.owned = s.owned ∨ (s.state ≠ .busy ∧ t.owned = []) := by
      split at ho
      next hseen => exact .inr ⟨hseen.2, ho⟩
      next => exact .inl ho
    rw [ht]
    exact inv_withHost h h.memory howned _ _ _
  | ctrlWrite _ w _ hr _ _ ht => exact ht.inv h hr
  | regWrite offset w _ hr _ _ ht => subst ht; exact (writeStored_cases (regAt offset) w s).inv h hr
  | memRead addr n _ ht => subst ht; exact inv_withHost h h.memory (.inl rfl) _ _ _
  | memWrite addr bytes _ hfits ht =>
    subst ht
    exact inv_withHost h (Memory.wf_writeBytes h.memory bytes hfits) (.inl rfl) _ _ _
  | assertReset _ ht =>
    subst ht
    exact inv_of_atResetValues (abandonCommand_wf h.memory)
      (atResetValues_withHost (resetBlock_atResetValues s) _ _ _ _ _ _) rfl
  | releaseReset _ ht => subst ht; exact inv_releaseReset h

/-- Settles O57: taking the event off the list keeps the invariant, and so does whatever the event does. -/
theorem everyStepKeepsTheInvariant : Obligations.EveryStepKeepsTheInvariant := by
  intro s t h hstep
  obtain ⟨e, s', rfl, -, hend⟩ := step_cases hstep
  exact hend.inv (inv_withHost h h.memory (.inl rfl) _ _ _)

/-- Settles O56: reset has its values by definition, and a block at its reset values has the invariant. -/
theorem resetHasTheInvariant : Obligations.ResetHasTheInvariant := by
  have hv : AtResetValues State.reset := ⟨rfl, rfl, rfl, rfl, rfl, rfl, rfl, rfl, rfl, rfl, rfl, rfl, rfl, rfl⟩
  exact ⟨inv_of_atResetValues Memory.wf_reset hv rfl, hv, rfl, rfl⟩

end Sys2Proof.Machine
end

section
/-! PROOF. What no step changes, and what alone clears `IRQ_PENDING` (10_state.md R23, R31, R45, R53; 60_exceptions.md
R293). -/

namespace Sys2Proof.Machine

open Sys2Proof.Safety

/-! ### `ID` and the platform -/

theorem CtrlEnd.id_platform {w : Word} {s t : State} (h : CtrlEnd w s t) : t.id = s.id ∧ t.platform = s.platform := by
  cases h with
  | reset _ ht => subst ht; exact ⟨resetBlock_id s, resetBlock_platform s⟩
  | enable _ _ ht | ignored _ _ _ ht | start _ _ _ _ ht => subst ht; exact ⟨rfl, rfl⟩

theorem StoredEnd.id_platform {r : Reg} {w : Word} {s t : State} (h : StoredEnd r w s t) :
    t.id = s.id ∧ t.platform = s.platform := by
  cases h with
  | readOnly ht | status _ ht | ignored _ ht | stored _ ht => rw [ht]; exact ⟨rfl, rfl⟩

theorem EventEnd.id_platform {e : Event} {s t : State} (h : EventEnd e s t) :
    t.id = s.id ∧ t.platform = s.platform := by
  cases h with
  | completes _ _ ht | completesWithStatusWrite _ _ _ _ ht => exact ⟨ht.frame.id, ht.frame.platform⟩
  | ctrlWrite _ _ _ _ _ _ ht => exact ht.id_platform
  | regWrite offset w _ _ _ _ ht => subst ht; exact (writeStored_cases (regAt offset) w s).id_platform
  | assertReset _ ht => subst ht; exact ⟨resetBlock_id s, resetBlock_platform s⟩
  | rest _ _ ht | restWithStatusWrite _ _ _ _ ht | regRead _ _ _ ht _ | memRead _ _ _ ht | memWrite _ _ _ _ ht
  | releaseReset _ ht => rw [ht]; exact ⟨rfl, rfl⟩

/-- Settles O58: no event changes either, nor does taking it off the list. -/
theorem idAndPlatformNeverChange : Obligations.IdAndPlatformNeverChange := by
  intro s t hstep
  obtain ⟨e, s', rfl, -, hend⟩ := step_cases hstep
  exact hend.id_platform

/-! ### The interrupt -/

/-- The events that clear `IRQ_PENDING`: a write of 1 to bit 16 of `STATUS` with no completion in the same instant, and
the two resets (10_state.md R31). -/
def ClearsPending (e : Event) (s : State) : Prop :=
  (∃ w, e = .regWrite 0x10 8 w ∧ w.getLsbD 16 = true)
    ∨ (∃ w, e = .engineWithStatusWrite w ∧ w.getLsbD 16 = true ∧ s.state ≠ .busy)
    ∨ (∃ w, e = .regWrite 0x08 8 w ∧ w.getLsbD 2 = true)
    ∨ e = .assertReset

theorem bit16_of_writeStatus_clears {w : Word} {s : State} (hp : s.irqPending = true)
    (hc : (writeStatus w s).irqPending = false) : w.getLsbD 16 = true := by
  simpa [hp] using hc

theorem clearsPending_of_eventEnd {e : Event} {s t : State} (h : EventEnd e s t) (hp : s.irqPending = true)
    (hc : t.irqPending = false) : ClearsPending e s := by
  have hsame : t.irqPending ≠ s.irqPending := by rw [hp, hc]; decide
  cases h with
  | rest _ _ ht | memRead _ _ _ ht | memWrite _ _ _ _ ht | releaseReset _ ht => subst ht; exact absurd rfl hsame
  | completes _ _ ht | completesWithStatusWrite _ _ _ _ ht =>
    exact absurd (ht.frame.irqPending.symm.trans hc) (by decide)
  | restWithStatusWrite w he _ hs ht =>
    subst ht
    exact .inr (.inl ⟨w, he, bit16_of_writeStatus_clears hp hc, hs⟩)
  | regRead _ _ _ ht _ => exact absurd (congrArg State.irqPending ht) hsame
  | ctrlWrite offset w he _ hoff hreg ht =>
    rw [offset_of_regAt_ctrl hoff hreg] at he
    cases ht with
    | reset hw _ => exact .inr (.inr (.inl ⟨w, he, hw⟩))
    | enable _ _ ht | ignored _ _ _ ht | start _ _ _ _ ht => subst ht; exact absurd rfl hsame
  | regWrite offset w he _ hoff _ ht =>
    subst ht
    cases writeStored_cases (regAt offset) w s with
    | readOnly ht | ignored _ ht | stored _ ht => exact absurd (congrArg State.irqPending ht) hsame
    | status hr ht =>
      rw [offset_of_regAt_status hoff hr] at he
      rw [ht] at hc
      exact .inl ⟨w, he, bit16_of_writeStatus_clears hp hc⟩
  | assertReset he _ => exact .inr (.inr (.inr he))

/-- A step that clears `IRQ_PENDING` takes an event off the list, and the event is one that clears it. -/
theorem step_clearsPending {s t : State} (h : step s = .next t) (hp : s.irqPending = true)
    (hc : t.irqPending = false) : ∃ e rest, s.inputs = e :: rest ∧ ClearsPending e s := by
  obtain ⟨e, s', rfl, he, hend⟩ := step_cases h
  have hclear := clearsPending_of_eventEnd hend hp hc
  obtain ⟨-, rfl⟩ | he := he
  · obtain ⟨w, hw, -⟩ | ⟨w, hw, -⟩ | ⟨w, hw, -⟩ | hw := hclear <;> cases hw
  · exact ⟨e, _, he, hclear⟩

/-- A completion in the same instant as a write of `STATUS` follows the write (10_state.md R31). -/
theorem completion_of_engineWithStatusWrite {w : Word} {s t : State} (h : EventEnd (.engineWithStatusWrite w) s t)
    (hs : s.state = .busy) : Completion (writeStatus w s) t := by
  cases h with
  | completesWithStatusWrite _ he _ _ ht => cases he; exact ht
  | restWithStatusWrite _ _ _ hn _ => exact absurd hs hn
  | rest he _ _ | completes he _ _ | regRead _ he _ _ _ | ctrlWrite _ _ he _ _ _ _ | regWrite _ _ he _ _ _ _
  | memRead _ _ he _ | memWrite _ _ he _ _ | assertReset he _ | releaseReset he _ => cases he

/-- Settles O26: a command in flight ends in DONE or ERROR only by its completion, which sets the bit after any write of
the same instant. -/
theorem interruptPendingBit : Obligations.InterruptPendingBit := by
  refine ⟨fun s t hstep hs hend => ?_, fun s t hstep hp hc => ?_, fun s t w rest hin hs hstep => ?_⟩
  · cases step_of_busy hstep hs with
    | completes _ hp => exact hp
    | reset ht => rw [ht.state] at hend; exact absurd hend (by decide)
    | inFlight ht =>
      have hb : t.state = s.state := by rw [ht]
      rw [hb, hs] at hend
      exact absurd hend (by decide)
  · obtain ⟨e, rest, hin, hclear⟩ := step_clearsPending hstep hp hc
    obtain ⟨w, rfl, hw⟩ | ⟨w, rfl, hw, hs⟩ | ⟨w, rfl, hw⟩ | rfl := hclear
    · exact .inl ⟨w, rest, hin, hw⟩
    · exact .inr (.inl ⟨w, rest, hin, hw, hs⟩)
    · exact .inr (.inr (.inl ⟨w, rest, hin, hw⟩))
    · exact .inr (.inr (.inr ⟨rest, hin⟩))
  · obtain ⟨e, s', rfl, ⟨hnil, -⟩ | he, hend⟩ := step_cases hstep
    · rw [hin] at hnil
      cases hnil
    · obtain ⟨rfl, -⟩ := List.cons.inj (hin.symm.trans he)
      exact (completion_of_engineWithStatusWrite hend hs).frame.irqPending

/-- Settles O25: the output is `IRQ_EN` once the completion has set `IRQ_PENDING`, so a write of `IRQ_EN` alone raises
it. -/
theorem completionRaisesTheInterrupt : Obligations.CompletionRaisesTheInterrupt := by
  intro i s t h
  have hframe := exec_frame h
  refine ⟨hframe.irqPending, hframe.irqEn, ?_, fun hr => ?_⟩
  · rw [State.irq, hframe.irqPending, hframe.irqEn, Bool.and_true]
  · refine ⟨_, (hostWriteReg_ctrl hr 2).trans (writeCtrl_enable rfl rfl), ?_⟩
    exact hframe.irqPending

end Sys2Proof.Machine
end

section
/-! PROOF. The register block as the host sees it: what reads return and what writes do, in each engine state
(10_state.md R22 to R47). -/

namespace Sys2Proof.Machine

open Sys2Proof.Safety

/-! ### Reads -/

/-- The registers in the order of their slots; past the last the block reads 0 (10_state.md R22, R43). -/
theorem readReg_regOfSlot (s : State) (slot : Nat) : readReg (regOfSlot slot) s =
    ([s.id, if s.irqEn then 2 else 0, statusWord s, s.cmd, s.inBase, s.inLen, s.cursor, s.outBase, s.outCap, s.arg0,
      s.outCount, s.faultPos] : List Word).getD slot 0 := by
  match slot with
  | 1 => exact ctrlWord_eq s
  | 0 | 2 | 3 | 4 | 5 | 6 | 7 | 8 | 9 | 10 | 11 | _ + 12 => rfl

/-- Settles O11: an access at a slot's offset reads that slot's register. -/
theorem registerReads : Obligations.RegisterReads := by
  intro s slot hr hslot
  obtain ⟨ha, hreg⟩ := slotOffset hslot
  obtain ⟨t, ht, hval, hkept⟩ := hostReadReg_ok hr ha
  exact ⟨t, ht, by rw [hval, hreg, readReg_regOfSlot], hkept⟩

/-- Settles O12: the word's fields as digits, and the codes by definition. -/
theorem statusReadLayout : Obligations.StatusReadLayout :=
  ⟨statusWord_toNat, ⟨rfl, rfl, rfl, rfl⟩, rfl, rfl, rfl, rfl, rfl, rfl, rfl⟩

/-- Settles O16: the invariant holds the two registers at 0, and a command that stays in flight keeps its registers. -/
theorem readsWhileBusy : Obligations.ReadsWhileBusy := by
  intro s h hs hr
  have hcount : s.outCount = 0 := h.outCountOutsideDone (by rw [hs]; decide)
  have hpos : s.faultPos = 0 := h.faultPosOutsideError (by rw [hs]; decide)
  refine ⟨?_, hostReadReg_value (r := .outCount) hr rfl rfl hcount,
    hostReadReg_value (r := .faultPos) hr rfl rfl hpos, ?_⟩
  · obtain ⟨t, ht, hval⟩ := hostReadReg_value (r := .status) (offset := 0x10) hr rfl rfl rfl
    have hcode : s.state.code.toNat = 1 := by rw [hs]; rfl
    refine ⟨t, ht, ?_⟩
    rw [hval, readReg, statusWord_toNat, hcode]
    split <;> split <;> omega
  · intro u hstep hb hru offset hoff
    have hlegal : offset.toNat % 8 = 0 ∧ regAt offset ≠ .ctrl ∧ regAt offset ≠ .status := by
      revert offset
      decide
    obtain ⟨ha, hctrl, hstatus⟩ := hlegal
    obtain ⟨t, ht, hval, -⟩ := hostReadReg_ok hr ha
    obtain ⟨t', ht', hval', -⟩ := hostReadReg_ok hru ha
    exact ⟨t, t', ht, ht', by rw [hval, hval', readReg_of_inFlight hstep hs hb hctrl hstatus]⟩

/-! ### Writes -/

theorem hostWriteReg_status {s : State} (hr : s.inReset = false) (w : Word) :
    hostWriteReg 0x10 8 w s = .next { s with
      irqPending := if w.getLsbD 16 then false else s.irqPending
      wrIgnored := if w.getLsbD 17 then false else s.wrIgnored } := by
  rw [hostWriteReg_stored hr rfl rfl (by decide), ← writeStatus_eq]
  rfl

/-- Settles O13: the write clears two bits, and the read is `statusWord`, which is that layout. -/
theorem statusWriteAndRead : Obligations.StatusWriteAndRead :=
  fun _ w hr => ⟨hostWriteReg_status hr w, hostReadReg_value (r := .status) hr rfl rfl rfl⟩

/-- Settles O14: one equation of `writeCtrl` for each of its four cases. -/
theorem controlWriteOrder : Obligations.ControlWriteOrder := by
  intro s w hr
  simp only [hostWriteReg_ctrl hr]
  refine ⟨fun h2 => ?_, writeCtrl_enable, writeCtrl_start_busy, fun h2 h0 hs hc => ?_⟩
  · exact ⟨_, writeCtrl_reset h2, resetBlock_atResetValues s, writeCtrl_reset rfl⟩
  · exact ⟨_, writeCtrl_start h2 h0 hs hc, rfl⟩

/-- Settles O15: the seven offsets are those of the locked registers, and a command that stays in flight keeps them. -/
theorem writesWhileBusyAreIgnored : Obligations.WritesWhileBusyAreIgnored := by
  intro s hs
  refine ⟨fun hr w => ?_, fun t hstep hb => ?_⟩
  · rw [hostWriteReg_ctrl hr]
    refine ⟨fun offset hoff => ?_, fun h2 h0 => writeCtrl_start_busy h2 h0 hs, writeCtrl_enable, fun h2 => ?_,
      hostWriteReg_status hr w⟩
    · have hlocked : offset.toNat % 8 = 0 ∧ regAt offset ∈ lockedRegs ∧ regAt offset ≠ .ctrl := by
        revert offset
        decide
      obtain ⟨ha, hreg, hctrl⟩ := hlocked
      rw [hostWriteReg_stored hr ha rfl hctrl, writeStored_locked hreg hs]
    · exact ⟨_, writeCtrl_reset h2, resetBlock_atResetValues s⟩
  · rw [(step_of_busy hstep hs).eq_of_busy hb]
    exact ⟨rfl, rfl, rfl, rfl, rfl, rfl, rfl⟩

/-- Outside BUSY a register that stores what is written holds it, and reads it back. -/
theorem store_and_read_back {offset : BitVec 8} {r : Reg} {s t : State} {w : Word} (hr : s.inReset = false)
    (ha : offset.toNat % 8 = 0) (hreg : regAt offset = r) (hctrl : r ≠ .ctrl) (hw : writeStored r w s = t)
    (hrt : t.inReset = false) (hread : readReg r t = w) :
    hostWriteReg offset 8 w s = .next t ∧ ∃ u, hostReadReg offset 8 t = .next u ∧ u.hostReg = w :=
  ⟨by rw [hostWriteReg_stored hr ha hreg hctrl, hw], hostReadReg_value hrt ha hreg hread⟩

/-- Settles O17: register by register, the write is not locked and stores the word. -/
theorem operandRegistersStoreAllBits : Obligations.OperandRegistersStoreAllBits := by
  intro s w hs hr
  have hfree := writeUnlocked_of_not_busy hs
  simp only [List.forall_mem_cons, List.not_mem_nil, false_imp_iff, implies_true, and_true]
  exact ⟨store_and_read_back hr rfl (r := .cmd) rfl nofun (hfree _) hr rfl,
    store_and_read_back hr rfl (r := .inBase) rfl nofun (hfree _) hr rfl,
    store_and_read_back hr rfl (r := .inLen) rfl nofun (hfree _) hr rfl,
    store_and_read_back hr rfl (r := .cursor) rfl nofun (hfree _) hr rfl,
    store_and_read_back hr rfl (r := .outBase) rfl nofun (hfree _) hr rfl,
    store_and_read_back hr rfl (r := .outCap) rfl nofun (hfree _) hr rfl,
    store_and_read_back hr rfl (r := .arg0) rfl nofun (hfree _) hr rfl⟩

/-- The slots of `ID`, `OUT_COUNT` and `FAULT_POS` and the reserved slots ignore a write (10_state.md R43, R45). -/
theorem writeStored_readOnlySlot {slot : Nat} (h : slot = 0 ∨ 10 ≤ slot) (w : Word) (s : State) :
    regOfSlot slot ≠ .ctrl ∧ writeStored (regOfSlot slot) w s = s := by
  have hslot : slot = 0 ∨ slot = 10 ∨ slot = 11 ∨ 12 ≤ slot := by omega
  obtain rfl | rfl | rfl | hslot := hslot
  · exact ⟨nofun, rfl⟩
  · exact ⟨nofun, rfl⟩
  · exact ⟨nofun, rfl⟩
  · rw [regOfSlot_reserved hslot]
    exact ⟨nofun, rfl⟩

/-- Settles O18: such a slot's write leaves the whole state, and a write of `STATUS` only clears bits. -/
theorem readOnlyWritesAreIgnored : Obligations.ReadOnlyWritesAreIgnored := by
  intro s w hr
  refine ⟨fun slot hslot => ?_, ⟨_, hostWriteReg_status hr w, rfl, rfl, fun hw => ?_⟩, fun slot hlo hhi => ?_⟩
  · obtain ⟨ha, hreg⟩ := slotOffset (slot := slot) (by omega)
    obtain ⟨hctrl, hsame⟩ := writeStored_readOnlySlot (slot := slot) (by omega) w s
    rw [hostWriteReg_stored hr ha hreg hctrl, hsame]
  · dsimp only at hw
    split at hw
    · cases hw
    · exact hw
  · obtain ⟨ha, hreg⟩ := slotOffset hhi
    exact hostReadReg_value hr ha (hreg.trans (regOfSlot_reserved hlo)) rfl

/-! ### Refused accesses -/

theorem guardAccess_inReset {offset : BitVec 8} {size : Nat} {s : State} (hr : s.inReset = true)
    (after : Host.Outcome State Fault Refusal) :
    guardAccess offset size s after = .refused .registerAccessInReset := by
  rw [guardAccess, if_pos hr]

theorem guardAccess_shape {offset : BitVec 8} {size : Nat} {s : State} (hr : s.inReset = false)
    (h : size ≠ 8 ∨ offset.toNat % 8 ≠ 0) (after : Host.Outcome State Fault Refusal) :
    guardAccess offset size s after = .refused .registerAccessShape := by
  have hshape : ¬accessShapeLegal offset size = true := by
    intro hlegal
    obtain ⟨hsize, ha⟩ := accessShapeLegal_size hlegal
    exact h.elim (fun hn => hn hsize) fun hn => hn ha
  rw [guardAccess, if_neg (by rw [hr]; decide), if_neg hshape]

/-- Settles O19: both kinds of access pass the same guard. -/
theorem registerAccessesRefused : Obligations.RegisterAccessesRefused :=
  fun _ _ _ _ => ⟨fun hr => ⟨guardAccess_inReset hr _, guardAccess_inReset hr _⟩,
    fun hr h => ⟨guardAccess_shape hr h _, guardAccess_shape hr h _⟩⟩

end Sys2Proof.Machine
end

section
/-! PROOF. Memory the engine owns and memory it does not: which accesses of the host meet a range, which are turned
away, what the others do, and when ownership ends (20_memory.md R60, R67, R71; log 11, log 24, log 26). -/

namespace Sys2Proof.Machine

open Sys2Proof.Safety

/-! ### Ranges -/

/-- Two ranges that share an address meet. -/
theorem meets_of_common {r q : AddrRange} {a : Nat} (hr : r.lo ≤ a ∧ a < r.hi) (hq : q.lo ≤ a ∧ a < q.hi) :
    r.meets q = true := by
  unfold AddrRange.meets
  simp only [Bool.and_eq_true, decide_eq_true_eq]
  omega

/-! ### What turns a host access away -/

/-- No access passes the last address (20_memory.md R60; log 24). -/
theorem guardMemory_outside {addr : Word} {n : Nat} (h : 2 ^ 64 < addr.toNat + n)
    (touches : Window → AddrRange → Bool) (s after : State) :
    guardMemory addr n touches s after = .fault .outsideAddressSpace :=
  if_pos h

/-- An access that touches an owned window is refused, before any device is asked (20_memory.md R71). -/
theorem guardMemory_owned {addr : Word} {n : Nat} {touches : Window → AddrRange → Bool} {s : State} {w : Window}
    (hfits : addr.toNat + n ≤ 2 ^ 64) (hw : w ∈ s.owned) (ht : touches w ⟨addr.toNat, addr.toNat + n⟩ = true)
    (after : State) : guardMemory addr n touches s after = .refused .ownershipViolated := by
  rw [guardMemory, if_neg (by omega), if_pos (List.any_of_mem hw ht)]

theorem hostWriteMem_owned {addr : Word} {bytes : List Byte} {s : State} {w : Window} {a : Nat}
    (hfits : addr.toNat + bytes.length ≤ 2 ^ 64) (hw : w ∈ s.owned) (hlo : addr.toNat ≤ a)
    (hhi : a < addr.toNat + bytes.length)
    (ha : (w.input.lo ≤ a ∧ a < w.input.hi) ∨ (w.output.lo ≤ a ∧ a < w.output.hi)) :
    hostWriteMem addr bytes s = .refused .ownershipViolated := by
  refine guardMemory_owned hfits hw ?_ _
  rw [Bool.or_eq_true]
  exact ha.imp (meets_of_common ⟨hlo, hhi⟩) (meets_of_common ⟨hlo, hhi⟩)

theorem hostReadMem_owned {addr : Word} {n : Nat} {s : State} {w : Window} {a : Nat}
    (hfits : addr.toNat + n ≤ 2 ^ 64) (hw : w ∈ s.owned) (hlo : addr.toNat ≤ a) (hhi : a < addr.toNat + n)
    (ha : w.output.lo ≤ a ∧ a < w.output.hi) : hostReadMem addr n s = .refused .ownershipViolated :=
  guardMemory_owned hfits hw (meets_of_common ⟨hlo, hhi⟩ ha) _

/-- With nothing owned, an access that meets a device is refused (log 26). -/
theorem guardMemory_device {addr : Word} {n : Nat} {s : State} {r : AddrRange} (hfits : addr.toNat + n ≤ 2 ^ 64)
    (howned : s.owned = []) (hr : r ∈ s.platform.sideEffect) (hm : r.meets ⟨addr.toNat, addr.toNat + n⟩ = true)
    (touches : Window → AddrRange → Bool) (after : State) :
    guardMemory addr n touches s after = .refused .deviceAccess := by
  have hnone : ¬(s.owned.any fun w => touches w ⟨addr.toNat, addr.toNat + n⟩) = true := by simp [howned]
  rw [guardMemory, if_neg (by omega), if_neg hnone, if_pos (List.any_of_mem hr hm)]

/-! ### Accesses to memory the engine does not own -/

/-- The addresses `addr`, …, `addr + n - 1` of an access miss a range. -/
def AccessMisses (addr : Word) (n : Nat) (r : AddrRange) : Prop :=
  ∀ a, addr.toNat ≤ a → a < addr.toNat + n → ¬(r.lo ≤ a ∧ a < r.hi)

theorem AccessMisses.not_meets {addr : Word} {n : Nat} {r : AddrRange} (h : AccessMisses addr n r) :
    AddrRange.meets ⟨addr.toNat, addr.toNat + n⟩ r = false :=
  not_meets_of_apart h

theorem AccessMisses.not_meets_access {addr : Word} {n : Nat} {r : AddrRange} (h : AccessMisses addr n r) :
    r.meets ⟨addr.toNat, addr.toNat + n⟩ = false :=
  not_meets_of_apart fun a h1 h2 ⟨h3, h4⟩ => h a h3 h4 ⟨h1, h2⟩

theorem hostReadMem_ok {addr : Word} {n : Nat} {s : State} (hfits : addr.toNat + n ≤ 2 ^ 64)
    (hdevice : ∀ r ∈ s.platform.sideEffect, AccessMisses addr n r)
    (howned : ∀ w ∈ s.owned, AccessMisses addr n w.output) :
    hostReadMem addr n s = .next { s with hostBytes := s.mem.readBytes addr.toNat n } :=
  guardMemory_ok hfits (fun w hw => (howned w hw).not_meets) fun r hr => (hdevice r hr).not_meets_access

theorem hostWriteMem_ok {addr : Word} {bytes : List Byte} {s : State} (hfits : addr.toNat + bytes.length ≤ 2 ^ 64)
    (hdevice : ∀ r ∈ s.platform.sideEffect, AccessMisses addr bytes.length r)
    (hinput : ∀ w ∈ s.owned, AccessMisses addr bytes.length w.input)
    (houtput : ∀ w ∈ s.owned, AccessMisses addr bytes.length w.output) :
    hostWriteMem addr bytes s = .next { s with mem := s.mem.writeBytes addr.toNat bytes } := by
  refine guardMemory_ok hfits (fun w hw => ?_) fun r hr => (hdevice r hr).not_meets_access
  rw [(hinput w hw).not_meets, (houtput w hw).not_meets]
  rfl

/-- Bytes stored in a row read back (20_memory.md R60). -/
theorem Memory.readBytes_writeBytes (m : Memory) (a : Nat) (bytes : List Byte) :
    (m.writeBytes a bytes).readBytes a bytes.length = bytes := by
  induction bytes generalizing m a with
  | nil => rfl
  | cons b rest ih =>
    rw [List.length_cons, Memory.readBytes, Memory.writeBytes, ih,
      Memory.read_writeBytes_outside _ _ (.inl (Nat.lt_succ_self a)), Memory.read_writeByte_same]

/-- Settles O53: an access that fits and misses what is owned and every device is carried out, and one guard turns the
others away. -/
theorem hostMemoryAccess : Obligations.HostMemoryAccess := by
  rintro s addr bytes n rfl
  refine ⟨fun hfits hdevice => ⟨fun howned => ?_, fun houtput => ?_⟩, fun hpast => ?_, fun hfits hnone hmeets => ?_⟩
  · have hinput : ∀ w ∈ s.owned, AccessMisses addr bytes.length w.input :=
      fun w hw a h1 h2 => (howned w hw a h1 h2).1
    have houtput : ∀ w ∈ s.owned, AccessMisses addr bytes.length w.output :=
      fun w hw a h1 h2 => (howned w hw a h1 h2).2
    refine ⟨_, _, hostWriteMem_ok hfits hdevice hinput houtput, hostReadMem_ok hfits hdevice houtput,
      Memory.readBytes_writeBytes s.mem addr.toNat bytes, rfl, fun a ha => ?_, rfl⟩
    exact Memory.read_writeBytes_outside s.mem bytes (by omega)
  · exact ⟨_, hostReadMem_ok hfits hdevice houtput, rfl, Memory.length_readBytes _ _ _,
      fun k hk => Memory.getD_readBytes _ _ _ k hk⟩
  · exact ⟨guardMemory_outside hpast _ _ _, guardMemory_outside hpast _ _ _⟩
  · obtain ⟨r, hr, a, h1, h2, h3, h4⟩ := hmeets
    have hm : r.meets ⟨addr.toNat, addr.toNat + bytes.length⟩ = true := meets_of_common ⟨h3, h4⟩ ⟨h1, h2⟩
    exact ⟨guardMemory_device hfits hnone hr hm _ _, guardMemory_device hfits hnone hr hm _ _⟩

/-! ### The end of ownership -/

/-- A read that is carried out returns ownership exactly when it is one of `STATUS`, outside BUSY (log 11). -/
theorem hostReadReg_owned {offset : BitVec 8} {s : State} (hr : s.inReset = false) (ha : offset.toNat % 8 = 0) :
    ∃ t, hostReadReg offset 8 s = .next t
      ∧ t.owned = if offset = 0x10 ∧ s.state ≠ .busy then [] else s.owned := by
  refine ⟨_, guardAccess_ok hr ha, ?_⟩
  by_cases hoff : offset = 0x10
  · subst hoff
    have hreg : regAt 0x10 = .status := rfl
    rw [if_pos hreg, observeStatus]
    by_cases hs : s.state = .busy
    · rw [if_pos hs, if_neg fun h => h.2 hs]
    · rw [if_neg hs, if_pos ⟨rfl, hs⟩]
  · rw [if_neg fun h => hoff (offset_of_regAt_status ha h), if_neg fun h => hoff h.1]

/-- Settles O54: the two cases of `hostReadReg_owned`. -/
theorem statusReadReturnsOwnership : Obligations.StatusReadReturnsOwnership := by
  intro s offset hr ha
  obtain ⟨t, ht, howned⟩ := hostReadReg_owned hr ha
  refine ⟨t, ht, fun hoff hs => ?_, fun hnot => ?_⟩
  · rw [howned, if_pos ⟨hoff, hs⟩]
  · rw [howned, if_neg fun h => hnot.elim (fun hn => hn h.1) h.2]

theorem CompletionFrame.owned {s t : State} (h : CompletionFrame s t) : t.owned = s.owned := by
  rw [h.kept]

theorem StoredEnd.owned {r : Reg} {w : Word} {s t : State} (h : StoredEnd r w s t) : t.owned = s.owned := by
  cases h with
  | readOnly ht | ignored _ ht | stored _ ht => rw [ht]
  | status _ ht => rw [ht, writeStatus_owned]

/-- A write of `CTRL` that is no soft reset keeps what is owned; a START adds to it. -/
theorem CtrlEnd.owned {v : Word} {s t : State} {w : Window} (h : CtrlEnd v s t) (hw : w ∈ s.owned) :
    v.getLsbD 2 = true ∨ w ∈ t.owned := by
  cases h with
  | reset hv _ => exact .inl hv
  | enable _ _ ht | ignored _ _ _ ht => subst ht; exact .inr hw
  | start _ _ _ _ ht => subst ht; exact .inr (List.mem_cons_of_mem _ hw)

/-- The events that end ownership: a read of `STATUS` outside BUSY, and the two resets (20_memory.md R71; log 11). -/
def EndsOwnership (e : Event) (s : State) : Prop :=
  (s.state ≠ .busy ∧ e = .regRead 0x10 8)
    ∨ (∃ v, e = .regWrite 0x08 8 v ∧ v.getLsbD 2 = true)
    ∨ e = .assertReset

theorem regRead_aligned {offset : BitVec 8} {size : Nat} {s t : State}
    (h : applyEvent (.regRead offset size) s = .next t) : offset.toNat % 8 = 0 := by
  obtain ⟨-, hlegal, -⟩ := guardAccess_eq_next h
  exact (accessShapeLegal_size hlegal).2

theorem applyEvent_owned {e : Event} {s t : State} {w : Window} (h : applyEvent e s = .next t) (hw : w ∈ s.owned) :
    EndsOwnership e s ∨ w ∈ t.owned := by
  cases applyEvent_cases h with
  | rest _ _ ht | restWithStatusWrite _ _ _ _ ht | memRead _ _ _ ht | memWrite _ _ _ _ ht | releaseReset _ ht =>
    subst ht
    exact .inr hw
  | completes _ _ ht | completesWithStatusWrite _ _ _ _ ht =>
    rw [ht.frame.owned]
    exact .inr hw
  | regRead offset he _ _ howned =>
    subst he
    by_cases hseen : regAt offset = .status ∧ s.state ≠ .busy
    · have hoff : offset = 0x10 := offset_of_regAt_status (regRead_aligned h) hseen.1
      exact .inl (.inl ⟨hseen.2, by rw [hoff]⟩)
    · rw [howned, if_neg hseen]
      exact .inr hw
  | ctrlWrite offset v he _ hoff hreg ht =>
    rw [offset_of_regAt_ctrl hoff hreg] at he
    exact (ht.owned hw).imp_left fun hv => .inr (.inl ⟨v, he, hv⟩)
  | regWrite offset v _ _ _ _ ht =>
    subst ht
    rw [(writeStored_cases (regAt offset) v s).owned]
    exact .inr hw
  | assertReset he _ => exact .inl (.inr (.inr he))

/-! ### Steps -/

theorem step_of_no_event {s : State} (h : s.inputs = []) : step s = engineStep s := by
  rw [step, advance, h]

theorem step_of_event {s : State} {e : Event} {rest : List Event} (h : s.inputs = e :: rest) :
    step s = applyEvent e { s with inputs := rest } := by
  rw [step, advance, h]

/-- A step that ends ownership takes an event off the list, and the event is one that ends it. -/
theorem step_endsOwnership {s t : State} {w : Window} (h : step s = .next t) (hw : w ∈ s.owned) (hn : w ∉ t.owned) :
    ∃ e rest, s.inputs = e :: rest ∧ EndsOwnership e s := by
  cases hin : s.inputs with
  | nil =>
    rw [step_of_no_event hin] at h
    obtain ⟨-, rfl⟩ | ⟨-, hc⟩ := engineStep_eq_next h
    · exact absurd hw hn
    · exact absurd hw (hc.frame.owned ▸ hn)
  | cons e rest =>
    rw [step_of_event hin] at h
    exact ⟨e, rest, rfl, (applyEvent_owned h hw).resolve_right hn⟩

/-- Settles O52: the guard refuses what touches an owned window, the invariant has the command in flight own its own,
and only the events of `EndsOwnership` end it. -/
theorem ownedMemoryIsTheEngines : Obligations.OwnedMemoryIsTheEngines := by
  refine ⟨fun s w addr a hw hlo => ⟨fun bytes rest hin hfits hhi htouch => ?_, fun n rest hin hfits hhi h1 h2 => ?_⟩,
    fun s h hs => ⟨_, h.busyOwns hs, rfl, rfl⟩, fun s t w hstep hw hn => ?_⟩
  · rw [step_of_event hin]
    exact hostWriteMem_owned (s := { s with inputs := rest }) hfits hw hlo hhi htouch
  · rw [step_of_event hin]
    exact hostReadMem_owned (s := { s with inputs := rest }) hfits hw hlo hhi ⟨h1, h2⟩
  · obtain ⟨e, rest, hin, hend⟩ := step_endsOwnership hstep hw hn
    obtain ⟨hs, rfl⟩ | ⟨v, rfl, hv⟩ | rfl := hend
    · exact .inl ⟨hs, rest, hin⟩
    · exact .inr (.inl ⟨v, rest, hin, hv⟩)
    · exact .inr (.inr ⟨rest, hin⟩)

end Sys2Proof.Machine
end

section
/-! PROOF. Memory changes only in the output region of a command in flight or by a write of the host (20_memory.md R66;
70_reset_and_hazards.md R322). -/

namespace Sys2Proof.Machine

open Sys2Proof.Safety

/-! ### The opcode of a decoded word -/

theorem eq_of_withoutWidth {width : BitVec 8} {i j : Instr} (h : withoutWidth width j = .ok i) : i = j := by
  unfold withoutWidth at h
  split at h
  · injection h with h
    exact h.symm
  · cases h

theorem eq_of_withWidth {i j : Instr} (h : withWidth j = .ok i) : i = j := by
  unfold withWidth at h
  split at h
  · injection h with h
    exact h.symm
  · cases h

theorem selectCommand_opcode {opc width : BitVec 8} {lenx : Bool} {i : Instr}
    (h : selectCommand opc.toNat width lenx = .ok i) : i.opcode = opc := by
  apply BitVec.eq_of_toNat_eq
  unfold selectCommand at h
  split at h
  case h_1 | h_5 | h_6 | h_7 | h_8 => rename_i hopc; rw [eq_of_withoutWidth h, hopc]; rfl
  case h_2 | h_3 | h_4 => rename_i hopc; rw [eq_of_withWidth h, hopc]; rfl
  case h_9 => cases h

/-- The command a word spells has the word's opcode (30_encoding.md R95). -/
theorem opcode_of_decode {w : Word} {i : Instr} (h : decode w = .ok i) : i.opcode = opcField w := by
  unfold decode at h
  split at h
  · cases h
  · split at h
    · cases h
    · split at h
      · cases h
      · exact selectCommand_opcode h

/-! ### What each change of the state leaves unchanged -/

/-- The address lies in the output region of a command in flight (10_state.md R39). -/
def OutputInFlight (s : State) (a : Nat) : Prop :=
  s.state = .busy ∧ s.outBase.toNat ≤ a
    ∧ a < s.outBase.toNat + s.outCap.toNat * elementSizeOf (opcField s.cmd)

theorem exec_read_outside {i : Instr} {s t : State} {a : Nat} (h : exec i s = .next t)
    (ha : ¬(s.outBase.toNat ≤ a ∧ a < s.outBase.toNat + s.outCap.toNat * elementSize i)) :
    t.mem.read a = s.mem.read a := by
  cases exec_cases h with
  | turnedAway _ ht | faulted _ _ _ _ ht => subst ht; exact freeOutput_read_outside ha
  | completed c _ _ _ _ hn ht =>
    subst ht
    have hfits : c.out.length * elementSize i ≤ s.outCap.toNat * elementSize i := Nat.mul_le_mul_right _ hn
    exact Memory.read_writeElements_outside _ _ (by omega)

theorem Completion.read_outside {s t : State} {a : Nat} (h : Completion s t) (hs : s.state = .busy)
    (ha : ¬OutputInFlight s a) : t.mem.read a = s.mem.read a := by
  have hout := fun hin => ha ⟨hs, hin⟩
  cases h with
  | noCommand e _ ht => subst ht; exact freeOutput_read_outside hout
  | command i hd ht =>
    have hsize : elementSize i = elementSizeOf (opcField s.cmd) := congrArg elementSizeOf (opcode_of_decode hd)
    exact exec_read_outside ht (by rwa [hsize])

theorem resetBlock_read_outside {s : State} {a : Nat} (ha : ¬OutputInFlight s a) :
    (resetBlock s).mem.read a = s.mem.read a := by
  rw [resetBlock_mem]
  by_cases hs : s.state = .busy
  · exact abandonCommand_read (.inl fun hin => ha ⟨hs, hin⟩)
  · rw [abandonCommand_of_not_busy hs]

theorem CtrlEnd.read_outside {w : Word} {s t : State} {a : Nat} (h : CtrlEnd w s t) (ha : ¬OutputInFlight s a) :
    t.mem.read a = s.mem.read a := by
  cases h with
  | reset _ ht => subst ht; exact resetBlock_read_outside ha
  | enable _ _ ht | ignored _ _ _ ht | start _ _ _ _ ht => subst ht; rfl

theorem StoredEnd.mem {r : Reg} {w : Word} {s t : State} (h : StoredEnd r w s t) : t.mem = s.mem := by
  cases h with
  | readOnly ht | ignored _ ht | stored _ ht => rw [ht]
  | status _ ht => rw [ht, writeStatus_mem]

/-- Outside the output region of a command in flight an event changes a byte only by writing it. -/
theorem EventEnd.read_outside {e : Event} {s t : State} {a : Nat} (h : EventEnd e s t) (ha : ¬OutputInFlight s a) :
    t.mem.read a = s.mem.read a
      ∨ ∃ addr bytes, e = .memWrite addr bytes ∧ addr.toNat ≤ a ∧ a < addr.toNat + bytes.length := by
  cases h with
  | completes _ hs ht => exact .inl (ht.read_outside hs ha)
  | completesWithStatusWrite w _ _ hs ht => exact .inl (ht.read_outside (s := writeStatus w s) hs ha)
  | ctrlWrite _ _ _ _ _ _ ht => exact .inl (ht.read_outside ha)
  | regWrite offset w _ _ _ _ ht => subst ht; rw [(writeStored_cases (regAt offset) w s).mem]; exact .inl rfl
  | assertReset _ ht => subst ht; exact .inl (resetBlock_read_outside ha)
  | memWrite addr bytes he _ ht =>
    subst ht
    by_cases hin : addr.toNat ≤ a ∧ a < addr.toNat + bytes.length
    · exact .inr ⟨addr, bytes, he, hin⟩
    · exact .inl (Memory.read_writeBytes_outside _ _ (by omega))
  | rest _ _ ht | restWithStatusWrite _ _ _ _ ht | regRead _ _ _ ht _ | memRead _ _ _ ht | releaseReset _ ht =>
    rw [ht]
    exact .inl rfl

/-- Settles O55: no event changes another byte, and only an event that is taken off the list is a host write. -/
theorem onlyOutputAndHostWritesChangeMemory : Obligations.OnlyOutputAndHostWritesChangeMemory := by
  intro s t a hstep hchanged
  by_cases ha : OutputInFlight s a
  · exact .inl ha
  · obtain ⟨e, s', rfl, he, hend⟩ := step_cases hstep
    obtain hsame | ⟨addr, bytes, rfl, hin⟩ := hend.read_outside ha
    · exact absurd hsame hchanged
    · obtain ⟨-, he⟩ | he := he
      · cases he
      · exact .inr ⟨addr, bytes, _, he, hin⟩

end Sys2Proof.Machine
end

section
/-! PROOF. The commands the model refuses: on memory with access side effects, and on a platform that is not coherent, at
START and at completion (20_memory.md R67, R78; log 12, log 13). -/

namespace Sys2Proof.Machine

open Sys2Proof.Safety

/-- One address of the window or of the region with access side effects is enough (20_memory.md R67). -/
theorem touchesSideEffects_of_mem {i : Instr} {s : State} {r : AddrRange} {a : Nat}
    (hr : r ∈ s.platform.sideEffect) (hlo : r.lo ≤ a) (hhi : a < r.hi)
    (ha : (s.inBase.toNat ≤ a ∧ a < s.inBase.toNat + s.inLen.toNat)
      ∨ (s.outBase.toNat ≤ a ∧ a < s.outBase.toNat + s.outCap.toNat * elementSize i)) :
    touchesSideEffects i s = true := by
  refine List.any_of_mem hr ?_
  rw [Bool.or_eq_true]
  exact ha.imp (meets_of_common ⟨hlo, hhi⟩) (meets_of_common ⟨hlo, hhi⟩)

theorem exec_sideEffectMemory {i : Instr} {s : State} (hlegal : operandsLegal i s = true)
    (htouch : touchesSideEffects i s = true) : exec i s = .refused .sideEffectMemory := by
  rw [exec_eq_runCommand, runCommand, hlegal, htouch]
  rfl

theorem commandRefusal_sideEffectMemory {i : Instr} {s : State} (hc : s.platform.coherent = true)
    (hd : decode s.cmd = .ok i) (hlegal : operandsLegal i s = true) (htouch : touchesSideEffects i s = true) :
    commandRefusal s = some .sideEffectMemory := by
  simp [commandRefusal, hc, hd, hlegal, htouch]

theorem commandRefusal_notCoherent {s : State} (hc : s.platform.coherent = false) :
    commandRefusal s = some .notCoherent := by
  rw [commandRefusal, hc]
  rfl

/-- A START of a command the model refuses is refused, with the same reason (log 12, log 13). -/
theorem hostWriteReg_start_refused {s : State} {w : Word} {r : Refusal} (hreset : s.inReset = false)
    (hs : s.state ≠ .busy) (h2 : w.getLsbD 2 = false) (h0 : w.getLsbD 0 = true) (hc : commandRefusal s = some r) :
    hostWriteReg 0x08 8 w s = .refused r := by
  have hstart : hostStart { s with irqEn := w.getLsbD 1 } = .refused r := by
    have hc' : commandRefusal { s with irqEn := w.getLsbD 1 } = some r :=
      (commandRefusal_congr rfl rfl rfl rfl rfl rfl rfl rfl).trans hc
    rw [hostStart, hc']
  rw [hostWriteReg_ctrl hreset]
  simp only [writeCtrl, h2, h0, hs, hstart, Bool.not_true, Bool.false_eq_true, if_false]

theorem engineStep_notCoherent {s : State} (hs : s.state = .busy) (hc : s.platform.coherent = false) :
    engineStep s = .refused .notCoherent := by
  rw [engineStep, if_pos hs, completeCommand, hc]
  rfl

/-- Settles O28: START and completion ask the same two questions. -/
theorem commandsThePlatformRefuses : Obligations.CommandsThePlatformRefuses := by
  refine ⟨fun i s r a hwf hrle hok hr hlo hhi ha => ?_, fun s hc => ⟨fun hin hs => ?_, fun w hreset hs h2 h0 => ?_⟩⟩
  · have hlegal : operandsLegal i s = true := (operandsLegal_iff i s).mpr ⟨hwf, hrle, hok⟩
    have htouch : touchesSideEffects i s = true := touchesSideEffects_of_mem hr hlo hhi ha
    exact ⟨exec_sideEffectMemory hlegal htouch, fun w hd hc hreset hs h2 h0 =>
      hostWriteReg_start_refused hreset hs h2 h0 (commandRefusal_sideEffectMemory hc hd hlegal htouch)⟩
  · rw [step_of_no_event hin, engineStep_notCoherent hs hc]
  · exact hostWriteReg_start_refused hreset hs h2 h0 (commandRefusal_notCoherent hc)

end Sys2Proof.Machine
end

section
/-! PROOF. The command word and the decoder (30_encoding.md R91, R95 to R99): the fields of a word as digits of its
number, which fix the word; the words that spell a command are its encoding and no other; and the three outcomes of the
decoder, with the opcode table row by row. -/

namespace Sys2Proof.Machine

open Sys2Proof.Safety

/-! ### The fields of a word -/

theorem opcField_toNat (w : Word) : (opcField w).toNat = w.toNat % 2 ^ 8 := by
  simp [opcField]

theorem widthField_toNat (w : Word) : (widthField w).toNat = w.toNat / 2 ^ 8 % 2 ^ 8 := by
  simp [widthField, Nat.shiftRight_eq_div_pow]

theorem lenxField_iff (w : Word) : lenxField w = true ↔ w.toNat / 2 ^ 16 % 2 = 1 := by
  rw [lenxField, BitVec.getLsbD, Nat.testBit_eq_decide_div_mod_eq, decide_eq_true_eq]

theorem reservedField_toNat (w : Word) : (reservedField w).toNat = w.toNat / 2 ^ 17 := by
  have hw := w.isLt
  rw [reservedField, BitVec.extractLsb'_toNat, Nat.shiftRight_eq_div_pow]
  omega

theorem reservedField_eq_zero_iff (w : Word) : reservedField w = 0 ↔ w.toNat / 2 ^ 17 = 0 := by
  rw [← BitVec.toNat_inj, reservedField_toNat]
  rfl

theorem opcField_and (v w : Word) : opcField (v &&& w) = opcField v &&& opcField w :=
  BitVec.extractLsb'_and

theorem widthField_and (v w : Word) : widthField (v &&& w) = widthField v &&& widthField w :=
  BitVec.extractLsb'_and

theorem lenxField_and (v w : Word) : lenxField (v &&& w) = (lenxField v && lenxField w) :=
  BitVec.getLsbD_and

theorem reservedField_and (v w : Word) : reservedField (v &&& w) = reservedField v &&& reservedField w :=
  BitVec.extractLsb'_and

/-- The four fields are the whole word (30_encoding.md R91). -/
theorem word_ext_fields {v w : Word} (hopc : opcField v = opcField w) (hwidth : widthField v = widthField w)
    (hlenx : lenxField v = lenxField w) (hres : reservedField v = reservedField w) : v = w := by
  apply BitVec.eq_of_toNat_eq
  rw [← BitVec.toNat_inj, opcField_toNat, opcField_toNat] at hopc
  rw [← BitVec.toNat_inj, widthField_toNat, widthField_toNat] at hwidth
  rw [Bool.eq_iff_iff, lenxField_iff, lenxField_iff] at hlenx
  rw [← BitVec.toNat_inj, reservedField_toNat, reservedField_toNat] at hres
  omega

/-- A word without reserved bits is put together from its own fields (30_encoding.md R91, R107). -/
theorem packCommand_fields {w : Word} (h : reservedField w = 0) :
    packCommand (opcField w) (widthField w) (lenxField w) = w :=
  word_ext_fields (opcField_packCommand _ _ _) (widthField_packCommand _ _ _) (lenxField_packCommand _ _ _)
    ((reservedField_packCommand _ _ _).trans h.symm)

theorem encodedFields (i : Instr) : Laws.EncodedFields.Statement i := by
  cases i with
  | varint => exact Laws.EncodedFields.varint
  | bitunpack width => exact Laws.EncodedFields.bitunpack width
  | rle width => exact Laws.EncodedFields.rle width
  | hybrid width lenx => exact Laws.EncodedFields.hybrid width lenx
  | delta32 => exact Laws.EncodedFields.delta32
  | delta64 => exact Laws.EncodedFields.delta64
  | bss32 => exact Laws.EncodedFields.bss32
  | bss64 => exact Laws.EncodedFields.bss64

/-! ### The command an opcode selects -/

theorem withoutWidth_eq_ok_iff {width : BitVec 8} {i j : Instr} :
    withoutWidth width j = .ok i ↔ width = 0 ∧ j = i := by
  unfold withoutWidth
  split <;> simp_all

theorem withWidth_eq_ok_iff {i j : Instr} : withWidth j = .ok i ↔ j.wellFormed = true ∧ j = i := by
  unfold withWidth
  split <;> simp_all

/-- `WIDTH` is outside the range of the opcode (30_encoding.md R98). -/
def WidthOutOfRange (opc width : Nat) : Prop :=
  (opc = 2 ∧ 64 < width) ∨ ((opc = 3 ∨ opc = 4) ∧ 32 < width) ∨ ((opc = 1 ∨ 5 ≤ opc) ∧ width ≠ 0)

/-- What a legal opcode selects: its command, or BAD_ARG for the width. -/
inductive Selection (opc : Nat) (width : BitVec 8) (lenx : Bool) : Prop where
  | command (i : Instr) (hwidth : ¬WidthOutOfRange opc width.toNat) (hs : selectCommand opc width lenx = .ok i)
  | badWidth (hwidth : WidthOutOfRange opc width.toNat) (hs : selectCommand opc width lenx = .error .badArg)

theorem Selection.of_withoutWidth {opc : Nat} {width : BitVec 8} {lenx : Bool} {i : Instr}
    (h : selectCommand opc width lenx = withoutWidth width i) (hopc : opc = 1 ∨ 5 ≤ opc) :
    Selection opc width lenx := by
  by_cases hw : width = 0
  · exact .command i (by simp [WidthOutOfRange, hw]) (by rw [h, withoutWidth, if_pos hw])
  · refine .badWidth (.inr (.inr ⟨hopc, fun h0 => hw (BitVec.eq_of_toNat_eq h0)⟩)) ?_
    rw [h, withoutWidth, if_neg hw]

theorem Selection.of_withWidth {opc : Nat} {width : BitVec 8} {lenx : Bool} {i : Instr}
    (h : selectCommand opc width lenx = withWidth i)
    (hwf : i.wellFormed = true ↔ ¬WidthOutOfRange opc width.toNat) : Selection opc width lenx := by
  by_cases hw : WidthOutOfRange opc width.toNat
  · exact .badWidth hw (by rw [h, withWidth, if_neg (fun hi => hwf.mp hi hw)])
  · exact .command i hw (by rw [h, withWidth, if_pos (hwf.mpr hw)])

theorem selectCommand_cases (opc : Nat) (width : BitVec 8) (lenx : Bool) (hlo : 1 ≤ opc) (hhi : opc ≤ 8) :
    Selection opc width lenx := by
  match opc with
  | 1 | 5 | 6 | 7 | 8 => exact .of_withoutWidth rfl (by decide)
  | 2 | 3 | 4 => exact .of_withWidth rfl (by simp [Instr.wellFormed, WidthOutOfRange])
  | 0 | _ + 9 => omega

/-- A selected command is in its width's range, and its encoding holds the fields it was selected by. -/
theorem encode_of_selectCommand {opc width : BitVec 8} {lenx : Bool} {i : Instr}
    (hlenx : lenx = true → opc = 0x04) (h : selectCommand opc.toNat width lenx = .ok i) :
    i.wellFormed = true ∧ encode i = packCommand opc width lenx := by
  obtain rfl : i.opcode = opc := selectCommand_opcode h
  have hno : i.opcode ≠ 0x04 → lenx = false := fun hne => Bool.eq_false_iff.mpr fun hl => hne (hlenx hl)
  unfold selectCommand at h
  split at h
  case h_1 | h_5 | h_6 | h_7 | h_8 =>
    obtain ⟨rfl, rfl⟩ := withoutWidth_eq_ok_iff.mp h
    exact ⟨rfl, by rw [hno nofun]; rfl⟩
  case h_2 | h_3 =>
    obtain ⟨hwf, rfl⟩ := withWidth_eq_ok_iff.mp h
    exact ⟨hwf, by rw [hno nofun]; rfl⟩
  case h_4 =>
    obtain ⟨hwf, rfl⟩ := withWidth_eq_ok_iff.mp h
    exact ⟨hwf, rfl⟩
  case h_9 => cases h

theorem selectCommand_encode {i : Instr} (hwf : i.wellFormed = true) :
    selectCommand i.opcode.toNat (widthField (encode i)) (lenxField (encode i)) = .ok i := by
  cases i with
  | varint | delta32 | delta64 | bss32 | bss64 =>
    exact withoutWidth_eq_ok_iff.mpr ⟨widthField_packCommand _ _ _, rfl⟩
  | bitunpack width | rle width =>
    rw [encode, widthField_packCommand]
    exact withWidth_eq_ok_iff.mpr ⟨hwf, rfl⟩
  | hybrid width lenx =>
    rw [encode, widthField_packCommand, lenxField_packCommand]
    exact withWidth_eq_ok_iff.mpr ⟨hwf, rfl⟩

/-! ### The decoder -/

theorem opcodeLegal_iff (w : Word) : opcodeLegal (opcField w) = true ↔ ¬OpcodeReserved w := by
  rw [opcodeLegal, OpcodeReserved, opcField_toNat, Bool.and_eq_true, decide_eq_true_eq, decide_eq_true_eq]
  omega

theorem opcodeLegal_opcode (i : Instr) : opcodeLegal i.opcode = true := by
  cases i <;> rfl

theorem opcField_eq_hybrid_iff (w : Word) : opcField w = 0x04 ↔ w.toNat % 2 ^ 8 = 4 := by
  rw [← BitVec.toNat_inj, opcField_toNat]
  rfl

theorem illegalForm_iff (w : Word) : IllegalForm w ↔ reservedField w ≠ 0 ∨ (lenxField w = true ∧ opcField w ≠ 0x04)
    ∨ WidthOutOfRange (opcField w).toNat (widthField w).toNat := by
  rw [Ne, Ne, reservedField_eq_zero_iff, opcField_eq_hybrid_iff, opcField_toNat, widthField_toNat]
  rfl

theorem decode_of_reserved {w : Word} (h : OpcodeReserved w) : decode w = .error .invalidType := by
  have hopc : opcodeLegal (opcField w) = false := Bool.eq_false_iff.mpr fun hl => (opcodeLegal_iff w).mp hl h
  rw [decode, hopc]
  rfl

theorem decode_of_reservedField {w : Word} (hopc : opcodeLegal (opcField w) = true) (h : reservedField w ≠ 0) :
    decode w = .error .badArg := by
  rw [decode, hopc]
  exact if_pos h

theorem decode_of_lenx {w : Word} (hopc : opcodeLegal (opcField w) = true) (hres : reservedField w = 0)
    (hlenx : lenxField w = true) (hne : opcField w ≠ 0x04) : decode w = .error .badArg := by
  rw [decode, hopc, hres, hlenx]
  exact if_pos (decide_eq_true hne)

/-- Past the checks on the opcode, the reserved bits and `LENX`, the decoder is the selection. -/
theorem decode_eq_selectCommand {w : Word} (hopc : opcodeLegal (opcField w) = true) (hres : reservedField w = 0)
    (hlenx : lenxField w = true → opcField w = 0x04) :
    decode w = selectCommand (opcField w).toNat (widthField w) (lenxField w) := by
  simp +contextual [decode, hopc, hres, hlenx]

/-- The three outcomes of the decoder (30_encoding.md R99). -/
inductive DecodeEnd (w : Word) : Prop where
  | reserved (hopc : OpcodeReserved w) (hd : decode w = .error .invalidType)
  | illegal (hopc : ¬OpcodeReserved w) (hform : IllegalForm w) (hd : decode w = .error .badArg)
  | command (i : Instr) (hopc : ¬OpcodeReserved w) (hform : ¬IllegalForm w) (hd : decode w = .ok i)

theorem decode_cases (w : Word) : DecodeEnd w := by
  by_cases hopc : OpcodeReserved w
  · exact .reserved hopc (decode_of_reserved hopc)
  have hlegal := (opcodeLegal_iff w).mpr hopc
  by_cases hres : reservedField w = 0
  · by_cases hlenx : lenxField w = true → opcField w = 0x04
    · have hbounds : 1 ≤ (opcField w).toNat ∧ (opcField w).toNat ≤ 8 := by
        simpa [opcodeLegal] using hlegal
      have hd := decode_eq_selectCommand hlegal hres hlenx
      cases selectCommand_cases _ (widthField w) (lenxField w) hbounds.1 hbounds.2 with
      | command i hwidth hs =>
        refine .command i hopc (fun hform => ?_) (hd.trans hs)
        rcases (illegalForm_iff w).mp hform with h | ⟨h, hne⟩ | h
        · exact h hres
        · exact hne (hlenx h)
        · exact hwidth h
      | badWidth hwidth hs => exact .illegal hopc ((illegalForm_iff w).mpr (.inr (.inr hwidth))) (hd.trans hs)
    · obtain ⟨hl, hne⟩ := Classical.not_imp.mp hlenx
      exact .illegal hopc ((illegalForm_iff w).mpr (.inr (.inl ⟨hl, hne⟩))) (decode_of_lenx hlegal hres hl hne)
  · exact .illegal hopc ((illegalForm_iff w).mpr (.inl hres)) (decode_of_reservedField hlegal hres)

theorem decode_badArg_of_not_ok {w : Word} (hopc : ¬OpcodeReserved w) (hno : ∀ i, decode w ≠ .ok i) :
    decode w = .error .badArg := by
  cases decode_cases w with
  | reserved hres _ => exact absurd hres hopc
  | illegal _ _ hd => exact hd
  | command i _ _ hd => exact absurd hd (hno i)

theorem not_illegalForm_of_decode {w : Word} {i : Instr} (h : decode w = .ok i) :
    ¬OpcodeReserved w ∧ ¬IllegalForm w := by
  cases decode_cases w with
  | reserved _ hd | illegal _ _ hd => simp [hd] at h
  | command _ hopc hform _ => exact ⟨hopc, hform⟩

theorem decode_of_illegalForm {w : Word} (hopc : ¬OpcodeReserved w) (hform : IllegalForm w) :
    decode w = .error .badArg :=
  decode_badArg_of_not_ok hopc fun _ hd => (not_illegalForm_of_decode hd).2 hform

theorem exists_decode_of_not_illegalForm {w : Word} (hopc : ¬OpcodeReserved w) (hform : ¬IllegalForm w) :
    ∃ i, decode w = .ok i := by
  cases decode_cases w with
  | reserved hres _ => exact absurd hres hopc
  | illegal _ h _ => exact absurd h hform
  | command i _ _ hd => exact ⟨i, hd⟩

theorem encode_of_decode {w : Word} {i : Instr} (h : decode w = .ok i) : i.wellFormed = true ∧ encode i = w := by
  obtain ⟨hopc, hform⟩ := not_illegalForm_of_decode h
  rw [illegalForm_iff, not_or, not_or, not_not, not_and, not_not] at hform
  obtain ⟨hres, hlenx, -⟩ := hform
  rw [decode_eq_selectCommand ((opcodeLegal_iff w).mpr hopc) hres hlenx] at h
  obtain ⟨hwf, he⟩ := encode_of_selectCommand hlenx h
  exact ⟨hwf, he.trans (packCommand_fields hres)⟩

theorem decode_encode {i : Instr} (hwf : i.wellFormed = true) : decode (encode i) = .ok i := by
  obtain ⟨hopc, hres, hlenx⟩ := encodedFields i
  rw [decode_eq_selectCommand (by rw [hopc]; exact opcodeLegal_opcode i) hres (by rwa [hopc]), hopc]
  exact selectCommand_encode hwf

/-- The words that spell a command are its encoding and no other, when it is well formed (30_encoding.md R91, R97). -/
theorem decode_eq_ok_iff {w : Word} {i : Instr} : decode w = .ok i ↔ i.wellFormed = true ∧ encode i = w :=
  ⟨encode_of_decode, fun ⟨hwf, he⟩ => he ▸ decode_encode hwf⟩

/-! ### The opcode table -/

/-- A row whose mask keeps `OPC`, and of `WIDTH` and `LENX` keeps only zeros, matches the words with its opcode
(30_encoding.md R99). -/
theorem matches_packCommand {r : OpcodeRow} {opc width : BitVec 8} {lenx : Bool}
    (hpattern : packCommand opc 0 false = r.pattern) (hopc : opcField r.mask = BitVec.allOnes 8)
    (hwidth : width &&& widthField r.mask = 0) (hlenx : lenx = false ∨ lenxField r.mask = false) :
    r.Matches (packCommand opc width lenx) := by
  rw [OpcodeRow.Matches, ← hpattern]
  apply word_ext_fields
  · rw [opcField_and, opcField_packCommand, opcField_packCommand, hopc, BitVec.and_allOnes]
  · rw [widthField_and, widthField_packCommand, widthField_packCommand, hwidth]
  · rw [lenxField_and, lenxField_packCommand, lenxField_packCommand, Bool.and_eq_false_iff.mpr hlenx]
  · rw [reservedField_and, reservedField_packCommand, reservedField_packCommand]
    exact BitVec.zero_and

theorem exists_row_matches_encode (i : Instr) : ∃ r ∈ opcodeTable, r.Matches (encode i) := by
  cases i with
  | varint => exact ⟨opcodeTable[0], by decide, matches_packCommand rfl rfl rfl (.inl rfl)⟩
  | bitunpack width =>
    exact ⟨opcodeTable[1], by decide, matches_packCommand (opc := 0x02) rfl rfl BitVec.and_zero (.inl rfl)⟩
  | rle width =>
    exact ⟨opcodeTable[2], by decide, matches_packCommand (opc := 0x03) rfl rfl BitVec.and_zero (.inl rfl)⟩
  | hybrid width lenx =>
    exact ⟨opcodeTable[3], by decide, matches_packCommand (opc := 0x04) rfl rfl BitVec.and_zero (.inr rfl)⟩
  | delta32 => exact ⟨opcodeTable[4], by decide, matches_packCommand rfl rfl rfl (.inl rfl)⟩
  | delta64 => exact ⟨opcodeTable[5], by decide, matches_packCommand rfl rfl rfl (.inl rfl)⟩
  | bss32 => exact ⟨opcodeTable[6], by decide, matches_packCommand rfl rfl rfl (.inl rfl)⟩
  | bss64 => exact ⟨opcodeTable[7], by decide, matches_packCommand rfl rfl rfl (.inl rfl)⟩

/-- Every row fixes a legal opcode. -/
theorem opcodeTable_opcode : ∀ r ∈ opcodeTable,
    opcField r.mask = BitVec.allOnes 8 ∧ opcodeLegal (opcField r.pattern) = true := by
  decide

/-- Every row's largest width is that of its opcode (30_encoding.md R98). -/
theorem opcodeTable_maxWidth : ∀ r ∈ opcodeTable,
    ((opcField r.pattern).toNat = 2 ∧ r.maxWidth = 64)
      ∨ (((opcField r.pattern).toNat = 3 ∨ (opcField r.pattern).toNat = 4) ∧ r.maxWidth = 32)
      ∨ (((opcField r.pattern).toNat = 1 ∨ 5 ≤ (opcField r.pattern).toNat) ∧ r.maxWidth = 0) := by
  decide

theorem widthOutOfRange_of_maxWidth_lt {r : OpcodeRow} (hr : r ∈ opcodeTable) {width : Nat} (h : r.maxWidth < width) :
    WidthOutOfRange (opcField r.pattern).toNat width := by
  have hmax := opcodeTable_maxWidth r hr
  unfold WidthOutOfRange
  omega

theorem opcField_of_matches {r : OpcodeRow} {w : Word} (hr : r ∈ opcodeTable) (hm : r.Matches w) :
    opcField w = opcField r.pattern := by
  rw [← show w &&& r.mask = r.pattern from hm, opcField_and, (opcodeTable_opcode r hr).1, BitVec.and_allOnes]

theorem not_opcodeReserved_of_matches {r : OpcodeRow} {w : Word} (hr : r ∈ opcodeTable) (hm : r.Matches w) :
    ¬OpcodeReserved w := by
  rw [← opcodeLegal_iff, opcField_of_matches hr hm]
  exact (opcodeTable_opcode r hr).2

theorem illegalForm_of_matches {r : OpcodeRow} {w : Word} (hr : r ∈ opcodeTable) (hm : r.Matches w)
    (h : r.maxWidth < w.toNat / 2 ^ 8 % 2 ^ 8) : IllegalForm w := by
  rw [illegalForm_iff, opcField_of_matches hr hm, widthField_toNat]
  exact .inr (.inr (widthOutOfRange_of_maxWidth_lt hr h))

/-! ### The statements -/

/-- Settles O1: the encoding passes the checks, and its opcode selects the command it came from. -/
theorem decodeOfEncodedCommand : Obligations.DecodeOfEncodedCommand :=
  fun _ => decode_encode

/-- Settles O2: the decoder leaves no field of the word unread, and the fields are the whole word. -/
theorem decodedWordIsTheEncoding : Obligations.DecodedWordIsTheEncoding :=
  fun _ _ => encode_of_decode

/-- Settles O3: the decoder has the three outcomes of `decode_cases`; the encoding of a command matches a row, and
a row's `WIDTH` range is its opcode's. -/
theorem decoderClassifiesEveryWord : Obligations.DecoderClassifiesEveryWord := by
  refine fun w => ⟨decode_of_reserved, decode_of_illegalForm, fun hopc hform => ?_, fun hopc hrow => ?_,
    fun r hr hm hwidth => ?_⟩
  · obtain ⟨i, hd⟩ := exists_decode_of_not_illegalForm hopc hform
    exact ⟨i, hd, by rw [opcode_of_decode hd, opcField_toNat], (encode_of_decode hd).2⟩
  · refine decode_badArg_of_not_ok hopc fun i hd => ?_
    obtain ⟨r, hr, hm⟩ := exists_row_matches_encode i
    rw [(encode_of_decode hd).2] at hm
    exact hrow r hr hm
  · exact decode_of_illegalForm (not_opcodeReserved_of_matches hr hm) (illegalForm_of_matches hr hm hwidth)

/-- Settles O4: each word is the encoding of its command, which is well formed. -/
theorem writtenWordsDecode : Obligations.WrittenWordsDecode := by
  simp only [Obligations.WrittenWordsDecode, decode_eq_ok_iff]
  decide

end Sys2Proof.Machine
end

section
/-! PROOF. The completion step of a command: what it computes from the body's run, how a command that a check turns away
or whose count does not fit ends, and how the engine's step comes to it (40_command_execution.md R133, R138 to R142). -/

namespace Sys2Proof.Machine

open Sys2Proof.Safety

/-! ### What the completion step computes -/

/-- What the body of a command does on the registers and memory of a state (40_command_execution.md R134, R139). -/
def bodyRun (i : Instr) (s : State) : Run Unit :=
  bodyOf i (captureOperands s) (startContext (captureOperands s))

theorem exec_of_legal {i : Instr} {s : State} (hlegal : operandsLegal i s = true)
    (htouch : touchesSideEffects i s = false) :
    exec i s = .next (completeBody (elementSize i) s (bodyRun i s)) := by
  rw [exec_eq_runCommand, runCommand, hlegal, htouch]
  rfl

/-- The two ways `exec` answers a next state, each with the state it computes. -/
inductive ExecEnd (i : Instr) (s t : State) : Prop where
  | turnedAway (hcheck : operandsLegal i s = false) (ht : t = turnAway s (elementSize i) .badArg)
  | ran (hcheck : operandsLegal i s = true) (htouch : touchesSideEffects i s = false)
      (ht : t = completeBody (elementSize i) s (bodyRun i s))

theorem exec_end {i : Instr} {s t : State} (h : exec i s = .next t) : ExecEnd i s t := by
  cases hcheck : operandsLegal i s with
  | false =>
    rw [exec_turnedAway hcheck] at h
    injection h with h
    exact .turnedAway hcheck h.symm
  | true =>
    cases htouch : touchesSideEffects i s with
    | false =>
      rw [exec_of_legal hcheck htouch] at h
      injection h with h
      exact .ran hcheck htouch h.symm
    | true =>
      rw [exec_sideEffectMemory hcheck htouch] at h
      cases h

/-- The completion of a body that succeeded and met no bus error. -/
theorem completeBody_ok {esize : Nat} {s : State} {c : Ctx} (h : commandMeetsBusError esize s c = false) :
    completeBody esize s (.ok () c) = { completeDone s esize c.p c.out with draws := s.draws + 1 } := by
  rw [completeBody, finalContext, h]
  rfl

/-- The completion of a body that raised and met no bus error. -/
theorem completeBody_raised {esize : Nat} {s : State} {f : FaultCode} {c : Ctx}
    (h : commandMeetsBusError esize s c = false) :
    completeBody esize s (.raised f c) = takeFault (freeOutput s esize) f (BitVec.ofNat 64 c.p) := by
  rw [completeBody, finalContext, h]
  rfl

/-- The completion of a body that met a bus error. -/
theorem completeBody_busError {esize : Nat} {s : State} {r : Run Unit}
    (h : commandMeetsBusError esize s (finalContext r) = true) :
    completeBody esize s r = takeFault (freeOutput s esize) (busErrorCode s r) (Config.freePos s.draws) :=
  if_pos h

/-- Two states with the same free choices and the same answers of the bus complete a run in the same way, so that what
relates each outcome of theirs relates the completions. -/
theorem completeBody_related {R : State → State → Prop} {esize : Nat} {s s' : State}
    (hbus : ∀ c, commandMeetsBusError esize s' c = commandMeetsBusError esize s c) (hdraws : s'.draws = s.draws)
    (hfault : ∀ f pos, R (takeFault (freeOutput s' esize) f pos) (takeFault (freeOutput s esize) f pos))
    (hdone : ∀ c : Ctx, R { completeDone s' esize c.p c.out with draws := s'.draws + 1 }
      { completeDone s esize c.p c.out with draws := s.draws + 1 })
    (r : Run Unit) : R (completeBody esize s' r) (completeBody esize s r) := by
  cases h : commandMeetsBusError esize s (finalContext r) with
  | true =>
    have hcode : busErrorCode s' r = busErrorCode s r := by
      cases r with
      | ok u c => rfl
      | raised f c => rw [busErrorCode, busErrorCode, hdraws]
    rw [completeBody_busError h, completeBody_busError ((hbus _).trans h), hcode, hdraws]
    exact hfault _ _
  | false =>
    cases r with
    | ok u c => rw [completeBody_ok (c := c) h, completeBody_ok ((hbus c).trans h)]; exact hdone c
    | raised f c => rw [completeBody_raised (c := c) h, completeBody_raised ((hbus c).trans h)]; exact hfault _ _

/-- The fault a completed body reports: none, one of a body's, or BUS_ERROR. -/
theorem completeBody_fault {esize : Nat} {s : State} {r : Run Unit} (hr : ∀ f c, r = .raised f c → f.ofBody = true) :
    (completeBody esize s r).fault = .none ∨ (completeBody esize s r).fault.ofBody = true
      ∨ (completeBody esize s r).fault = .busError := by
  cases hbus : commandMeetsBusError esize s (finalContext r) with
  | true =>
    rw [completeBody_busError hbus, takeFault_fault]
    cases r with
    | ok u c => exact .inr (.inr rfl)
    | raised f c =>
      rw [busErrorCode]
      split
      · exact .inr (.inl (hr f c rfl))
      · exact .inr (.inr rfl)
  | false =>
    cases r with
    | ok u c => rw [completeBody_ok (c := c) hbus]; exact .inl rfl
    | raised f c => rw [completeBody_raised (c := c) hbus]; exact .inr (.inl (hr f c rfl))

/-- A command whose checks pass reports no fault of the checks. -/
theorem exec_fault_of_legal {i : Instr} {s t : State} (h : exec i s = .next t) (hlegal : operandsLegal i s = true) :
    t.fault = .none ∨ t.fault.ofBody = true ∨ t.fault = .busError := by
  cases exec_end h with
  | turnedAway hcheck _ => rw [hlegal] at hcheck; cases hcheck
  | ran _ _ ht =>
    subst ht
    exact completeBody_fault (orderly_body i ((operandsLegal_iff i s).mp hlegal).2.2).fault

/-- What taking a fault leaves, whatever the word that `FAULT_POS` takes. -/
theorem faultedWith_takeFault_word (s : State) (esize : Nat) (f : FaultCode) (pos : Word) :
    FaultedWith s (takeFault (freeOutput s esize) f pos) esize f pos.toNat := by
  have h := faultedWith_takeFault (s := s) (esize := esize) (f := f) pos.isLt
  rwa [BitVec.ofNat_toNat, BitVec.setWidth_eq] at h

/-- Settles O22: the ways a command can end are those of `exec_cases`, and a command turned away has taken BAD_ARG. -/
theorem commandEndsDoneOrError : Obligations.CommandEndsDoneOrError := by
  intro i s t h
  cases exec_cases h with
  | turnedAway _ ht => subst ht; exact .inr ⟨.badArg, _, by decide, faultedWith_turnAway s _ _⟩
  | faulted f pos _ hf ht => subst ht; exact .inr ⟨f, _, hf, faultedWith_takeFault_word s _ f pos⟩
  | completed c _ _ hp hlim hn ht =>
    subst ht
    exact .inl ⟨c.p, c.out, completedWith_completeDone (lt_of_le_of_lt hlim s.inLen.isLt)
      (lt_of_le_of_lt hn s.outCap.isLt), hp, hlim, hn⟩

/-! ### Commands turned away -/

/-- The header check fails on an odd header of `RLE` alone (40_command_execution.md R133 check 5). -/
theorem checkRleHeader_eq_false_iff (i : Instr) (s : State) :
    checkRleHeader i s = false ↔ i.opcode = 0x03 ∧ s.arg0.getLsbD 0 = true := by
  cases i with
  | varint | bitunpack _ | rle _ | hybrid _ _ | delta32 | delta64 | bss32 | bss64 =>
    simp [checkRleHeader, Instr.opcode]

theorem operandsLegal_eq_false {i : Instr} {s : State}
    (h : ¬OperandsOk (elementSize i) s ∨ checkRleHeader i s = false) : operandsLegal i s = false := by
  rw [Bool.eq_false_iff, Ne, operandsLegal_iff]
  rintro ⟨-, hrle, hok⟩
  rcases h with h | h
  · exact h hok
  · rw [hrle] at h; cases h

theorem exec_failedCheck {i : Instr} {s : State} (h : ¬OperandsOk (elementSize i) s ∨ checkRleHeader i s = false) :
    ∃ t, exec i s = .next t ∧ FaultedWith s t (elementSize i) .badArg s.cursor.toNat :=
  ⟨_, exec_turnedAway (operandsLegal_eq_false h), faultedWith_turnAway s _ _⟩

/-- Settles O23: either check that fails turns the command away. -/
theorem failedCheckTurnsTheCommandAway : Obligations.FailedCheckTurnsTheCommandAway := by
  intro i s h
  refine exec_failedCheck (h.imp_right ?_)
  rintro ⟨w, rfl, hodd⟩
  exact (checkRleHeader_eq_false_iff _ s).mpr ⟨rfl, hodd⟩

/-! ### Counts beyond the capacity -/

/-- A body that begins with the capacity check of a count beyond `OUT_CAP` raises there
(40_command_execution.md R138). -/
theorem exec_countBeyondCapacity {i : Instr} {s : State} {count : Nat} {rest : Unit → Eng Unit}
    (hbody : bodyOf i (captureOperands s) = andThen (need (captureOperands s) count) rest)
    (hwf : i.wellFormed = true) (hrle : checkRleHeader i s = true) (h : Undisturbed (elementSize i) s)
    (hcount : s.outCap.toNat < count) :
    ∃ t, exec i s = .next t ∧ FaultedWith s t (elementSize i) .capacity s.cursor.toNat := by
  have hneed : need (captureOperands s) count (startContext (captureOperands s))
      = .raised .capacity (startContext (captureOperands s)) :=
    need_short _ (lt_of_lt_of_le hcount (Nat.le_add_left _ _))
  exact exec_faults i rfl hwf hrle h (by rw [hbody]; exact andThen_raised hneed)

/-- Settles O41: each of these bodies begins with the capacity check of its count. -/
theorem countBeyondCapacityFaults : Obligations.CountBeyondCapacityFaults := by
  rintro s i count hi h hcount
  rcases hi with ⟨rfl, rfl⟩ | ⟨w, rfl, hw, rfl⟩ | ⟨w, rfl, hw, heven, rfl⟩ | ⟨rfl | rfl, rfl⟩
  · exact exec_countBeyondCapacity rfl rfl rfl h hcount
  · exact exec_countBeyondCapacity rfl (decide_eq_true hw) rfl h hcount
  · exact exec_countBeyondCapacity rfl (decide_eq_true hw) (decide_eq_true heven) h hcount
  · exact exec_countBeyondCapacity rfl rfl rfl h hcount
  · exact exec_countBeyondCapacity rfl rfl rfl h hcount

/-! ### The engine's step -/

theorem engineStep_of_decode {s : State} {i : Instr} (hs : s.state = .busy) (hc : s.platform.coherent = true)
    (hd : decode s.cmd = .ok i) : engineStep s = exec i s := by
  rw [engineStep, if_pos hs, completeCommand, hc, hd]
  rfl

theorem engineStep_of_decode_error {s : State} {e : DecodeError} (hs : s.state = .busy)
    (hc : s.platform.coherent = true) (hd : decode s.cmd = .error e) :
    engineStep s = .next (turnAway s (elementSizeOf (opcField s.cmd)) (decodeFault e)) := by
  rw [engineStep, if_pos hs, completeCommand, hc, hd]
  rfl

/-- Settles O5: with the engine next, by the list's end or its first event, the step is the engine's. -/
theorem stepRunsTheDecodedCommand : Obligations.StepRunsTheDecodedCommand := by
  refine fun s i hs hc hd => ⟨fun hin => ?_, fun rest hin => ?_⟩
  · rw [step_of_no_event hin, engineStep_of_decode hs hc hd]
  · rw [step_of_event hin]
    exact engineStep_of_decode (s := { s with inputs := rest }) hs hc hd

/-- A BUSY block whose command the model does not refuse completes (40_command_execution.md R142). -/
theorem engineStep_completes {s : State} (hs : s.state = .busy) (h : commandRefusal s = none) :
    ∃ t, engineStep s = .next t := by
  have hc : s.platform.coherent = true := by
    by_contra hn
    rw [commandRefusal_notCoherent (by simpa using hn)] at h
    cases h
  cases hd : decode s.cmd with
  | error e => exact ⟨_, engineStep_of_decode_error hs hc hd⟩
  | ok i =>
    rw [engineStep_of_decode hs hc hd]
    exact (exec_next_of_commandRefusal h hd).2

theorem commandRefusal_of_noSideEffect {s : State} (hc : s.platform.coherent = true)
    (h : s.platform.sideEffect = []) : commandRefusal s = none := by
  have htouch : ∀ i, touchesSideEffects i s = false := fun i => by rw [touchesSideEffects, h]; rfl
  cases hd : decode s.cmd <;> simp [commandRefusal, hc, hd, htouch]

/-- Settles O9: under either premise the model does not refuse the command in flight. -/
theorem busyBlockCompletes : Obligations.BusyBlockCompletes := by
  intro s hin hs h
  have hrun : commandRefusal s = none := h.elim (fun hinv => hinv.busyRuns hs) fun hq =>
    commandRefusal_of_noSideEffect hq.1 hq.2
  obtain ⟨t, ht⟩ := engineStep_completes hs hrun
  rcases engineStep_eq_next ht with ⟨hn, -⟩ | ⟨-, hend⟩
  · exact absurd hs hn
  · exact ⟨t, by rw [step_of_no_event hin, ht], hend.frame.ended, hend.frame.irqPending⟩

/-! ### The checks in their order -/

theorem opcField_eq_ofNat (w : Word) : opcField w = BitVec.ofNat 8 w.toNat := by
  rw [← BitVec.toNat_inj, opcField_toNat, BitVec.toNat_ofNat]

/-- A reserved opcode has no element size (30_encoding.md R95). -/
theorem elementSizeOf_reserved {w : Word} (h : OpcodeReserved w) : elementSizeOf (opcField w) = 0 := by
  have hall : ∀ opc : BitVec 8, opcodeLegal opc = false → elementSizeOf opc = 0 := by decide
  exact hall _ (Bool.eq_false_iff.mpr fun hl => (opcodeLegal_iff w).mp hl h)

/-- The header check on the command a word spells, read off the word. -/
theorem checkRleHeader_of_decode {s : State} {i : Instr} (hd : decode s.cmd = .ok i) :
    checkRleHeader i s = false ↔ s.cmd.toNat % 2 ^ 8 = 3 ∧ s.arg0.getLsbD 0 = true := by
  rw [checkRleHeader_eq_false_iff, opcode_of_decode hd, ← BitVec.toNat_inj, opcField_toNat]
  rfl

/-- A word whose opcode is legal, in an illegal form or with operands that fail a check, completes with BAD_ARG. -/
theorem engineStep_badArg {s : State} (hs : s.state = .busy) (hc : s.platform.coherent = true)
    (hopc : ¬OpcodeReserved s.cmd)
    (h : IllegalForm s.cmd ∨ (s.cmd.toNat % 2 ^ 8 = 3 ∧ s.arg0.getLsbD 0 = true)
      ∨ ¬OperandsOk (elementSizeOf (opcField s.cmd)) s) :
    ∃ t, engineStep s = .next t
      ∧ FaultedWith s t (elementSizeOf (opcField s.cmd)) .badArg s.cursor.toNat := by
  cases decode_cases s.cmd with
  | reserved hres _ => exact absurd hres hopc
  | illegal _ _ hd => exact ⟨_, engineStep_of_decode_error hs hc hd, faultedWith_turnAway s _ _⟩
  | command i _ hform hd =>
    have hsize : elementSize i = elementSizeOf (opcField s.cmd) := congrArg elementSizeOf (opcode_of_decode hd)
    rw [engineStep_of_decode hs hc hd, ← hsize]
    refine exec_failedCheck ?_
    rw [hsize, checkRleHeader_of_decode hd]
    exact (h.resolve_left hform).symm

/-- A word that spells a command whose checks pass reports no fault of the checks. -/
theorem engineStep_fault_of_passed {s t : State} (hs : s.state = .busy) (hc : s.platform.coherent = true)
    (hopc : ¬OpcodeReserved s.cmd) (hform : ¬IllegalForm s.cmd)
    (hrle : ¬(s.cmd.toNat % 2 ^ 8 = 3 ∧ s.arg0.getLsbD 0 = true))
    (hok : OperandsOk (elementSizeOf (opcField s.cmd)) s) (h : engineStep s = .next t) :
    t.fault = .none ∨ t.fault.ofBody = true ∨ t.fault = .busError := by
  obtain ⟨i, hd⟩ := exists_decode_of_not_illegalForm hopc hform
  rw [engineStep_of_decode hs hc hd] at h
  rw [← checkRleHeader_of_decode hd, Bool.not_eq_false] at hrle
  rw [← opcode_of_decode hd] at hok
  exact exec_fault_of_legal h ((operandsLegal_iff i s).mpr ⟨(encode_of_decode hd).1, hrle, hok⟩)

theorem not_checkFault {f : FaultCode} (h : f = .none ∨ f.ofBody = true ∨ f = .busError) :
    f ≠ .invalidType ∧ f ≠ .badArg := by
  cases f with
  | invalidType | badArg => revert h; decide
  | none | truncated | malformed | capacity | busError => decide

/-- Settles O6: the decoder's checks come first and turn a word away; a command it spells is turned away by its own
checks or runs its body, whose faults are others. -/
theorem operandChecksInOrder : Obligations.OperandChecksInOrder := by
  intro s hin hs hc
  rw [step_of_no_event hin, ← opcField_eq_ofNat]
  refine ⟨fun hopc => ?_, fun hopc hbad => ?_, fun hopc hform hrle hok t ht => ?_⟩
  · rw [engineStep_of_decode_error hs hc (decode_of_reserved hopc), elementSizeOf_reserved hopc]
    exact ⟨_, rfl, faultedWith_turnAway s _ _, rfl⟩
  · obtain ⟨t, ht, hfault⟩ := engineStep_badArg hs hc hopc hbad
    exact ⟨t, ht, hfault, by rw [hfault.fault]; rfl⟩
  · exact not_checkFault (engineStep_fault_of_passed hs hc hopc hform hrle hok ht)

/-! ### A host write that races with the completion -/

/-- The completion neither reads nor writes `WR_IGNORED` and the events to come. -/
theorem completeBody_withHost (esize : Nat) (s : State) (r : Run Unit) (g : Bool) (ins : List Event) :
    completeBody esize { s with wrIgnored := g, inputs := ins } r
      = { completeBody esize s r with wrIgnored := g, inputs := ins } :=
  completeBody_related (R := fun u t => u = { t with wrIgnored := g, inputs := ins }) (s := s)
    (s' := { s with wrIgnored := g, inputs := ins }) (fun _ => rfl) rfl (fun _ _ => rfl) (fun _ => rfl) r

theorem exec_withHost {i : Instr} {s t : State} (h : exec i s = .next t) (g : Bool) (ins : List Event) :
    exec i { s with wrIgnored := g, inputs := ins } = .next { t with wrIgnored := g, inputs := ins } := by
  cases exec_end h with
  | turnedAway hcheck ht => subst ht; exact exec_turnedAway hcheck
  | ran hcheck htouch ht =>
    subst ht
    rw [exec_of_legal (s := { s with wrIgnored := g, inputs := ins }) hcheck htouch, completeBody_withHost]
    rfl

theorem CompletionFrame.inputs {s t : State} (h : CompletionFrame s t) : t.inputs = s.inputs := by
  rw [h.kept]

theorem CompletionFrame.wrIgnored {s t : State} (h : CompletionFrame s t) : t.wrIgnored = s.wrIgnored := by
  rw [h.kept]

theorem CompletionFrame.inReset {s t : State} (h : CompletionFrame s t) : t.inReset = s.inReset := by
  rw [h.kept]

theorem CompletionFrame.not_busy {s t : State} (h : CompletionFrame s t) : t.state ≠ .busy := by
  intro hb
  have hended := h.ended
  rw [hb] at hended
  exact absurd hended (by decide)

theorem exec_withWrIgnored {i : Instr} {s t : State} (h : exec i s = .next t) (g : Bool) :
    exec i { s with wrIgnored := g } = .next { t with wrIgnored := g } :=
  (exec_withHost h g s.inputs).trans (by rw [← (exec_frame h).inputs])

theorem exec_withInputs {i : Instr} {s t : State} (h : exec i s = .next t) (ins : List Event) :
    exec i { s with inputs := ins } = .next { t with inputs := ins } :=
  (exec_withHost h s.wrIgnored ins).trans (by rw [← (exec_frame h).wrIgnored])

/-- What a write of `ARG0` does, BUSY or not (10_state.md R40, R46). -/
theorem hostWriteReg_arg0 {s : State} (hr : s.inReset = false) (v : Word) :
    hostWriteReg 0x48 8 v s = .next (writeUnlocked s { s with arg0 := v }) :=
  hostWriteReg_stored (r := .arg0) hr rfl rfl (by decide) v

/-- A write of `ARG0` that comes before the completion is ignored, and the command runs as it would. -/
theorem argWrite_before_completion {i : Instr} {s t : State} {v : Word} (hs : s.state = .busy) (hr : s.inReset = false)
    (hc : s.platform.coherent = true) (hd : decode s.cmd = .ok i) (h : exec i { s with inputs := [] } = .next t) :
    ∃ a, step { s with inputs := [.regWrite 0x48 8 v, .engine] } = .next a
      ∧ step a = .next { t with wrIgnored := true } := by
  refine ⟨{ s with inputs := [.engine], wrIgnored := true }, ?_, ?_⟩
  · refine (hostWriteReg_arg0 (s := { s with inputs := [.engine] }) hr v).trans ?_
    rw [writeUnlocked_of_busy (s := { s with inputs := [.engine] }) hs]
  · exact (engineStep_of_decode (s := { s with inputs := [], wrIgnored := true }) hs hc hd).trans
      (exec_withWrIgnored h true)

/-- A write of `ARG0` that comes after the completion takes effect, since the block is no longer BUSY. -/
theorem argWrite_after_completion {i : Instr} {s t : State} {v : Word} (hs : s.state = .busy) (hr : s.inReset = false)
    (hc : s.platform.coherent = true) (hd : decode s.cmd = .ok i) (h : exec i { s with inputs := [] } = .next t) :
    ∃ b, step { s with inputs := [.engine, .regWrite 0x48 8 v] } = .next b ∧ step b = .next { t with arg0 := v } := by
  have hframe := exec_frame h
  have hin : t.inputs = [] := hframe.inputs
  refine ⟨{ t with inputs := [.regWrite 0x48 8 v] }, ?_, ?_⟩
  · exact (engineStep_of_decode (s := { s with inputs := [.regWrite 0x48 8 v] }) hs hc hd).trans
      (exec_withInputs h [.regWrite 0x48 8 v])
  · rw [step_of_event rfl]
    refine (hostWriteReg_arg0 (s := { t with inputs := [] }) (hframe.inReset.trans hr) v).trans ?_
    rw [writeUnlocked_of_not_busy (s := { t with inputs := [] }) hframe.not_busy, ← hin]

/-- Settles O10: the two orders of the write and the completion. -/
theorem argWriteRacesCompletion : Obligations.ArgWriteRacesCompletion :=
  fun _ _ _ _ hs hr hc hd h =>
    ⟨argWrite_before_completion hs hr hc hd h, argWrite_after_completion hs hr hc hd h⟩

end Sys2Proof.Machine
end

section
/-! PROOF. What a command does with less: on another memory with the same bytes in the window from `CURSOR` on it does
the same, and with its window cut short it does the same up to the first byte it misses, where it is TRUNCATED. Both
come from one comparison of a body's runs on two sets of operands (40_command_execution.md R135, R143, R145;
20_memory.md R65). -/

namespace Sys2Proof.Machine

open Sys2Proof.Safety

/-! ### Two runs of a piece -/

/-- The operands `o'` are `o` with the input window cut, or left as it is, on a memory with the same bytes in what is
left of the window from offset `start` on. -/
structure CutOf (o o' : Operands) (start : Nat) : Prop where
  inBase : o'.inBase = o.inBase
  outCap : o'.outCap = o.outCap
  arg0 : o'.arg0 = o.arg0
  shorter : o'.inLen ≤ o.inLen
  bytes : ∀ a, o.inBase + start ≤ a → a < o.inBase + o'.inLen → o'.mem.read a = o.mem.read a

/-- The limits up to which a piece reads in the two runs: the second is the first, cut with the window. -/
structure LimitCut (o o' : Operands) (l l' : Nat) : Prop where
  inWindow : l ≤ o.inLen
  cut : l' = min l o'.inLen

theorem CutOf.limit_inLen {o o' : Operands} {start : Nat} (h : CutOf o o' start) : LimitCut o o' o.inLen o'.inLen :=
  ⟨le_refl _, (min_eq_right h.shorter).symm⟩

theorem CutOf.limit_stop {o o' : Operands} {start stop : Nat} (h : CutOf o o' start) (hstop : stop ≤ o'.inLen) :
    LimitCut o o' stop stop :=
  ⟨hstop.trans h.shorter, (min_eq_left hstop).symm⟩

/-- The second run ends as the first, inside the cut window; or it is TRUNCATED, having emitted no more, where the first
is not done before it has read past the cut. -/
inductive RunAgrees (o o' : Operands) {α : Type} (r r' : Run α) : Prop where
  | same (heq : r' = r) (hp : (ctxOf r).p ≤ o'.inLen)
  | truncated (c' : Ctx) (heq : r' = .raised .truncated c') (hcut : o'.inLen < o.inLen)
      (hout : c'.out <+: (ctxOf r).out) (hpast : ∀ a c1, r = .ok a c1 → o'.inLen < c1.p)

/-- The first run of a piece from `c` only moves forward and appends, and the second agrees with it when both start
inside the cut window. -/
structure Follows (o o' : Operands) (start : Nat) {α : Type} (c : Ctx) (r r' : Run α) : Prop where
  forward : c.p ≤ (ctxOf r).p
  appended : c.out <+: (ctxOf r).out
  agrees : start ≤ c.p → c.p ≤ o'.inLen → RunAgrees o o' r r'

section Pieces

variable {o o' : Operands} {start : Nat} {α β : Type}

/-- A piece that reads nothing does the same in both runs. -/
theorem follows_still {c : Ctx} {r : Run α} (hp : (ctxOf r).p = c.p) (hout : c.out <+: (ctxOf r).out) :
    Follows o o' start c r r :=
  ⟨hp.ge, hout, fun _ h => .same rfl (hp.trans_le h)⟩

theorem follows_give (a : α) (c : Ctx) : Follows o o' start c (give a c) (give a c) :=
  follows_still rfl (List.prefix_refl _)

theorem follows_raise (f : FaultCode) (c : Ctx) :
    Follows o o' start c ((raiseFault f : Eng α) c) ((raiseFault f : Eng α) c) :=
  follows_still rfl (List.prefix_refl _)

theorem follows_position (c : Ctx) : Follows o o' start c (position c) (position c) :=
  follows_still rfl (List.prefix_refl _)

theorem follows_emitted (c : Ctx) : Follows o o' start c (emitted c) (emitted c) :=
  follows_still rfl (List.prefix_refl _)

theorem follows_emit (vs : List Nat) (c : Ctx) : Follows o o' start c (emit vs c) (emit vs c) :=
  follows_still rfl (List.prefix_append _ _)

theorem follows_ite {p : Prop} [Decidable p] {x y x' y' : Eng α} {c : Ctx}
    (ht : p → Follows o o' start c (x c) (x' c)) (he : ¬p → Follows o o' start c (y c) (y' c)) :
    Follows o o' start c ((if p then x else y) c) ((if p then x' else y') c) := by
  by_cases hp : p
  · rw [if_pos hp, if_pos hp]; exact ht hp
  · rw [if_neg hp, if_neg hp]; exact he hp

/-- Pieces that agree compose: past a cut the first run only goes on forward, and the second has stopped. -/
theorem follows_bind {x x' : Eng α} {f f' : α → Eng β} {c : Ctx} (hx : Follows o o' start c (x c) (x' c))
    (hf : ∀ a c1, x c = .ok a c1 → Follows o o' start c1 (f a c1) (f' a c1)) :
    Follows o o' start c (andThen x f c) (andThen x' f' c) := by
  generalize hr : x c = r at hx
  obtain ⟨hfwd, happ, hagree⟩ := hx
  cases r with
  | raised e c1 =>
    rw [andThen_raised hr]
    refine ⟨hfwd, happ, fun h1 h2 => ?_⟩
    cases hagree h1 h2 with
    | same heq hp => exact .same (andThen_raised heq) hp
    | truncated c' heq hcut hout _ => exact .truncated c' (andThen_raised heq) hcut hout nofun
  | ok a c1 =>
    rw [andThen_ok hr]
    obtain ⟨hfwd', happ', hagree'⟩ := hf a c1 hr
    refine ⟨hfwd.trans hfwd', happ.trans happ', fun h1 h2 => ?_⟩
    cases hagree h1 h2 with
    | same heq hp => rw [andThen_ok heq]; exact hagree' (h1.trans hfwd) hp
    | truncated c' heq hcut hout hpast =>
      refine .truncated c' (andThen_raised heq) hcut (hout.trans happ') fun b c2 hb => ?_
      rw [hb] at hfwd'
      exact lt_of_lt_of_le (hpast a c1 rfl) hfwd'

/-! ### The primitives -/

theorem follows_need (h : CutOf o o' start) (k : Nat) (c : Ctx) :
    Follows o o' start c (need o k c) (need o' k c) := by
  have hsame : need o' k c = need o k c := by rw [need, need, h.outCap]
  rw [hsame]
  by_cases hk : c.n + k ≤ o.outCap
  · rw [need_ok o hk]; exact follows_still rfl (List.prefix_refl _)
  · rw [need_short o (by omega)]; exact follows_still rfl (List.prefix_refl _)

/-- The bytes are there in both runs, or in none, or the cut takes some away. -/
theorem follows_readBytes (h : CutOf o o' start) {l l' : Nat} (hl : LimitCut o o' l l') (k : Nat) (c : Ctx) :
    Follows o o' start c (readBytes o k l c) (readBytes o' k l' c) := by
  obtain ⟨hlim, rfl⟩ := hl
  by_cases hk : c.p + k ≤ l
  · rw [readBytes_ok o hk]
    refine ⟨Nat.le_add_right _ _, List.prefix_refl _, fun hlo _ => ?_⟩
    by_cases hk' : c.p + k ≤ o'.inLen
    · refine .same ?_ hk'
      rw [readBytes_ok o' (le_min hk hk'), h.inBase,
        Memory.readBytes_congr fun a h1 h2 => h.bytes a (by omega) (by omega)]
    · refine .truncated c (readBytes_short o' (by omega)) (by omega) (List.prefix_refl _) ?_
      rintro _ _ ⟨⟩
      exact not_le.mp hk'
  · rw [readBytes_short o (by omega)]
    exact ⟨le_refl _, List.prefix_refl _, fun _ hp => .same (readBytes_short o' (by omega)) hp⟩

theorem follows_readByte (h : CutOf o o' start) {l l' : Nat} (hl : LimitCut o o' l l') (c : Ctx) :
    Follows o o' start c (readByte o l c) (readByte o' l' c) :=
  follows_bind (follows_readBytes h hl 1 c) fun _ c1 _ => follows_give _ c1

theorem follows_varintFrom (h : CutOf o o' start) {l l' : Nat} (hl : LimitCut o o' l l') (left shift result : Nat)
    (c : Ctx) :
    Follows o o' start c (varintFrom o l left shift result c) (varintFrom o' l' left shift result c) := by
  induction left generalizing shift result c with
  | zero =>
    exact follows_bind (follows_readByte h hl c) fun _ c1 _ =>
      follows_ite (fun _ => follows_raise _ c1) fun _ => follows_give _ c1
  | succ left ih =>
    exact follows_bind (follows_readByte h hl c) fun _ c1 _ =>
      follows_ite (fun _ => follows_give _ c1) fun _ => ih _ _ c1

theorem follows_varint (h : CutOf o o' start) {l l' : Nat} (hl : LimitCut o o' l l') (c : Ctx) :
    Follows o o' start c (varint o l c) (varint o' l' c) :=
  follows_varintFrom h hl 9 0 0 c

theorem follows_bitUnpackFirst (h : CutOf o o' start) {l l' : Nat} (hl : LimitCut o o' l l') (ng bw count : Nat)
    (c : Ctx) :
    Follows o o' start c (bitUnpackFirst o ng bw count l c) (bitUnpackFirst o' ng bw count l' c) :=
  follows_bind (follows_readBytes h hl _ c) fun _ c1 _ => follows_give _ c1

theorem follows_rleRun (h : CutOf o o' start) {l l' : Nat} (hl : LimitCut o o' l l') (count bw : Nat) (c : Ctx) :
    Follows o o' start c (rleRun o count bw l c) (rleRun o' count bw l' c) :=
  follows_bind (follows_need h count c) fun _ c1 _ =>
    follows_bind (follows_readBytes h hl _ c1) fun _ c2 _ => follows_emit _ c2

/-- The capacity check, the run and the emission that `BITUNPACK` and `HYBRID` share. -/
theorem follows_packedRun (h : CutOf o o' start) {l l' : Nat} (hl : LimitCut o o' l l') (ng bw : Nat) (c : Ctx) :
    Follows o o' start c
      (andThen (need o (ng * 8)) (fun _ => andThen (bitUnpack o ng bw l) fun vs => emit vs) c)
      (andThen (need o' (ng * 8)) (fun _ => andThen (bitUnpack o' ng bw l') fun vs => emit vs) c) :=
  follows_bind (follows_need h _ c) fun _ c1 _ =>
    follows_bind (follows_bitUnpackFirst h hl ng bw _ c1) fun vs c2 _ => follows_emit vs c2

/-! ### The bodies -/

theorem follows_varints (h : CutOf o o' start) (count : Nat) (c : Ctx) :
    Follows o o' start c (varints o count c) (varints o' count c) := by
  induction count generalizing c with
  | zero => exact follows_give () c
  | succ count ih =>
    exact follows_bind (follows_varint h h.limit_inLen c) fun v c1 _ =>
      follows_bind (follows_emit [v] c1) fun _ c2 _ => ih c2

theorem follows_varintBody (h : CutOf o o' start) (c : Ctx) :
    Follows o o' start c (varintBody o c) (varintBody o' c) := by
  rw [varintBody, varintBody, h.arg0]
  exact follows_bind (follows_need h _ c) fun _ c1 _ => follows_varints h _ c1

theorem follows_bitunpackBody (h : CutOf o o' start) (bw : Nat) (c : Ctx) :
    Follows o o' start c (bitunpackBody bw o c) (bitunpackBody bw o' c) := by
  rw [bitunpackBody, bitunpackBody, h.arg0]
  exact follows_packedRun h h.limit_inLen _ bw c

theorem follows_rleBody (h : CutOf o o' start) (bw : Nat) (c : Ctx) :
    Follows o o' start c (rleBody bw o c) (rleBody bw o' c) := by
  rw [rleBody, rleBody, h.arg0]
  exact follows_rleRun h h.limit_inLen _ bw c

theorem follows_bssBody (h : CutOf o o' start) (planes : Nat) (c : Ctx) :
    Follows o o' start c (bssBody planes o c) (bssBody planes o' c) := by
  rw [bssBody, bssBody, h.arg0]
  exact follows_bind (follows_need h _ c) fun _ c1 _ =>
    follows_bind (follows_readBytes h h.limit_inLen _ c1) fun _ c2 _ => follows_emit _ c2

theorem follows_deltaMiniBlock (h : CutOf o o' start) (w : Nat) (hd : DeltaHeader) (minDelta prev width : Nat)
    (c : Ctx) :
    Follows o o' start c (deltaMiniBlock o w hd minDelta prev width c)
      (deltaMiniBlock o' w hd minDelta prev width c) :=
  follows_bind (follows_emitted c) fun _ c1 _ =>
    follows_bind (follows_bitUnpackFirst h h.limit_inLen _ _ _ c1) fun _ c2 _ =>
      follows_bind (follows_emit _ c2) fun _ c3 _ => follows_give _ c3

theorem follows_deltaMiniBlocks (h : CutOf o o' start) (w : Nat) (hd : DeltaHeader) (minDelta prev : Nat)
    (widths : List Byte) (c : Ctx) :
    Follows o o' start c (deltaMiniBlocks o w hd minDelta prev widths c)
      (deltaMiniBlocks o' w hd minDelta prev widths c) := by
  induction widths generalizing prev c with
  | nil => exact follows_give prev c
  | cons width widths ih =>
    exact follows_bind (follows_deltaMiniBlock h w hd minDelta prev _ c) fun last c1 _ => ih last c1

theorem follows_deltaBlock (h : CutOf o o' start) (w : Nat) (hd : DeltaHeader) (prev : Nat) (c : Ctx) :
    Follows o o' start c (deltaBlock o w hd prev c) (deltaBlock o' w hd prev c) :=
  follows_bind (follows_varint h h.limit_inLen c) fun _ c1 _ =>
    follows_bind (follows_readBytes h h.limit_inLen _ c1) fun _ c2 _ =>
      follows_ite (fun _ => follows_raise _ c2) fun _ => follows_deltaMiniBlocks h w hd _ prev _ c2

theorem follows_deltaBlocks (h : CutOf o o' start) (w : Nat) (hd : DeltaHeader) (fuel prev : Nat) (c : Ctx) :
    Follows o o' start c (deltaBlocks o w hd fuel prev c) (deltaBlocks o' w hd fuel prev c) := by
  induction fuel generalizing prev c with
  | zero => exact follows_give () c
  | succ fuel ih =>
    exact follows_bind (follows_emitted c) fun _ c1 _ =>
      follows_ite (fun _ => follows_bind (follows_deltaBlock h w hd prev c1) fun last c2 _ => ih last c2)
        fun _ => follows_give () c1

theorem follows_deltaAfterHeader (h : CutOf o o' start) (w : Nat) (hd : DeltaHeader) (first : Nat) (c : Ctx) :
    Follows o o' start c (deltaAfterHeader o w hd first c) (deltaAfterHeader o' w hd first c) :=
  follows_ite (fun _ => follows_raise _ c) fun _ =>
    follows_bind (follows_need h _ c) fun _ c1 _ =>
      follows_bind (follows_emit _ c1) fun _ c2 _ => follows_deltaBlocks h w hd _ first c2

theorem follows_deltaBody (h : CutOf o o' start) (w : Nat) (c : Ctx) :
    Follows o o' start c (deltaBody w o c) (deltaBody w o' c) :=
  follows_bind (follows_varint h h.limit_inLen c) fun _ c1 _ =>
    follows_bind (follows_varint h h.limit_inLen c1) fun _ c2 _ =>
      follows_bind (follows_varint h h.limit_inLen c2) fun _ c3 _ =>
        follows_bind (follows_varint h h.limit_inLen c3) fun _ c4 _ => follows_deltaAfterHeader h w _ _ c4

/-! ### The body of `HYBRID` -/

theorem follows_regionLength (h : CutOf o o' start) (lenx : Bool) (c : Ctx) :
    Follows o o' start c (regionLength lenx o c) (regionLength lenx o' c) := by
  rw [regionLength, regionLength, h.arg0]
  exact follows_ite (fun _ => follows_give _ c) fun _ =>
    follows_bind (follows_readBytes h h.limit_inLen 4 c) fun _ c1 _ =>
      follows_ite (fun _ => follows_raise _ c1) fun _ => follows_give _ c1

theorem follows_hybridRun (h : CutOf o o' start) {stop : Nat} (hstop : stop ≤ o'.inLen) (bw : Nat) (c : Ctx) :
    Follows o o' start c (hybridRun o bw stop c) (hybridRun o' bw stop c) :=
  follows_bind (follows_varint h (h.limit_stop hstop) c) fun _ c1 _ =>
    follows_ite (fun _ => follows_rleRun h (h.limit_stop hstop) _ bw c1) fun _ =>
      follows_packedRun h (h.limit_stop hstop) _ bw c1

theorem follows_hybridRuns (h : CutOf o o' start) {stop : Nat} (hstop : stop ≤ o'.inLen) (bw fuel : Nat) (c : Ctx) :
    Follows o o' start c (hybridRuns o bw stop fuel c) (hybridRuns o' bw stop fuel c) := by
  induction fuel generalizing c with
  | zero => exact follows_give () c
  | succ fuel ih =>
    exact follows_bind (follows_position c) fun _ c1 _ =>
      follows_ite (fun _ => follows_bind (follows_hybridRun h hstop bw c1) fun _ c2 _ => ih c2)
        fun _ => follows_give () c1

theorem CutOf.refl (o : Operands) (start : Nat) : CutOf o o start :=
  ⟨rfl, rfl, rfl, le_refl _, fun _ _ _ => rfl⟩

/-- The region of `HYBRID` after its length: it is in both windows, where its runs are the same; or in none; or the cut
takes its end away, where the first run is done only at that end (43_hybrid.md R212, R213). -/
theorem follows_hybridRegion (h : CutOf o o' start) (bw len : Nat) {c : Ctx} (hn : c.n ≤ o.outCap) :
    Follows o o' start c
      ((if c.p + len > o.inLen then raiseFault .truncated else hybridRuns o bw (c.p + len) len) c)
      ((if c.p + len > o'.inLen then raiseFault .truncated else hybridRuns o' bw (c.p + len) len) c) := by
  have hshort := h.shorter
  by_cases hin : c.p + len ≤ o.inLen
  · rw [if_neg (not_lt.mpr hin)]
    by_cases hcut : c.p + len ≤ o'.inLen
    · rw [if_neg (not_lt.mpr hcut)]
      exact follows_hybridRuns h hcut bw len c
    · rw [if_pos (not_le.mp hcut)]
      obtain ⟨hfwd, happ, -⟩ := follows_hybridRuns (CutOf.refl o start) hin bw len c
      refine ⟨hfwd, happ, fun _ _ => .truncated c rfl (by omega) happ fun u c1 hok => ?_⟩
      rw [hybridRuns_ends len (Nat.le_add_right _ _) hn (le_refl _) hok]
      exact not_le.mp hcut
  · rw [if_pos (not_le.mp hin), if_pos (by omega)]
    exact follows_raise _ c

theorem follows_hybridBody (h : CutOf o o' start) (bw : Nat) (lenx : Bool) {c : Ctx} (hp : c.p ≤ o.inLen)
    (hn : c.n ≤ o.outCap) : Follows o o' start c (hybridBody bw lenx o c) (hybridBody bw lenx o' c) := by
  refine follows_bind (follows_regionLength h lenx c) fun len c1 hlen => ?_
  have horderly : Orderly o o.inLen c (regionLength lenx o c) := orderly_regionLength hp hn
  rw [hlen] at horderly
  exact follows_hybridRegion h bw len horderly.extends_.fits

/-! ### Every command -/

theorem follows_bodyOf (i : Instr) (h : CutOf o o' start) {c : Ctx} (hp : c.p ≤ o.inLen) (hn : c.n ≤ o.outCap) :
    Follows o o' start c (bodyOf i o c) (bodyOf i o' c) := by
  cases i with
  | varint => exact follows_varintBody h c
  | bitunpack width => exact follows_bitunpackBody h _ c
  | rle width => exact follows_rleBody h _ c
  | hybrid width lenx => exact follows_hybridBody h _ lenx hp hn
  | delta32 => exact follows_deltaBody h 32 c
  | delta64 => exact follows_deltaBody h 64 c
  | bss32 => exact follows_bssBody h 4 c
  | bss64 => exact follows_bssBody h 8 c

end Pieces

/-- A DONE completion is that of a body that succeeded and met no bus error. -/
theorem completeBody_done {esize : Nat} {s : State} {r : Run Unit} (h : (completeBody esize s r).state = .done) :
    ∃ c, r = .ok () c ∧ commandMeetsBusError esize s c = false := by
  cases hbus : commandMeetsBusError esize s (finalContext r) with
  | true => rw [completeBody_busError hbus] at h; cases h
  | false =>
    cases r with
    | ok u c => exact ⟨c, rfl, hbus⟩
    | raised f c => rw [completeBody_raised (c := c) hbus] at h; cases h

/-! ### Another memory -/

/-- The body's run depends on memory only through the window from `CURSOR` on (20_memory.md R65). -/
theorem bodyRun_withMem {i : Instr} {s : State} {m : Memory} (hok : OperandsOk (elementSize i) s)
    (hm : ∀ a, s.inBase.toNat + s.cursor.toNat ≤ a → a < s.inBase.toNat + s.inLen.toNat → m.read a = s.mem.read a) :
    bodyRun i { s with mem := m } = bodyRun i s := by
  have hcut : CutOf (captureOperands s) (captureOperands { s with mem := m }) s.cursor.toNat :=
    ⟨rfl, rfl, rfl, le_refl _, hm⟩
  have hstart := startContext_extends hok
  cases (follows_bodyOf i hcut hstart.1 hstart.2).agrees (le_refl _) hstart.1 with
  | same heq _ => exact heq
  | truncated _ _ hlt _ _ => exact absurd hlt (lt_irrefl _)

/-- The completion of a run writes memory, and its registers do not depend on what is there. -/
theorem completeBody_withMem (esize : Nat) (s : State) (r : Run Unit) (m : Memory) :
    { completeBody esize { s with mem := m } r with mem := (completeBody esize s r).mem } = completeBody esize s r :=
  completeBody_related (R := fun u t => { u with mem := t.mem } = t) (s := s) (s' := { s with mem := m })
    (fun _ => rfl) rfl (fun _ _ => rfl) (fun _ => rfl) r

/-- A byte of an element stored is the element's, whatever memory it is stored in. -/
theorem Memory.read_writeElements_congr (m m' : Memory) {base esize a : Nat} (values : List Nat) (hlo : base ≤ a)
    (hhi : a < base + values.length * esize) :
    (m.writeElements base esize values).read a = (m'.writeElements base esize values).read a := by
  have hesize : 0 < esize := by
    by_contra hzero
    rw [Nat.eq_zero_of_not_pos hzero, Nat.mul_zero] at hhi
    omega
  have hi : (a - base) / esize < values.length := (Nat.div_lt_iff_lt_mul hesize).mpr (by omega)
  have hk : (a - base) % esize < esize := Nat.mod_lt _ hesize
  have ha : a = base + (a - base) / esize * esize + (a - base) % esize := by
    rw [Nat.add_assoc, Nat.div_add_mod']
    omega
  rw [ha, Memory.read_writeElements m values hi hk, Memory.read_writeElements m' values hi hk]

/-- The elements of a DONE completion are the same bytes on every memory. -/
theorem completeBody_elements {esize : Nat} {s : State} {r : Run Unit} (hd : (completeBody esize s r).state = .done)
    (m : Memory) {a : Nat} (hlo : s.outBase.toNat ≤ a)
    (hhi : a < s.outBase.toNat + (completeBody esize s r).outCount.toNat * esize) :
    (completeBody esize { s with mem := m } r).mem.read a = (completeBody esize s r).mem.read a := by
  obtain ⟨c, rfl, hbus⟩ := completeBody_done hd
  have hbus' : commandMeetsBusError esize { s with mem := m } c = false := hbus
  rw [completeBody_ok hbus] at hhi
  rw [completeBody_ok hbus, completeBody_ok hbus']
  have hcount : (BitVec.ofNat 64 c.out.length).toNat ≤ c.out.length := by
    rw [BitVec.toNat_ofNat]
    exact Nat.mod_le _ _
  exact Memory.read_writeElements_congr m s.mem c.out hlo
    (lt_of_lt_of_le hhi (Nat.add_le_add_left (Nat.mul_le_mul_right esize hcount) _))

/-- Settles O51: no check reads memory, and the body's run is the same. -/
theorem outcomeDependsOnlyOnTheWindow : Obligations.OutcomeDependsOnlyOnTheWindow := by
  intro i s t m _ h hm
  cases exec_end h with
  | turnedAway hcheck ht =>
    subst ht
    exact ⟨_, exec_turnedAway (s := { s with mem := m }) hcheck, rfl, nofun⟩
  | ran hcheck htouch ht =>
    subst ht
    have hrun := bodyRun_withMem ((operandsLegal_iff i s).mp hcheck).2.2 hm
    refine ⟨_, exec_of_legal (s := { s with mem := m }) hcheck htouch, ?_⟩
    rw [hrun]
    exact ⟨completeBody_withMem _ s _ m, fun hd a hlo hhi => completeBody_elements hd m hlo hhi⟩

/-! ### A window cut short -/

/-- A body that succeeds past the cut is TRUNCATED by it, having emitted no more (40_command_execution.md R145). -/
theorem bodyRun_cut {i : Instr} {s : State} {c : Ctx} {cut : Word} (hok : OperandsOk (elementSize i) s)
    (hrun : bodyRun i s = .ok () c) (hlo : s.cursor.toNat ≤ cut.toNat) (hshort : cut.toNat ≤ s.inLen.toNat)
    (hcut : cut.toNat < c.p) :
    ∃ c', bodyRun i { s with inLen := cut } = .raised .truncated c' ∧ c'.out <+: c.out := by
  have hcutOf : CutOf (captureOperands s) (captureOperands { s with inLen := cut }) s.cursor.toNat :=
    ⟨rfl, rfl, rfl, hshort, fun _ _ _ => rfl⟩
  have hstart := startContext_extends hok
  have hagrees : RunAgrees _ _ (bodyRun i s) (bodyRun i { s with inLen := cut }) :=
    (follows_bodyOf i hcutOf hstart.1 hstart.2).agrees (le_refl _) hlo
  rw [hrun] at hagrees
  cases hagrees with
  | same _ hp => exact absurd hp (not_le.mpr hcut)
  | truncated c' heq _ hout _ => exact ⟨c', heq, hout⟩

theorem operandsOk_cut {esize : Nat} {s : State} {cut : Word} (h : OperandsOk esize s)
    (hlo : s.cursor.toNat ≤ cut.toNat) (hshort : cut.toNat ≤ s.inLen.toNat) :
    OperandsOk esize { s with inLen := cut } where
  inputFits := by have := h.inputFits; dsimp only; omega
  cursorInWindow := hlo
  outputAligned := h.outputAligned
  outputFits := h.outputFits
  apart := by have := h.apart; dsimp only; omega

/-- A range that misses another misses its parts. -/
theorem meets_eq_false_of_part {r q q' : AddrRange} (h : r.meets q = false) (hlo : q.lo ≤ q'.lo) (hhi : q'.hi ≤ q.hi) :
    r.meets q' = false :=
  not_meets_of_apart fun a h1 h2 hq => by
    rw [meets_of_common ⟨h1, h2⟩ ⟨hlo.trans hq.1, lt_of_lt_of_le hq.2 hhi⟩] at h
    cases h

theorem touchesSideEffects_cut {i : Instr} {s : State} {cut : Word} (h : touchesSideEffects i s = false)
    (hshort : cut.toNat ≤ s.inLen.toNat) : touchesSideEffects i { s with inLen := cut } = false := by
  rw [touchesSideEffects, List.any_eq_false] at h ⊢
  intro r hr
  have hmiss := h r hr
  rw [Bool.not_eq_true, Bool.or_eq_false_iff] at hmiss ⊢
  exact ⟨meets_eq_false_of_part hmiss.1 (le_refl _) (Nat.add_le_add_left hshort _), hmiss.2⟩

theorem accessesAnswered_cut {esize : Nat} {s t : State} {cut : Word} (h : AccessesAnswered esize s t)
    (hshort : cut.toNat ≤ s.inLen.toNat) : AccessesAnswered esize { s with inLen := cut } t :=
  ⟨fun b hb hk a h1 h2 hin =>
    h.reads b hb hk a h1 h2 ⟨hin.1, lt_of_lt_of_le hin.2 (Nat.add_le_add_left hshort _)⟩, h.writes⟩

/-- Where every access is answered, a run within the window that emits no more than was answered meets no bus error. -/
theorem commandMeetsBusError_of_answered {esize : Nat} {s t : State} {c : Ctx} (h : AccessesAnswered esize s t)
    (hp : c.p ≤ s.inLen.toNat) (hn : c.n ≤ t.outCount.toNat) : commandMeetsBusError esize s c = false := by
  have hmul : c.n * esize ≤ t.outCount.toNat * esize := Nat.mul_le_mul_right _ hn
  have hread : meetsBusError s .read ⟨s.inBase.toNat + s.cursor.toNat, s.inBase.toNat + c.p⟩ = false :=
    meetsBusError_of_apart fun b hb hk a h1 h2 hin =>
      h.reads b hb hk a h1 h2 ⟨hin.1, lt_of_lt_of_le hin.2 (Nat.add_le_add_left hp _)⟩
  have hwrite : meetsBusError s .write ⟨s.outBase.toNat, s.outBase.toNat + c.n * esize⟩ = false :=
    meetsBusError_of_apart fun b hb hk a h1 h2 hin =>
      h.writes b hb hk a h1 h2 ⟨hin.1, lt_of_lt_of_le hin.2 (Nat.add_le_add_left hmul _)⟩
  have hprefetch : meetsBusError s .read (readableWindow s) = false := meetsBusError_of_apart h.reads
  rw [commandMeetsBusError, bodyMeetsBusError, hread, hwrite, hprefetch]
  rfl

/-- A command whose checks pass, whose body raises, and that meets no bus error completes with that fault, where the
body raised it. -/
theorem exec_raises {i : Instr} {s : State} {f : FaultCode} {c : Ctx} (hlegal : operandsLegal i s = true)
    (htouch : touchesSideEffects i s = false) (hrun : bodyRun i s = .raised f c)
    (hbus : commandMeetsBusError (elementSize i) s c = false) (hp : c.p ≤ s.inLen.toNat) :
    ∃ u, exec i s = .next u ∧ FaultedWith s u (elementSize i) f c.p := by
  rw [exec_of_legal hlegal htouch, hrun, completeBody_raised hbus]
  exact ⟨_, rfl, faultedWith_takeFault (lt_of_le_of_lt hp s.inLen.isLt)⟩

/-- A command that completed DONE: its checks passed, and its body succeeded in the context its results show. -/
structure RanToDone (i : Instr) (s t : State) (c : Ctx) : Prop where
  legal : operandsLegal i s = true
  noSideEffect : touchesSideEffects i s = false
  run : bodyRun i s = .ok () c
  inLimit : c.p ≤ s.inLen.toNat
  cursor : t.cursor.toNat = c.p
  outCount : t.outCount.toNat = c.n

theorem exec_done {i : Instr} {s t : State} (h : exec i s = .next t) (hd : t.state = .done) :
    ∃ c, RanToDone i s t c := by
  cases exec_end h with
  | turnedAway _ ht => subst ht; cases hd
  | ran hcheck htouch ht =>
    subst ht
    obtain ⟨c, hrun, hbus⟩ := completeBody_done hd
    have horderly : Orderly _ _ _ (bodyRun i s) := orderly_body i ((operandsLegal_iff i s).mp hcheck).2.2
    rw [hrun] at horderly
    have hext : Ctx.Extends (captureOperands s) s.inLen.toNat _ c := horderly.extends_
    have hdone := completedWith_completeDone (s := s) (esize := elementSize i) (d := s.draws + 1)
      (lt_of_le_of_lt hext.inLimit s.inLen.isLt) (lt_of_le_of_lt hext.fits s.outCap.isLt)
    rw [hrun, completeBody_ok hbus]
    exact ⟨c, hcheck, htouch, hrun, hext.inLimit, hdone.cursor, hdone.outCount⟩

/-- Settles O50: the cut leaves the checks and the platform's answers as they were, so the fault is the body's. -/
theorem cutInputIsTruncated : Obligations.CutInputIsTruncated := by
  intro i s t cut h hdone hanswered hlo hcut
  obtain ⟨c, hran⟩ := exec_done h hdone
  rw [hran.cursor] at hcut
  have hshort : cut.toNat ≤ s.inLen.toNat := hcut.le.trans hran.inLimit
  obtain ⟨hwf, hrle, hok⟩ := (operandsLegal_iff i s).mp hran.legal
  have hok' : OperandsOk (elementSize i) { s with inLen := cut } := operandsOk_cut hok hlo hshort
  have hlegal : operandsLegal i { s with inLen := cut } = true := (operandsLegal_iff i _).mpr ⟨hwf, hrle, hok'⟩
  obtain ⟨c', hrun, hout⟩ := bodyRun_cut hok hran.run hlo hshort hcut
  have horderly : Orderly _ _ _ (bodyRun i { s with inLen := cut }) := orderly_body i hok'
  rw [hrun] at horderly
  have hext : Ctx.Extends _ cut.toNat _ c' := horderly.extends_
  have hbus : commandMeetsBusError (elementSize i) { s with inLen := cut } c' = false :=
    commandMeetsBusError_of_answered (accessesAnswered_cut hanswered hshort) hext.inLimit
      (hran.outCount ▸ hout.length_le)
  obtain ⟨u, hu, hfault⟩ := exec_raises hlegal (touchesSideEffects_cut hran.noSideEffect hshort) hrun hbus hext.inLimit
  exact ⟨u, c'.p, hu, hfault, hext.forward, hext.inLimit⟩

end Sys2Proof.Machine
end

section
/-! PROOF. The varint wherever it is read: the encoder's bytes are a varint, `VARINT` gives the values of any
varints laid out, and a varint that is over-long or left open raises in `VARINT`, in the header of a delta stream and at
the `minDelta` of a delta block (41_varint.md R160 to R165; 44_delta.md R230, R233). -/

namespace Sys2Proof.Machine

open Sys2Proof.Safety

/-! ### The reference encoder -/

/-- Past one 7-bit group there are 7 bits fewer to hold. -/
theorem div_128_lt {left v : Nat} (h : v < 2 ^ (7 * (left + 1) + 1)) : v / 128 < 2 ^ (7 * left + 1) := by
  rw [Nat.div_lt_iff_lt_mul (by decide)]
  calc v < 2 ^ (7 * (left + 1) + 1) := h
    _ = 2 ^ (7 * left + 1) * 128 := by rw [Nat.mul_add, Nat.add_right_comm, Nat.pow_add]

/-- The encoder's bytes have the shape of a varint. The bound is 7 bits for each of `left` bytes and one bit for the
last, so that a last byte at the full length is below 0x02 (41_varint.md R161). -/
theorem varintEncodeFrom_shape (left v : Nat) (h : v < 2 ^ (7 * left + 1)) :
    ∃ init last, varintEncodeFrom left v = init ++ [last] ∧ (∀ b ∈ init, 0x80 ≤ b.toNat) ∧ last.toNat < 0x80
      ∧ init.length ≤ left ∧ (init.length = left → last.toNat < 0x02) := by
  induction left generalizing v with
  | zero =>
    have hbyte : (BitVec.ofNat 8 v).toNat = v := by rw [BitVec.toNat_ofNat]; omega
    exact ⟨[], _, rfl, by simp, by omega, le_refl _, fun _ => by omega⟩
  | succ left ih =>
    rw [varintEncodeFrom]
    split
    · have hbyte : (BitVec.ofNat 8 v).toNat = v := by rw [BitVec.toNat_ofNat]; omega
      exact ⟨[], _, rfl, by simp, by omega, Nat.zero_le _, fun h0 => absurd h0.symm (Nat.succ_ne_zero left)⟩
    · obtain ⟨init, last, heq, hset, hclear, hlen, htenth⟩ := ih _ (div_128_lt h)
      have hbyte : (BitVec.ofNat 8 (128 + v % 128)).toNat = 128 + v % 128 := by rw [BitVec.toNat_ofNat]; omega
      refine ⟨_ :: init, last, by rw [heq]; rfl, ?_, hclear, Nat.succ_le_succ hlen,
        fun hl => htenth (Nat.succ.inj hl)⟩
      intro b hb
      rcases List.mem_cons.mp hb with rfl | hb
      · omega
      · exact hset b hb

/-- The encoder's bytes hold the groups of the value. -/
theorem groupsValue_varintEncodeFrom (left v : Nat) (h : v < 2 ^ (7 * left + 1)) :
    groupsValue (varintEncodeFrom left v) = v := by
  induction left generalizing v with
  | zero => rw [varintEncodeFrom, groupsValue, groupsValue, BitVec.toNat_ofNat]; omega
  | succ left ih =>
    rw [varintEncodeFrom]
    split
    · rw [groupsValue, groupsValue, BitVec.toNat_ofNat]; omega
    · rw [groupsValue, ih _ (div_128_lt h), BitVec.toNat_ofNat]
      omega

/-- `VarintEncode(v)` is a varint of value v (00_scope.md R16, 30_encoding.md R100). -/
theorem isVarint_varintEncode {v : Nat} (h : v < 2 ^ 64) : IsVarint (varintEncode v) v := by
  obtain ⟨init, last, heq, hset, hclear, hlen, htenth⟩ := varintEncodeFrom_shape 9 v h
  rw [← varintEncode] at heq
  have hlength : (varintEncode v).length = init.length + 1 := by rw [heq, List.length_append, List.length_singleton]
  refine ⟨⟨init, last, heq, hset, hclear⟩, by omega, fun hten => ?_, (groupsValue_varintEncodeFrom 9 v h).symm⟩
  have hnine : init.length = 9 := by omega
  rw [heq, List.getD_append_right _ _ _ _ hnine.le, hnine]
  exact htenth hnine

/-! ### `VARINT` on varints laid out -/

/-- The input of a command, as the engine's operands see it. -/
theorem heldAt_of_inputAt {s : State} {bytes : List Byte} (h : InputAt s bytes) :
    HeldAt (captureOperands s) s.cursor.toNat bytes :=
  h.bytesHeld

/-- A `VARINT` whose count fits reads the row of its varints (41_varint.md R163). -/
theorem varintBody_of_fits {s : State} (h : s.arg0.toNat ≤ s.outCap.toNat) :
    bodyOf .varint (captureOperands s) (startContext (captureOperands s))
      = varints (captureOperands s) s.arg0.toNat (startContext (captureOperands s)) :=
  andThen_ok (need_ok _ (le_of_eq_of_le (Nat.zero_add _) h))

/-- Settles O29: the capacity check passes, and the varints decode in a row. -/
theorem varintDecodesItsInput : Obligations.VarintDecodesItsInput := by
  intro s values bytes h harg hcap hlaid hinput
  have hrow := varints_of_laid (c := startContext (captureOperands s)) values hlaid (heldAt_of_inputAt hinput)
    hinput.inWindow
  rw [← harg] at hrow hcap
  exact exec_completes .varint rfl rfl rfl h ((varintBody_of_fits hcap).trans hrow)

/-- Settles O30: the encoder's bytes are one varint laid out. -/
theorem varintRoundTrip : Obligations.VarintRoundTrip := by
  intro v hv
  have hvarint := isVarint_varintEncode hv
  refine ⟨hvarint.atMostTen, fun s h harg hcap hinput => ?_⟩
  have hlaid : VarintsLaid [v] (varintEncode v) := ⟨_, [], (List.append_nil _).symm, hvarint, rfl⟩
  exact varintDecodesItsInput s [v] (varintEncode v) h harg hcap hlaid hinput

/-! ### A varint that raises -/

/-- A varint read at offset `q` of the window raises, whatever has been emitted, and leaves the running offset at
`pos`. -/
def VarintRaisesAt (o : Operands) (q : Nat) (f : FaultCode) (pos : Nat) : Prop :=
  ∀ out, varint o o.inLen { p := q, out := out } = .raised f { p := pos, out := out }

/-- 10 bytes that are over-long, inside the window, raise MALFORMED just past them (41_varint.md R161). -/
theorem varintRaisesAt_overlong {s : State} {before nine : List Byte} {tenth : Byte} (hlen : nine.length = 9)
    (hnine : ∀ b ∈ nine, 0x80 ≤ b.toNat) (htenth : 0x02 ≤ tenth.toNat)
    (hinput : InputAt s (before ++ (nine ++ [tenth]))) :
    VarintRaisesAt (captureOperands s) (s.cursor.toNat + before.length) .malformed
      (s.cursor.toNat + before.length + 10) := by
  intro out
  have hfits := hinput.inWindow
  simp only [List.length_append, List.length_singleton, hlen] at hfits
  exact varint_overlong hlen hnine htenth (heldAt_append.mp (heldAt_of_inputAt hinput)).2
    (by show s.cursor.toNat + before.length + 10 ≤ s.inLen.toNat; omega)

/-- Bytes left open up to the end of the window raise TRUNCATED there (41_varint.md R162). -/
theorem varintRaisesAt_unterminated {s : State} {before bytes : List Byte} (hlen : bytes.length < 10)
    (hset : ∀ b ∈ bytes, 0x80 ≤ b.toNat) (hinput : InputAt s (before ++ bytes))
    (hends : s.cursor.toNat + before.length + bytes.length = s.inLen.toNat) :
    VarintRaisesAt (captureOperands s) (s.cursor.toNat + before.length) .truncated s.inLen.toNat :=
  fun _ => varint_unterminated hlen hset (heldAt_append.mp (heldAt_of_inputAt hinput)).2 hends

/-- The first part of an input is an input. -/
theorem inputAt_left {s : State} {xs ys : List Byte} (h : InputAt s (xs ++ ys)) : InputAt s xs where
  inWindow := by have := h.inWindow; rw [List.length_append] at this; omega
  bytesHeld := (heldAt_append.mp (heldAt_of_inputAt h)).1

/-- `VARINT` faults where a varint raises, after the varints before it (41_varint.md R163). -/
theorem exec_varint_faults {s : State} {values : List Nat} {before : List Byte} {f : FaultCode} {pos : Nat}
    (h : Undisturbed 8 s) (hcount : values.length < s.arg0.toNat) (hcap : s.arg0.toNat ≤ s.outCap.toNat)
    (hlaid : VarintsLaid values before) (hinput : InputAt s before)
    (hraise : VarintRaisesAt (captureOperands s) (s.cursor.toNat + before.length) f pos) :
    ∃ t, exec .varint s = .next t ∧ FaultedWith s t 8 f pos :=
  exec_faults .varint rfl rfl rfl h ((varintBody_of_fits hcap).trans
    (varints_raises (c := startContext (captureOperands s)) values hlaid (heldAt_of_inputAt hinput) hinput.inWindow
      hcount (hraise _)))

/-- Settles O43: the over-long varint raises after those before it. -/
theorem overlongVarintFaults : Obligations.OverlongVarintFaults := by
  intro s values before nine tenth h hcount hcap hlaid hlen hnine htenth hinput
  rw [List.append_assoc] at hinput
  exact exec_varint_faults h hcount hcap hlaid (inputAt_left hinput)
    (varintRaisesAt_overlong hlen hnine htenth hinput)

/-- Settles O44: the varint left open raises after those before it. -/
theorem unterminatedVarintFaults : Obligations.UnterminatedVarintFaults := by
  intro s values before bytes h hcount hcap hlaid hlen hset hinput hends
  exact exec_varint_faults h hcount hcap hlaid (inputAt_left hinput)
    (varintRaisesAt_unterminated hlen hset hinput hends)

/-! ### The varints of a delta stream -/

/-- `count` varints in a row, and then a piece that has their values. -/
def varintsThen (o : Operands) : (count : Nat) → (List Nat → Eng Unit) → Eng Unit
  | 0, f => f []
  | count + 1, f =>
    andThen (varint o o.inLen) fun v =>
    varintsThen o count fun vs => f (v :: vs)

/-- What follows the four header varints of a delta stream (44_delta.md R230, R232). -/
def deltaRest (o : Operands) (w : Nat) (header : List Nat) : Eng Unit :=
  deltaAfterHeader o w ⟨header.getD 0 0, header.getD 1 0, header.getD 2 0⟩ (unzigzagCut w (header.getD 3 0))

/-- The body of a delta command reads four varints and then the rest. -/
theorem deltaBody_eq_varintsThen (w : Nat) (o : Operands) : deltaBody w o = varintsThen o 4 (deltaRest o w) := rfl

/-- Varints laid out are read, and the rest of the row goes on past them. -/
theorem varintsThen_of_laid {o : Operands} (vs : List Nat) (more : Nat) (f : List Nat → Eng Unit) {bytes : List Byte}
    {c : Ctx} (hlaid : VarintsLaid vs bytes) (hheld : HeldAt o c.p bytes) (hfits : c.p + bytes.length ≤ o.inLen) :
    varintsThen o (vs.length + more) f c
      = varintsThen o more (fun ws => f (vs ++ ws)) { c with p := c.p + bytes.length } := by
  induction vs generalizing f bytes c with
  | nil => obtain rfl := hlaid; simp
  | cons v vs ih =>
    obtain ⟨first, rest, rfl, hv, hrest⟩ := hlaid
    obtain ⟨h1, h2⟩ := heldAt_append.mp hheld
    rw [List.length_append] at hfits
    rw [List.length_cons, Nat.add_right_comm, varintsThen, andThen_ok (varint_of_isVarint hv h1 (by omega)),
      ih _ hrest h2 (by show c.p + first.length + rest.length ≤ o.inLen; omega)]
    simp [Nat.add_assoc]

/-- A header varint that raises: the stream raises there (44_delta.md R230). -/
theorem deltaBody_raises_header {o : Operands} {w : Nat} {values : List Nat} {header : List Byte} {c : Ctx}
    {f : FaultCode} {pos : Nat} (hlaid : VarintsLaid values header) (hheld : HeldAt o c.p header)
    (hfits : c.p + header.length ≤ o.inLen) (hcount : values.length < 4)
    (hraise : VarintRaisesAt o (c.p + header.length) f pos) :
    deltaBody w o c = .raised f { c with p := pos } := by
  obtain ⟨more, hmore⟩ : ∃ more, 4 = values.length + (more + 1) := ⟨3 - values.length, by omega⟩
  rw [deltaBody_eq_varintsThen, hmore, varintsThen_of_laid values _ _ hlaid hheld hfits, varintsThen]
  exact andThen_raised (hraise c.out)

/-- A consistent header whose values fit: the first value, then the blocks (44_delta.md R232, R233). -/
theorem deltaAfterHeader_ok {o : Operands} {w first : Nat} {h : DeltaHeader} {c : Ctx} (hvalid : h.valid = true)
    (hcap : c.n + h.numValues ≤ o.outCap) (hsome : 1 ≤ h.numValues) :
    deltaAfterHeader o w h first c
      = deltaBlocks o w h h.numValues first { c with out := c.out ++ [first] } := by
  rw [deltaAfterHeader, hvalid, if_neg (by decide), andThen_ok (need_ok o hcap), if_pos hsome,
    andThen_ok (emit_apply _ _)]

theorem DeltaHeader.valid_iff (h : DeltaHeader) : h.valid = true ↔
    h.miniBlocks ≠ 0 ∧ h.blockSize ≠ 0 ∧ h.blockSize % h.miniBlocks = 0 ∧ h.perMiniBlock % 8 = 0 := by
  simp [DeltaHeader.valid, and_assoc]

/-- The mini-blocks of a consistent header make up its block. -/
theorem DeltaHeader.miniBlocks_mul_perMiniBlock {h : DeltaHeader} (hvalid : h.valid = true) :
    h.miniBlocks * h.perMiniBlock = h.blockSize := by
  obtain ⟨-, -, heven, -⟩ := h.valid_iff.mp hvalid
  exact Nat.mul_div_cancel' (Nat.dvd_of_mod_eq_zero heven)

/-- The `minDelta` varint of a block after whole blocks raises: the stream raises there (44_delta.md R233). -/
theorem deltaAfterHeader_raises_minDelta {o : Operands} {w firstImage : Nat} {h : DeltaHeader}
    {blocks : List DeltaBlock} {bytes : List Byte} {c : Ctx} {f : FaultCode} {pos : Nat} (hvalid : h.valid = true)
    (hempty : c.out = []) (hcap : h.numValues ≤ o.outCap)
    (hlaid : BlocksLaid w h.miniBlocks h.perMiniBlock blocks bytes) (hheld : HeldAt o c.p bytes)
    (hfits : c.p + bytes.length ≤ o.inLen) (hshort : 1 + blocks.length * h.blockSize < h.numValues)
    (hraise : VarintRaisesAt o (c.p + bytes.length) f pos) :
    ∃ c', deltaAfterHeader o w h (unzigzagCut w firstImage) c = .raised f c' ∧ c'.p = pos := by
  obtain ⟨-, hsize, -, hper⟩ := h.valid_iff.mp hvalid
  have hblock := DeltaHeader.miniBlocks_mul_perMiniBlock hvalid
  have hn : c.n = 0 := by rw [Ctx.n, hempty]; rfl
  have hn1 : Ctx.n { c with out := c.out ++ [unzigzagCut w firstImage] } = 1 := by
    rw [Ctx.n, hempty]; rfl
  rw [deltaAfterHeader_ok hvalid (by omega) (by omega)]
  exact deltaBlocks_raises hper blocks h.numValues hlaid hheld hfits (by rw [hn1, hblock]; exact hshort) (by omega)
    (by rw [hblock]; exact Nat.pos_of_ne_zero hsize)
    (fun _ out => ⟨_, andThen_raised (hraise out), rfl⟩)

/-- What stands before a varint of a delta stream: fewer than four header varints, or the whole header, which is
consistent and whose values fit, and whole blocks that leave values to come (44_delta.md R230, R232, R233). -/
inductive DeltaPlace (w outCap : Nat) : List Byte → Prop where
  | header (values : List Nat) (bytes : List Byte) (hcount : values.length < 4) (hlaid : VarintsLaid values bytes) :
      DeltaPlace w outCap bytes
  | minDelta (h : DeltaHeader) (firstImage : Nat) (blocks : List DeltaBlock) (header rest : List Byte)
      (hvalid : h.valid = true) (hcap : h.numValues ≤ outCap)
      (hheader : VarintsLaid [h.blockSize, h.miniBlocks, h.numValues, firstImage] header)
      (hblocks : BlocksLaid w h.miniBlocks h.perMiniBlock blocks rest)
      (hshort : 1 + blocks.length * h.blockSize < h.numValues) :
      DeltaPlace w outCap (header ++ rest)

/-- A varint of a delta stream that raises: the stream raises there. -/
theorem deltaBody_raises {o : Operands} {w : Nat} {before : List Byte} {c : Ctx} {f : FaultCode} {pos : Nat}
    (hplace : DeltaPlace w o.outCap before) (hempty : c.out = []) (hheld : HeldAt o c.p before)
    (hfits : c.p + before.length ≤ o.inLen) (hraise : VarintRaisesAt o (c.p + before.length) f pos) :
    ∃ c', deltaBody w o c = .raised f c' ∧ c'.p = pos := by
  cases hplace with
  | header values _ hcount hlaid =>
    exact ⟨_, deltaBody_raises_header hlaid hheld hfits hcount hraise, rfl⟩
  | minDelta h firstImage blocks header rest hvalid hcap hheader hblocks hshort =>
    obtain ⟨h1, h2⟩ := heldAt_append.mp hheld
    rw [List.length_append, ← Nat.add_assoc] at hfits hraise
    have hbody : deltaBody w o c
        = deltaAfterHeader o w h (unzigzagCut w firstImage) { c with p := c.p + header.length } :=
      varintsThen_of_laid _ 0 (deltaRest o w) hheader h1 (by omega)
    rw [hbody]
    exact deltaAfterHeader_raises_minDelta hvalid hempty hcap hblocks h2 hfits hshort hraise

/-- A delta command faults where a varint of its stream raises. -/
theorem exec_delta_faults {i : Instr} {s : State} {w : Nat} {before : List Byte} {f : FaultCode} {pos : Nat}
    (hi : (i = .delta32 ∧ w = 32) ∨ (i = .delta64 ∧ w = 64)) (h : Undisturbed (elementSize i) s)
    (hplace : DeltaPlace w s.outCap.toNat before) (hinput : InputAt s before)
    (hraise : VarintRaisesAt (captureOperands s) (s.cursor.toNat + before.length) f pos) :
    ∃ t, exec i s = .next t ∧ FaultedWith s t (elementSize i) f pos := by
  obtain ⟨c, hbody, rfl⟩ := deltaBody_raises (c := startContext (captureOperands s)) hplace rfl
    (heldAt_of_inputAt hinput) hinput.inWindow hraise
  rcases hi with ⟨rfl, rfl⟩ | ⟨rfl, rfl⟩
  · exact exec_faults .delta32 rfl rfl rfl h hbody
  · exact exec_faults .delta64 rfl rfl rfl h hbody

/-- Settles O47: each place is one where the body reads a varint, and either kind of varint raises there. -/
theorem deltaVarintFaults : Obligations.DeltaVarintFaults := by
  intro s i w values header before bytes hi h hlaid hbefore hinput
  have hplace : DeltaPlace w s.outCap.toNat before := by
    rcases hbefore with ⟨hcount, rfl⟩ |
      ⟨blockSize, miniBlocks, numValues, firstImage, blocks, rest, rfl, rfl, hminis, hsize, heven, hgroups, hcap,
        hblocks, hshort⟩
    · exact .header values before hcount hlaid
    · exact .minDelta ⟨blockSize, miniBlocks, numValues⟩ firstImage blocks header rest
        ((DeltaHeader.valid_iff _).mpr ⟨hminis, hsize, heven, hgroups⟩) hcap hlaid hblocks hshort
  constructor
  · rintro nine tenth rfl hlen hnine htenth
    exact exec_delta_faults hi h hplace (inputAt_left hinput) (varintRaisesAt_overlong hlen hnine htenth hinput)
  · intro hset hlen hends
    exact exec_delta_faults hi h hplace (inputAt_left hinput)
      (varintRaisesAt_unterminated hlen hset hinput hends)

end Sys2Proof.Machine
end

section
/-! PROOF. The bit-packing and RLE commands: any bytes of a run's length are the bit-packed run of the values they
unpack to, `BITUNPACK` gives the values of the run at `CURSOR`, and `RLE` repeats the little-endian number at `CURSOR`
(42_bitpack_rle.md R180 to R188; 30_encoding.md R102). -/

namespace Sys2Proof.Machine

open Sys2Proof.Safety

/-! ### `BITUNPACK` -/

/-- Bit i of value j of an unpacked run is run bit `j * bw + i` (30_encoding.md R102). -/
theorem testBit_getD_unpack (bytes : List Byte) {bw count j i : Nat} (hj : j < count) (hi : i < bw) :
    ((unpack (littleEndian bytes) bw count).getD j 0).testBit i =
      (bytes.getD ((j * bw + i) / 8) 0).getLsbD ((j * bw + i) % 8) := by
  rw [getD_unpack _ _ _ _ hj, Nat.testBit_mod_two_pow, decide_eq_true hi, Bool.true_and, Nat.testBit_shiftRight,
    testBit_littleEndian]

/-- Any bytes of the length of `ng` groups are the bit-packed run of the values they unpack to. -/
theorem isPacked_unpack {ng bw : Nat} {bytes : List Byte} (h : bytes.length = ng * bw) :
    IsPacked bw (unpack (littleEndian bytes) bw (ng * 8)) bytes where
  size := by rw [h, length_unpack, Nat.mul_right_comm]
  fits := unpack_lt _ _ _
  bits j hj i hi := testBit_getD_unpack bytes (by rwa [length_unpack] at hj) hi

/-- Every bit of a value of a bit-packed run stands in one of the run's bytes. -/
theorem byteIndex_lt_of_isPacked {bw j i : Nat} {values : List Nat} {bytes : List Byte} (h : IsPacked bw values bytes)
    (hj : j < values.length) (hi : i < bw) : (j * bw + i) / 8 < bytes.length := by
  rw [Nat.div_lt_iff_lt_mul (by decide), h.size]
  calc j * bw + i < (j + 1) * bw := by rw [Nat.succ_mul]; omega
    _ ≤ values.length * bw := Nat.mul_le_mul_right bw hj

/-- A whole bit-packed run of `ng` groups unpacks to its values, and exactly its bytes are consumed. -/
theorem bitUnpack_of_isPacked {o : Operands} {ng bw l : Nat} {values : List Nat} {bytes : List Byte} {c : Ctx}
    (h : IsPacked bw values bytes) (hcount : values.length = ng * 8) (hheld : HeldAt o c.p bytes)
    (hfits : c.p + bytes.length ≤ l) :
    bitUnpack o ng bw l c = .ok values { c with p := c.p + bytes.length } := by
  have hfirst := bitUnpackFirst_of_isPacked (count := values.length) h hcount hheld hfits
  rwa [Nat.min_self, List.take_length, hcount] at hfirst

/-- The body of `BITUNPACK` on a bit-packed run whose values fit emits them (42_bitpack_rle.md R183). -/
theorem bitunpackBody_of_isPacked {o : Operands} {bw : Nat} {values : List Nat} {bytes : List Byte} {c : Ctx}
    (h : IsPacked bw values bytes) (hcount : values.length = o.arg0 / 2 * 8) (hcap : c.n + values.length ≤ o.outCap)
    (hheld : HeldAt o c.p bytes) (hfits : c.p + bytes.length ≤ o.inLen) :
    bitunpackBody bw o c = .ok () { p := c.p + bytes.length, out := c.out ++ values } := by
  unfold bitunpackBody
  rw [andThen_ok (need_ok o (hcount ▸ hcap)), andThen_ok (bitUnpack_of_isPacked h hcount hheld hfits), emit_apply]

/-- Settles O32: the capacity check passes, and the run unpacks to its values. -/
theorem bitPackingRoundTrip : Obligations.BitPackingRoundTrip := by
  intro s w values bytes hw h hpacked hcount hcap hinput
  have hbody := bitunpackBody_of_isPacked (c := startContext (captureOperands s)) hpacked hcount
    (le_of_eq_of_le (Nat.zero_add _) hcap) (heldAt_of_inputAt hinput) hinput.inWindow
  exact exec_completes (.bitunpack w) rfl (decide_eq_true hw) rfl h hbody

/-- Settles O31: the bytes at `CURSOR`, whatever they are, are the bit-packed run of the values they unpack to, so the
round trip says that the command gives these values, and the layout says what their bits are. -/
theorem bitunpackUnpacksARun : Obligations.BitunpackUnpacksARun := by
  intro s w hw h hcap hin
  obtain ⟨bytes, hbytes⟩ : ∃ bytes,
      bytes = s.mem.readBytes (s.inBase.toNat + s.cursor.toNat) (s.arg0.toNat / 2 * w.toNat) := ⟨_, rfl⟩
  have hlen : bytes.length = s.arg0.toNat / 2 * w.toNat := by rw [hbytes, Memory.length_readBytes]
  have hpacked := isPacked_unpack hlen
  have hcount := length_unpack (littleEndian bytes) w.toNat (s.arg0.toNat / 2 * 8)
  have hinput : InputAt s bytes := ⟨by rwa [hlen], by rw [hlen, hbytes]⟩
  obtain ⟨t, hexec, hdone⟩ := bitPackingRoundTrip s w _ bytes hw h hpacked hcount (by rwa [hcount]) hinput
  refine ⟨t, _, hexec, hlen ▸ hdone, hcount, hpacked.fits, fun j hj i hi => ?_⟩
  have hbyte := byteIndex_lt_of_isPacked hpacked hj hi
  rw [hpacked.bits j hj i hi, hbytes, Memory.getD_readBytes _ _ _ _ (hlen ▸ hbyte)]

/-! ### `RLE` -/

/-- Byte k of a little-endian number is byte k of the list (00_scope.md R10). -/
theorem littleEndian_div_mod (bytes : List Byte) (k : Nat) :
    littleEndian bytes / 2 ^ (8 * k) % 2 ^ 8 = (bytes.getD k 0).toNat := by
  induction bytes generalizing k with
  | nil => simp [littleEndian]
  | cons b rest ih =>
    have hb := b.isLt
    cases k with
    | zero => rw [littleEndian, List.getD_cons_zero]; omega
    | succ k =>
      have htail : littleEndian (b :: rest) / 2 ^ 8 = littleEndian rest := by rw [littleEndian]; omega
      rw [Nat.mul_succ, Nat.add_comm, Nat.pow_add, ← Nat.div_div_eq_div_mul, htail, ih, List.getD_cons_succ]

/-- Settles O33: the run fits and its value bytes are there, so the body emits copies of their little-endian number. -/
theorem rleRepeatsItsValue : Obligations.RleRepeatsItsValue := by
  intro s w hw h heven hcap hin
  have hbody := rleRun_ok (captureOperands s) (c := startContext (captureOperands s))
    (le_of_eq_of_le (Nat.zero_add _) hcap) hin
  obtain ⟨t, hexec, hdone⟩ := exec_completes (.rle w) rfl (decide_eq_true hw) (decide_eq_true heven) h hbody
  refine ⟨t, _, hexec, hdone, ?_, fun k hk => ?_⟩
  · exact lt_of_lt_of_eq (littleEndian_lt _) (by rw [Memory.length_readBytes])
  · exact (littleEndian_div_mod _ k).trans (congrArg BitVec.toNat (Memory.getD_readBytes _ _ _ k hk))

end Sys2Proof.Machine
end

section
/-! PROOF. `HYBRID`: how its region is laid off in the window, what a run does once its header is read, and with these
the values of a region's runs, the faults of its length and of its runs, and that nothing past its end counts
(43_hybrid.md R211 to R214; 30_encoding.md R103, R104). -/

namespace Sys2Proof.Machine

open Sys2Proof.Safety

/-! ### The length of the region -/

theorem regionLength_explicit (o : Operands) (c : Ctx) : regionLength true o c = .ok o.arg0 c := rfl

/-- A 4-byte length that is not all there raises at its start (43_hybrid.md R211). -/
theorem regionLength_short {o : Operands} {c : Ctx} (h : o.inLen < c.p + 4) :
    regionLength false o c = .raised .truncated c :=
  andThen_raised (readBytes_short o h)

/-- A 4-byte length that is there: a negative one raises just past it (43_hybrid.md R211). -/
theorem regionLength_prefix {o : Operands} {c : Ctx} {len : Nat}
    (hlen : littleEndian (o.mem.readBytes (o.inBase + c.p) 4) = len) (h : c.p + 4 ≤ o.inLen) :
    regionLength false o c
      = if 2 ^ 31 ≤ len then .raised .malformed { c with p := c.p + 4 } else .ok len { c with p := c.p + 4 } := by
  subst hlen
  rw [regionLength, if_neg (by decide), andThen_ok (readBytes_ok o h)]
  split
  · rfl
  · rfl

/-- Where the region that starts at offset `p` of the window ends: past the 4-byte length, if there
is one, and as many bytes as the length says (43_hybrid.md R213). -/
def regionEnd (lenx : Bool) (o : Operands) (p : Nat) : Nat :=
  p + if lenx then o.arg0 else 4 + littleEndian (o.mem.readBytes (o.inBase + p) 4)

theorem regionEnd_false (o : Operands) (p : Nat) :
    regionEnd false o p = p + (4 + littleEndian (o.mem.readBytes (o.inBase + p) 4)) := rfl

/-- A length that is read leads from just past itself to the region's end. -/
theorem regionLength_eq_ok {lenx : Bool} {o : Operands} {c c' : Ctx} {len : Nat}
    (h : regionLength lenx o c = .ok len c') :
    c.p ≤ c'.p ∧ c'.out = c.out ∧ c'.p + len = regionEnd lenx o c.p := by
  cases lenx with
  | true => cases h; exact ⟨le_refl _, rfl, rfl⟩
  | false =>
    by_cases hfits : c.p + 4 ≤ o.inLen
    · rw [regionLength_prefix rfl hfits] at h
      split at h
      · cases h
      · cases h
        exact ⟨Nat.le_add_right _ _, rfl, Nat.add_assoc _ _ _⟩
    · rw [regionLength_short (not_le.mp hfits)] at h
      cases h

/-- The bytes that give a region the length `len`: none when `ARG0` holds it, else its 4-byte image
(43_hybrid.md R211, R212). -/
inductive RegionLead (arg0 len : Nat) : Bool → List Byte → Prop where
  | explicit (harg : arg0 = len) : RegionLead arg0 len true []
  | prefixed (hlen : len < 2 ^ 31) : RegionLead arg0 len false (bytesOf 4 len)

theorem regionLead_of {arg0 len : Nat} {lenx : Bool} {lead : List Byte}
    (hexplicit : lenx = true → lead = [] ∧ arg0 = len)
    (hprefix : lenx = false → lead = bytesOf 4 len ∧ len < 2 ^ 31) : RegionLead arg0 len lenx lead := by
  cases lenx with
  | true => obtain ⟨rfl, harg⟩ := hexplicit rfl; exact .explicit harg
  | false => obtain ⟨rfl, hlen⟩ := hprefix rfl; exact .prefixed hlen

/-- The four bytes of a length hold that length. -/
theorem littleEndian_prefix {o : Operands} {p len : Nat} (hlen : len < 2 ^ 32) (hheld : HeldAt o p (bytesOf 4 len)) :
    littleEndian (o.mem.readBytes (o.inBase + p) 4) = len := by
  rw [HeldAt, length_bytesOf] at hheld
  rw [hheld, littleEndian_bytesOf, Nat.mod_eq_of_lt hlen]

theorem regionLength_of_lead {o : Operands} {len : Nat} {lenx : Bool} {lead : List Byte} {c : Ctx}
    (hlead : RegionLead o.arg0 len lenx lead) (hheld : HeldAt o c.p lead) (hfits : c.p + lead.length ≤ o.inLen) :
    regionLength lenx o c = .ok len { c with p := c.p + lead.length } := by
  cases hlead with
  | explicit harg => rw [regionLength_explicit, harg]; rfl
  | prefixed hlen =>
    rw [length_bytesOf] at hfits ⊢
    rw [regionLength_prefix (littleEndian_prefix (by omega) hheld) hfits, if_neg (by omega)]

/-! ### The body past the length -/

/-- A region that is not all there raises just past its length (43_hybrid.md R212). -/
theorem hybridBody_short {o : Operands} {bw len : Nat} {lenx : Bool} {c c' : Ctx}
    (hlen : regionLength lenx o c = .ok len c') (hshort : o.inLen < c'.p + len) :
    hybridBody bw lenx o c = .raised .truncated c' := by
  rw [hybridBody, andThen_ok hlen, andThen_ok (position_apply c'), if_pos hshort]
  rfl

/-- A region that is all there is its runs (43_hybrid.md R212). -/
theorem hybridBody_region {o : Operands} {bw len : Nat} {lenx : Bool} {c c' : Ctx}
    (hlen : regionLength lenx o c = .ok len c') (hfits : c'.p + len ≤ o.inLen) :
    hybridBody bw lenx o c = hybridRuns o bw (c'.p + len) len c' := by
  rw [hybridBody, andThen_ok hlen, andThen_ok (position_apply c'), if_neg (not_lt.mpr hfits)]

theorem hybridBody_of_lead {o : Operands} {bw len : Nat} {lenx : Bool} {lead : List Byte} {c : Ctx}
    (hlead : RegionLead o.arg0 len lenx lead) (hheld : HeldAt o c.p lead)
    (hfits : c.p + lead.length + len ≤ o.inLen) :
    hybridBody bw lenx o c
      = hybridRuns o bw (c.p + lead.length + len) len { c with p := c.p + lead.length } :=
  hybridBody_region (regionLength_of_lead hlead hheld (by omega)) hfits

/-- Settles O34: the region is all there, and its runs are those laid out. -/
theorem hybridDecodesItsRuns : Obligations.HybridDecodesItsRuns := by
  intro s w lenx runs lead bytes hw h hlaid hlen hexplicit hprefix hinput hcap
  have hlead : RegionLead s.arg0.toNat bytes.length lenx lead :=
    regionLead_of hexplicit fun hlenx => ⟨hprefix hlenx, hlen.resolve_right (by rw [hlenx]; decide)⟩
  obtain ⟨hheldLead, hheldRuns⟩ := heldAt_append.mp (heldAt_of_inputAt hinput)
  have hin := hinput.inWindow
  rw [List.length_append, ← Nat.add_assoc] at hin
  have hregion := hybridBody_of_lead (o := captureOperands s) (bw := w.toNat)
    (c := startContext (captureOperands s)) hlead hheldLead hin
  have hruns := hybridRuns_of_laid (o := captureOperands s) (c := { p := s.cursor.toNat + lead.length, out := [] })
    runs bytes.length hlaid hheldRuns rfl (le_refl _) (le_of_eq_of_le (Nat.zero_add _) hcap)
  exact exec_completes (.hybrid w lenx) rfl (decide_eq_true hw) rfl h (hregion.trans hruns)

/-! ### Nothing past the region's end -/

/-- The runs of a region read up to its end, so where the window ends is nothing to them (43_hybrid.md R213). -/
theorem hybridRuns_withInLen (o : Operands) (bw stop fuel inLen : Nat) :
    hybridRuns { o with inLen := inLen } bw stop fuel = hybridRuns o bw stop fuel := by
  induction fuel with
  | zero => rfl
  | succ fuel ih =>
    rw [hybridRuns, hybridRuns, ih]
    rfl

/-- The runs of a region depend on memory only up to its end: in the window that ends there, no byte differs. -/
theorem hybridRuns_withMem {o : Operands} {m : Memory} {bw stop fuel : Nat} {c : Ctx} (hp : c.p ≤ stop)
    (hm : ∀ a, o.inBase + c.p ≤ a → a < o.inBase + stop → m.read a = o.mem.read a) :
    hybridRuns { o with mem := m } bw stop fuel c = hybridRuns o bw stop fuel c := by
  have hcut : CutOf { o with inLen := stop } { o with mem := m, inLen := stop } c.p :=
    ⟨rfl, rfl, rfl, le_refl _, hm⟩
  have hagrees := (follows_hybridRuns hcut (le_refl stop) bw fuel c).agrees (le_refl _) hp
  rw [hybridRuns_withInLen o, hybridRuns_withInLen { o with mem := m }] at hagrees
  cases hagrees with
  | same heq _ => exact heq
  | truncated _ _ hlt _ _ => exact absurd hlt (lt_irrefl _)

/-- A 4-byte length lies before the region's end, so that it does not depend on what follows. -/
theorem regionLength_withMem {o : Operands} {m : Memory} {lenx : Bool} {c : Ctx}
    (hm : ∀ a, o.inBase + c.p ≤ a → a < o.inBase + regionEnd lenx o c.p → m.read a = o.mem.read a) :
    regionLength lenx { o with mem := m } c = regionLength lenx o c := by
  cases lenx with
  | true => rfl
  | false =>
    have hbytes : m.readBytes (o.inBase + c.p) 4 = o.mem.readBytes (o.inBase + c.p) 4 :=
      Memory.readBytes_congr fun a h1 h2 => hm a h1 (by rw [regionEnd_false]; omega)
    by_cases hfits : c.p + 4 ≤ o.inLen
    · rw [regionLength_prefix rfl hfits, regionLength_prefix (o := { o with mem := m }) rfl hfits, hbytes]
    · rw [regionLength_short (not_le.mp hfits),
        regionLength_short (o := { o with mem := m }) (not_le.mp hfits)]

/-- The body of a region that is all there depends on memory only up to the region's end (43_hybrid.md R213). -/
theorem hybridBody_withMem {o : Operands} {m : Memory} {bw : Nat} {lenx : Bool} {c : Ctx}
    (hfits : regionEnd lenx o c.p ≤ o.inLen)
    (hm : ∀ a, o.inBase + c.p ≤ a → a < o.inBase + regionEnd lenx o c.p → m.read a = o.mem.read a) :
    hybridBody bw lenx { o with mem := m } c = hybridBody bw lenx o c := by
  have hsame := regionLength_withMem hm
  cases hlen : regionLength lenx o c with
  | raised f c' => rw [hybridBody, hybridBody, andThen_raised hlen, andThen_raised (hsame.trans hlen)]
  | ok len c' =>
    obtain ⟨hfwd, -, hend⟩ := regionLength_eq_ok hlen
    rw [← hend] at hfits hm
    rw [hybridBody_region hlen hfits, hybridBody_region (hsame.trans hlen) hfits]
    exact hybridRuns_withMem (Nat.le_add_right _ _) fun a h1 h2 => hm a (by omega) h2

/-- A body that succeeds on a region that is all there stops exactly at the region's end (43_hybrid.md R213). -/
theorem hybridBody_ends {o : Operands} {bw : Nat} {lenx : Bool} {c c' : Ctx} (hn : c.n ≤ o.outCap)
    (hfits : regionEnd lenx o c.p ≤ o.inLen) (h : hybridBody bw lenx o c = .ok () c') :
    c'.p = regionEnd lenx o c.p := by
  cases hlen : regionLength lenx o c with
  | raised f c1 => rw [hybridBody, andThen_raised hlen] at h; cases h
  | ok len c1 =>
    obtain ⟨-, hout, hend⟩ := regionLength_eq_ok hlen
    rw [← hend] at hfits ⊢
    rw [hybridBody_region hlen hfits] at h
    exact hybridRuns_ends len (Nat.le_add_right _ _) (by rwa [Ctx.n, hout]) (le_refl _) h

/-- Settles O35: the body is the same on both memories, and one that succeeds stops at the region's end. -/
theorem hybridIsASubStream : Obligations.HybridIsASubStream := by
  intro s t w lenx m stop _ hstop hfits h hm
  have hend : stop = regionEnd lenx (captureOperands s) s.cursor.toNat := hstop
  subst hend
  have hrun : bodyRun (.hybrid w lenx) { s with mem := m } = bodyRun (.hybrid w lenx) s :=
    hybridBody_withMem (c := startContext (captureOperands s)) hfits hm
  refine ⟨?_, fun hdone => ?_⟩
  · cases exec_end h with
    | turnedAway hcheck ht => subst ht; exact ⟨_, exec_turnedAway (s := { s with mem := m }) hcheck, rfl⟩
    | ran hcheck htouch ht =>
      subst ht
      refine ⟨_, exec_of_legal (s := { s with mem := m }) hcheck htouch, ?_⟩
      rw [hrun]
      exact completeBody_withMem _ s _ m
  · obtain ⟨c, hran⟩ := exec_done h hdone
    rw [hran.cursor]
    exact hybridBody_ends (Nat.zero_le _) hfits hran.run

/-! ### The faults of the length -/

theorem exec_hybrid_faults {s : State} {w : BitVec 8} {lenx : Bool} {f : FaultCode} {c : Ctx} (hw : w.toNat ≤ 32)
    (h : Undisturbed 4 s)
    (hbody : hybridBody w.toNat lenx (captureOperands s) (startContext (captureOperands s)) = .raised f c) :
    ∃ t, exec (.hybrid w lenx) s = .next t ∧ FaultedWith s t 4 f c.p :=
  exec_faults (.hybrid w lenx) rfl (decide_eq_true hw) rfl h hbody

/-- A region longer than what is left of the window faults just past its length (43_hybrid.md R212). -/
theorem exec_hybrid_region_short {s : State} {w : BitVec 8} {lenx : Bool} {len : Nat} {lead : List Byte}
    (hw : w.toNat ≤ 32) (h : Undisturbed 4 s) (hlead : RegionLead s.arg0.toNat len lenx lead)
    (hinput : InputAt s lead) (hshort : s.inLen.toNat < s.cursor.toNat + lead.length + len) :
    ∃ t, exec (.hybrid w lenx) s = .next t ∧ FaultedWith s t 4 .truncated (s.cursor.toNat + lead.length) :=
  exec_hybrid_faults hw h (hybridBody_short (regionLength_of_lead (c := startContext (captureOperands s)) hlead
    (heldAt_of_inputAt hinput) hinput.inWindow) hshort)

/-- Settles O45: a 4-byte length raises as it is read, and one that is read raises when the region is not all there. -/
theorem hybridPrefixFaults : Obligations.HybridPrefixFaults := by
  intro s w hw h
  refine ⟨fun hshort => ?_, fun len hinput hneg => ?_, fun len hinput hnonneg hshort => ?_, fun hshort => ?_⟩
  · exact exec_hybrid_faults hw h (andThen_raised (regionLength_short (o := captureOperands s)
      (c := startContext (captureOperands s)) hshort))
  · have hlarge : 2 ^ 31 ≤ len.toNat := by have := BitVec.toInt_neg_iff.mp hneg; omega
    have hin := hinput.inWindow
    rw [length_bytesOf] at hin
    have hraise := regionLength_prefix (o := captureOperands s) (c := startContext (captureOperands s))
      (littleEndian_prefix len.isLt (heldAt_of_inputAt hinput)) hin
    rw [if_pos hlarge] at hraise
    exact exec_hybrid_faults hw h (andThen_raised hraise)
  · have hsmall : len.toNat < 2 ^ 31 := by have := BitVec.toInt_pos_iff.mp hnonneg; omega
    exact exec_hybrid_region_short hw h (.prefixed hsmall) hinput hshort
  · exact exec_hybrid_region_short hw h (.explicit rfl) ⟨h.operands.cursorInWindow, rfl⟩ hshort

/-! ### A run once its header is read -/

/-- The number of values a run header announces (30_encoding.md R103). -/
def headerCount (h : Nat) : Nat := if h % 2 = 0 then h / 2 else h / 2 * 8

/-- The number of body bytes a run header announces at width bw (30_encoding.md R103). -/
def headerSize (bw h : Nat) : Nat := if h % 2 = 0 then (bw + 7) / 8 else h / 2 * bw

/-- The values of a run from its header and its body's bytes (42_bitpack_rle.md R180, R184). -/
def headerValues (bw h : Nat) (body : List Byte) : List Nat :=
  if h % 2 = 0 then List.replicate (h / 2) (littleEndian body) else unpack (littleEndian body) bw (h / 2 * 8)

/-- A run of either kind, once its header is read: the capacity check, the body's bytes, the values
(43_hybrid.md R212). -/
def runBody (o : Operands) (bw stop h : Nat) : Eng Unit :=
  andThen (need o (headerCount h)) fun _ =>
  andThen (readBytes o (headerSize bw h) stop) fun body =>
  emit (headerValues bw h body)

theorem andThen_assoc {α β γ : Type} (x : Eng α) (f : α → Eng β) (g : β → Eng γ) :
    andThen (andThen x f) g = andThen x fun a => andThen (f a) g := by
  funext c
  cases hx : x c with
  | ok a c' => rw [andThen_ok hx, andThen_apply, andThen_ok hx, andThen_apply]
  | raised e c' => rw [andThen_raised hx, andThen_raised (andThen_raised hx)]

theorem hybridRun_eq_runBody (o : Operands) (bw stop : Nat) :
    hybridRun o bw stop = andThen (varint o stop) (runBody o bw stop) := by
  rw [hybridRun]
  congr 1
  funext h
  by_cases heven : h % 2 = 0
  · simp only [runBody, headerCount, headerSize, headerValues, if_pos heven]
    rfl
  · simp only [runBody, headerCount, headerSize, headerValues, if_neg heven, bitUnpack, bitUnpackFirst, andThen_assoc]
    rfl

/-- Values that do not fit raise before the body is read (40_command_execution.md R138). -/
theorem runBody_capacity {o : Operands} {bw stop h : Nat} {c : Ctx} (hcap : o.outCap < c.n + headerCount h) :
    runBody o bw stop h c = .raised .capacity c :=
  andThen_raised (need_short o hcap)

/-- A body that crosses the region's end raises at the body's start (40_command_execution.md R135). -/
theorem runBody_truncated {o : Operands} {bw stop h : Nat} {c : Ctx} (hcap : c.n + headerCount h ≤ o.outCap)
    (hshort : stop < c.p + headerSize bw h) : runBody o bw stop h c = .raised .truncated c :=
  (andThen_ok (need_ok o hcap)).trans (andThen_raised (readBytes_short o hshort))

/-! ### The faults of the runs -/

/-- What the clauses of the runs' faults share: a region of `len` bytes that is all there, and in it, after whole runs
whose values fit, the bytes `header`, where the next run starts. -/
structure RunsBefore (s : State) (w : BitVec 8) (lenx : Bool) (runs : List HybridRun) (len : Nat)
    (lead before header : List Byte) : Prop where
  hwidth : w.toNat ≤ 32
  hundisturbed : Undisturbed 4 s
  hlaid : RunsLaid w.toNat runs before
  hlead : RegionLead s.arg0.toNat len lenx lead
  hregion : s.cursor.toNat + lead.length + len ≤ s.inLen.toNat
  hinput : InputAt s (lead ++ before ++ header)
  hfits : (runs.flatMap HybridRun.values).length ≤ s.outCap.toNat

section NextRun

variable {s : State} {w : BitVec 8} {lenx : Bool} {runs : List HybridRun} {len : Nat} {lead before header : List Byte}

/-- The run after whole runs raises: the command faults there. -/
theorem RunsBefore.exec_faults (hb : RunsBefore s w lenx runs len lead before header) {f : FaultCode} {c' : Ctx}
    (hbefore : before.length < len)
    (hraise : hybridRun (captureOperands s) w.toNat (s.cursor.toNat + lead.length + len)
      { p := s.cursor.toNat + lead.length + before.length, out := runs.flatMap HybridRun.values } = .raised f c') :
    ∃ t, exec (.hybrid w lenx) s = .next t ∧ FaultedWith s t 4 f c'.p := by
  obtain ⟨hheld, -⟩ := heldAt_append.mp (heldAt_of_inputAt hb.hinput)
  obtain ⟨hheldLead, hheldRuns⟩ := heldAt_append.mp hheld
  have hregion := hybridBody_of_lead (o := captureOperands s) (bw := w.toNat)
    (c := startContext (captureOperands s)) hb.hlead hheldLead hb.hregion
  have hruns := hybridRuns_raises (o := captureOperands s) (c := { p := s.cursor.toNat + lead.length, out := [] })
    runs len hb.hlaid hheldRuns (Nat.add_lt_add_left hbefore _) hbefore (le_of_eq_of_le (Nat.zero_add _) hb.hfits) hraise
  exact exec_hybrid_faults hb.hwidth hb.hundisturbed (hregion.trans hruns)

/-- The header's bytes stand where the run starts. -/
theorem RunsBefore.heldAt_header (hb : RunsBefore s w lenx runs len lead before header) :
    HeldAt (captureOperands s) (s.cursor.toNat + lead.length + before.length) header := by
  have hheld := (heldAt_append.mp (heldAt_of_inputAt hb.hinput)).2
  rwa [List.length_append, ← Nat.add_assoc] at hheld

/-- The run's header varint raises (41_varint.md R161, R162). -/
theorem RunsBefore.exec_header_faults (hb : RunsBefore s w lenx runs len lead before header) {f : FaultCode}
    {pos : Nat} (hbefore : before.length < len)
    (hraise : ∀ out, varint (captureOperands s) (s.cursor.toNat + lead.length + len)
      { p := s.cursor.toNat + lead.length + before.length, out := out } = .raised f { p := pos, out := out }) :
    ∃ t, exec (.hybrid w lenx) s = .next t ∧ FaultedWith s t 4 f pos :=
  hb.exec_faults hbefore (andThen_raised (hraise _))

/-- The run raises once its header is read. -/
theorem RunsBefore.exec_body_faults (hb : RunsBefore s w lenx runs len lead before header) {h : Nat} {f : FaultCode}
    (hvarint : IsVarint header h) (hheader : before.length + header.length ≤ len)
    (hraise : ∀ c, c.n = (runs.flatMap HybridRun.values).length →
      c.p = s.cursor.toNat + lead.length + before.length + header.length →
      runBody (captureOperands s) w.toNat (s.cursor.toNat + lead.length + len) h c = .raised f c) :
    ∃ t, exec (.hybrid w lenx) s = .next t
      ∧ FaultedWith s t 4 f (s.cursor.toNat + lead.length + before.length + header.length) := by
  have hpos := isVarint_length_pos hvarint
  refine hb.exec_faults (c' := { p := _, out := runs.flatMap HybridRun.values }) (by omega) ?_
  rw [hybridRun_eq_runBody, andThen_ok (varint_of_isVarint hvarint hb.heldAt_header (by dsimp only; omega))]
  exact hraise _ rfl rfl

end NextRun

/-- Settles O46: the header raises as a varint does at the region's end, or is read, and then the values do not fit or
the body crosses that end. -/
theorem hybridRunFaults : Obligations.HybridRunFaults := by
  intro s w lenx runs len lead before header hw h hlaid hexplicit hprefix hregion hinput hfits
  have hb : RunsBefore s w lenx runs len lead before header :=
    ⟨hw, h, hlaid, regionLead_of hexplicit hprefix, hregion, hinput, hfits⟩
  refine ⟨fun hset hpos hlen hends => ?_, ?_, ?_⟩
  · exact hb.exec_header_faults (by omega) fun _ =>
      varint_unterminated hlen hset hb.heldAt_header (by dsimp only; omega)
  · rintro nine tenth rfl hlen hnine htenth hin
    exact hb.exec_header_faults (by omega) fun _ =>
      varint_overlong hlen hnine htenth hb.heldAt_header (by dsimp only; omega)
  · rintro v count size hvarint hheader rfl rfl
    refine ⟨fun hcap => ?_, fun hcap hshort => ?_⟩
    · exact hb.exec_body_faults hvarint hheader fun c hn _ => runBody_capacity (by rw [hn]; exact hcap)
    · exact hb.exec_body_faults hvarint hheader fun c hn hp =>
        runBody_truncated (by rw [hn]; exact hcap) (by rw [hp]; simp only [headerSize]; omega)

end Sys2Proof.Machine
end

section
/-! PROOF. The delta family: on a consistent stream the first value and the running sums of its blocks, at 32 and at
64 bits; an inconsistent header, too many values and a width above W raise at the positions the spec names
(44_delta.md R230 to R239). -/

namespace Sys2Proof.Machine

open Sys2Proof.Safety

/-! ### From a delta command to its body after the header -/

/-- A delta command whose body succeeds completes DONE where the body ended. -/
theorem exec_delta_completes {i : Instr} {s : State} {w : Nat} {c : Ctx}
    (hi : (i = .delta32 ∧ w = 32) ∨ (i = .delta64 ∧ w = 64)) (h : Undisturbed (elementSize i) s)
    (hbody : deltaBody w (captureOperands s) (startContext (captureOperands s)) = .ok () c) :
    ∃ t, exec i s = .next t ∧ CompletedWith s t (elementSize i) c.p c.out := by
  rcases hi with ⟨rfl, rfl⟩ | ⟨rfl, rfl⟩
  · exact exec_completes .delta32 rfl rfl rfl h hbody
  · exact exec_completes .delta64 rfl rfl rfl h hbody

/-- A delta command whose body raises faults there. -/
theorem exec_delta_raises {i : Instr} {s : State} {w : Nat} {f : FaultCode} {c : Ctx}
    (hi : (i = .delta32 ∧ w = 32) ∨ (i = .delta64 ∧ w = 64)) (h : Undisturbed (elementSize i) s)
    (hbody : deltaBody w (captureOperands s) (startContext (captureOperands s)) = .raised f c) :
    ∃ t, exec i s = .next t ∧ FaultedWith s t (elementSize i) f c.p := by
  rcases hi with ⟨rfl, rfl⟩ | ⟨rfl, rfl⟩
  · exact exec_faults .delta32 rfl rfl rfl h hbody
  · exact exec_faults .delta64 rfl rfl rfl h hbody

/-- The four header varints, one after the other, are a row of varints (44_delta.md R230). -/
theorem varintsLaid_header {v1 v2 v3 v4 : Nat} {b1 b2 b3 b4 : List Byte} (h1 : IsVarint b1 v1) (h2 : IsVarint b2 v2)
    (h3 : IsVarint b3 v3) (h4 : IsVarint b4 v4) : VarintsLaid [v1, v2, v3, v4] (b1 ++ b2 ++ b3 ++ b4) :=
  ⟨b1, b2 ++ (b3 ++ (b4 ++ [])), by simp, h1, _, _, rfl, h2, _, _, rfl, h3, _, _, rfl, h4, rfl⟩

/-- Past its header varints, the body of a delta command on the state's input goes on with the header
(44_delta.md R230). -/
theorem deltaBody_of_header {s : State} {w firstImage : Nat} {h : DeltaHeader} {header : List Byte}
    (hlaid : VarintsLaid [h.blockSize, h.miniBlocks, h.numValues, firstImage] header) (hinput : InputAt s header) :
    deltaBody w (captureOperands s) (startContext (captureOperands s))
      = deltaAfterHeader (captureOperands s) w h (unzigzagCut w firstImage)
          { p := s.cursor.toNat + header.length, out := [] } :=
  varintsThen_of_laid (c := startContext (captureOperands s)) _ 0 (deltaRest _ w) hlaid (heldAt_of_inputAt hinput)
    hinput.inWindow

/-! ### A consistent stream -/

/-- A start and the running sums from it: entry k is the start plus the first k increments (44_delta.md R239). -/
theorem cons_runningSums (w start n : Nat) (xs : List Nat) (h : n ≤ xs.length) :
    start % 2 ^ w :: runningSums w start (xs.take n)
      = (List.range (n + 1)).map fun k => (start + (xs.take k).sum) % 2 ^ w := by
  induction n generalizing start xs with
  | zero => simp [runningSums]
  | succ n ih =>
    cases xs with
    | nil => simp at h
    | cons x xs =>
      rw [List.take_succ_cons, runningSums, ih _ _ (Nat.le_of_succ_le_succ h), List.range_succ_eq_map (n := n + 1)]
      simp [Nat.add_assoc]

/-- Blocks laid out in a row add one increment for each value of their mini-blocks. -/
theorem length_increments_of_blocksLaid {w miniBlocks per : Nat} (blocks : List DeltaBlock) {bytes : List Byte}
    (hlaid : BlocksLaid w miniBlocks per blocks bytes) :
    (blocks.flatMap (DeltaBlock.increments w)).length = blocks.length * (miniBlocks * per) := by
  induction blocks generalizing bytes with
  | nil => simp
  | cons b blocks ih =>
    obtain ⟨first, rest, -, hb, hrest⟩ := hlaid
    rw [List.flatMap_cons, List.length_append, length_increments_of_laid hb, ih hrest, List.length_cons, Nat.succ_mul,
      Nat.add_comm]

/-- A consistent header and the least number of blocks that reach `numValues`: the body gives the elements of the
stream and consumes every block (44_delta.md R233, R235, R238, R239). -/
theorem deltaAfterHeader_of_laid {o : Operands} {w firstImage q : Nat} {h : DeltaHeader} {blocks : List DeltaBlock}
    {bytes : List Byte} (hvalid : h.valid = true) (hcap : h.numValues ≤ o.outCap)
    (hlaid : BlocksLaid w h.miniBlocks h.perMiniBlock blocks bytes) (hheld : HeldAt o q bytes)
    (hfits : q + bytes.length ≤ o.inLen) (henough : h.numValues ≤ 1 + blocks.length * h.blockSize)
    (hleast : blocks.length = 0 ∨ 1 + (blocks.length - 1) * h.blockSize < h.numValues) :
    deltaAfterHeader o w h (unzigzagCut w firstImage) { p := q, out := [] }
      = .ok () { p := q + bytes.length, out := (List.range h.numValues).map (deltaElement w firstImage blocks) } := by
  obtain ⟨-, hsize, -, hper⟩ := h.valid_iff.mp hvalid
  have hblock := DeltaHeader.miniBlocks_mul_perMiniBlock hvalid
  rcases Nat.eq_zero_or_pos h.numValues with hnone | hsome
  · obtain rfl : blocks = [] := List.length_eq_zero_iff.mp (by omega)
    obtain rfl := hlaid
    rw [deltaAfterHeader, hvalid, hnone]
    rfl
  · obtain ⟨n, hn⟩ : ∃ n, h.numValues = n + 1 := ⟨h.numValues - 1, by omega⟩
    have hlength := length_increments_of_blocksLaid blocks hlaid
    have hblocks := deltaBlocks_of_laid (c := { p := q, out := [unzigzagCut w firstImage] })
      (start := (unzigzag64 (BitVec.ofNat 64 firstImage)).toNat) hper blocks h.numValues hlaid hheld hfits
      (by rw [hblock]; exact Nat.pos_of_ne_zero hsize) (by rw [hblock]; exact henough)
      (by rw [hblock]; exact hleast) (Nat.le_add_left _ _)
    rw [deltaAfterHeader_ok hvalid (le_of_eq_of_le (Nat.zero_add _) hcap) hsome]
    refine hblocks.trans ?_
    have hsums := cons_runningSums w (unzigzag64 (BitVec.ofNat 64 firstImage)).toNat n
      (blocks.flatMap (DeltaBlock.increments w)) (by rw [hlength, hblock]; omega)
    rw [hn]
    exact congrArg (fun out => Run.ok () { p := q + bytes.length, out := out }) hsums

/-- A delta command on a stream that stands in its input gives the stream's elements (44_delta.md R236, R237). -/
theorem exec_delta_of_stream {i : Instr} {s : State} {w blockSize miniBlocks numValues firstImage : Nat}
    {blocks : List DeltaBlock} {bytes : List Byte} (hi : (i = .delta32 ∧ w = 32) ∨ (i = .delta64 ∧ w = 64))
    (h : Undisturbed (elementSize i) s)
    (hstream : DeltaStream w blockSize miniBlocks numValues firstImage blocks bytes) (hinput : InputAt s bytes)
    (hcap : numValues ≤ s.outCap.toNat) :
    ∃ t, exec i s = .next t ∧ CompletedWith s t (elementSize i) (s.cursor.toNat + bytes.length)
      ((List.range numValues).map (deltaElement w firstImage blocks)) := by
  obtain ⟨⟨b1, b2, b3, b4, rest, rfl, h1, h2, h3, h4, hblocks⟩, hminis, hsize, heven, hgroups, henough, hleast⟩ :=
    hstream
  have hin := hinput.inWindow
  rw [List.length_append, ← Nat.add_assoc] at hin ⊢
  have hheader := deltaBody_of_header (w := w) (h := ⟨blockSize, miniBlocks, numValues⟩) (varintsLaid_header h1 h2 h3 h4)
    (inputAt_left hinput)
  have hrest := deltaAfterHeader_of_laid (o := captureOperands s) (firstImage := firstImage)
    (h := ⟨blockSize, miniBlocks, numValues⟩) ((DeltaHeader.valid_iff _).mpr ⟨hminis, hsize, heven, hgroups⟩) hcap
    hblocks (heldAt_append.mp (heldAt_of_inputAt hinput)).2 hin henough hleast
  exact exec_delta_completes hi h (hheader.trans hrest)

/-- Settles O36: the stream at 32 bits. -/
theorem delta32DecodesItsStream : Obligations.Delta32DecodesItsStream :=
  fun _ _ _ _ _ _ _ h hstream hinput hcap => exec_delta_of_stream (.inl ⟨rfl, rfl⟩) h hstream hinput hcap

/-- Settles O37: the stream at 64 bits. -/
theorem delta64DecodesItsStream : Obligations.Delta64DecodesItsStream :=
  fun _ _ _ _ _ _ _ h hstream hinput hcap => exec_delta_of_stream (.inr ⟨rfl, rfl⟩) h hstream hinput hcap

/-! ### The faults of the header -/

/-- An inconsistent header raises just past it, before the capacity is looked at (44_delta.md R232). -/
theorem deltaAfterHeader_inconsistent {o : Operands} {w first : Nat} {h : DeltaHeader} {c : Ctx}
    (hvalid : ¬ h.valid = true) : deltaAfterHeader o w h first c = .raised .malformed c := by
  rw [deltaAfterHeader, Bool.eq_false_of_not_eq_true hvalid]
  rfl

/-- A consistent header with more values than fit raises just past it (44_delta.md R233). -/
theorem deltaAfterHeader_capacity {o : Operands} {w first : Nat} {h : DeltaHeader} {c : Ctx}
    (hvalid : h.valid = true) (hcap : o.outCap < c.n + h.numValues) :
    deltaAfterHeader o w h first c = .raised .capacity c := by
  rw [deltaAfterHeader, hvalid]
  exact andThen_raised (need_short o hcap)

/-- Settles O48: the four varints are read, and then the header's checks or the capacity check raise. -/
theorem deltaHeaderFaults : Obligations.DeltaHeaderFaults := by
  intro s i blockSize miniBlocks numValues firstImage b1 b2 b3 b4 hi h h1 h2 h3 h4 hinput
  obtain ⟨w, hw⟩ : ∃ w, (i = .delta32 ∧ w = 32) ∨ (i = .delta64 ∧ w = 64) := by
    rcases hi with rfl | rfl
    · exact ⟨32, .inl ⟨rfl, rfl⟩⟩
    · exact ⟨64, .inr ⟨rfl, rfl⟩⟩
  have hheader := deltaBody_of_header (w := w) (h := ⟨blockSize, miniBlocks, numValues⟩)
    (varintsLaid_header h1 h2 h3 h4) hinput
  constructor
  · intro hbad
    have hvalid : ¬ (DeltaHeader.mk blockSize miniBlocks numValues).valid = true := by
      rw [DeltaHeader.valid_iff]
      rintro ⟨hminis, hsize, heven, hgroups⟩
      rcases hbad with hbad | hbad | hbad | hbad
      · exact hminis hbad
      · exact hsize hbad
      · exact hbad heven
      · exact hbad hgroups
    exact exec_delta_raises hw h (hheader.trans (deltaAfterHeader_inconsistent hvalid))
  · intro hminis hsize heven hgroups hcap
    have hvalid := (DeltaHeader.valid_iff ⟨blockSize, miniBlocks, numValues⟩).mpr ⟨hminis, hsize, heven, hgroups⟩
    exact exec_delta_raises hw h (hheader.trans
      (deltaAfterHeader_capacity hvalid (lt_of_lt_of_eq hcap (Nat.zero_add _).symm)))

/-! ### A width above W -/

/-- A block with a width byte above W raises just past its width bytes, before it unpacks any mini-block
(44_delta.md R234). -/
theorem deltaBlock_width_above {o : Operands} {w minDelta prev : Nat} {h : DeltaHeader}
    {image widths : List Byte} {c : Ctx} (hvarint : IsVarint image minDelta) (hcount : widths.length = h.miniBlocks)
    (habove : ∃ b ∈ widths, w < b.toNat) (hheld : HeldAt o c.p (image ++ widths))
    (hfits : c.p + (image ++ widths).length ≤ o.inLen) :
    deltaBlock o w h prev c = .raised .malformed { c with p := c.p + (image ++ widths).length } := by
  obtain ⟨himage, hwidths⟩ := heldAt_append.mp hheld
  rw [List.length_append, ← Nat.add_assoc] at hfits ⊢
  have hread : readBytes o h.miniBlocks o.inLen { c with p := c.p + image.length }
      = .ok widths { c with p := c.p + image.length + widths.length } := by
    rw [← hcount, readBytes_ok o hfits]
    exact congrArg (Run.ok · _) hwidths
  have hany : (widths.any fun b => b.toNat > w) = true := by
    obtain ⟨b, hb, hgt⟩ := habove
    exact List.any_eq_true.mpr ⟨b, hb, decide_eq_true hgt⟩
  rw [deltaBlock, andThen_ok (varint_of_isVarint hvarint himage (by omega)), andThen_ok hread, if_pos hany]
  rfl

/-- With values to come, the blocks raise where the first of them does. -/
theorem deltaBlocks_raises_first {o : Operands} {w prev fuel : Nat} {h : DeltaHeader} {c c' : Ctx} {f : FaultCode}
    (hwanted : c.n < h.numValues) (hraise : deltaBlock o w h prev c = .raised f c') :
    deltaBlocks o w h (fuel + 1) prev c = .raised f c' := by
  rw [deltaBlocks, andThen_ok (emitted_apply c), if_pos hwanted]
  exact andThen_raised hraise

/-- A consistent header that leaves values to come, then a width byte above W: the first block raises just past its
width bytes (44_delta.md R233, R234). -/
theorem deltaAfterHeader_width_above {o : Operands} {w first minDelta q : Nat} {h : DeltaHeader}
    {image widths : List Byte} (hvalid : h.valid = true) (hsome : 2 ≤ h.numValues) (hcap : h.numValues ≤ o.outCap)
    (hvarint : IsVarint image minDelta) (hcount : widths.length = h.miniBlocks) (habove : ∃ b ∈ widths, w < b.toNat)
    (hheld : HeldAt o q (image ++ widths)) (hfits : q + (image ++ widths).length ≤ o.inLen) :
    deltaAfterHeader o w h first { p := q, out := [] }
      = .raised .malformed { p := q + (image ++ widths).length, out := [first] } := by
  have hfirst : deltaBlock o w h first { p := q, out := [first] }
      = .raised .malformed { p := q + (image ++ widths).length, out := [first] } :=
    deltaBlock_width_above hvarint hcount habove hheld hfits
  obtain ⟨fuel, hfuel⟩ : ∃ k, h.numValues = k + 1 := ⟨h.numValues - 1, by omega⟩
  rw [deltaAfterHeader_ok hvalid (le_of_eq_of_le (Nat.zero_add _) hcap) (le_of_lt hsome), hfuel]
  exact deltaBlocks_raises_first hsome hfirst

/-- Settles O49: the header is consistent and leaves values to come, so the first block is read, and it raises. -/
theorem deltaWidthFaults : Obligations.DeltaWidthFaults := by
  intro s i w blockSize miniBlocks numValues firstImage minDelta b1 b2 b3 b4 b5 widths hi h h1 h2 h3 h4 h5 hcount
    hminis hsize heven hgroups hsome hcap habove hinput
  rw [List.append_assoc _ b5 widths] at hinput ⊢
  have hin := hinput.inWindow
  rw [List.length_append (as := b1 ++ b2 ++ b3 ++ b4), ← Nat.add_assoc] at hin ⊢
  have hheader := deltaBody_of_header (w := w) (h := ⟨blockSize, miniBlocks, numValues⟩)
    (varintsLaid_header h1 h2 h3 h4) (inputAt_left hinput)
  have hrest := deltaAfterHeader_width_above (o := captureOperands s) (first := unzigzagCut w firstImage)
    ((DeltaHeader.valid_iff ⟨blockSize, miniBlocks, numValues⟩).mpr ⟨hminis, hsize, heven, hgroups⟩) hsome hcap h5
    hcount habove (heldAt_append.mp (heldAt_of_inputAt hinput)).2 hin
  exact exec_delta_raises hi h (hheader.trans hrest)

end Sys2Proof.Machine
end

section
/-! PROOF. The byte-stream-split commands: the bytes of a gathered value are the bytes of its planes, so `BSS32` and
`BSS64` move every byte of their input unchanged, and the planes of a list of values gather back to that list
(45_byte_stream_split.md R260 to R264; 30_encoding.md R106). -/

namespace Sys2Proof.Machine

open Sys2Proof.Safety

/-! ### Gathering the planes -/

theorem gatherPlanes_lt (d : List Byte) (count planes i : Nat) : gatherPlanes d count planes i < 2 ^ (8 * planes) :=
  lt_of_lt_of_eq (littleEndian_lt _) (by rw [List.length_map, List.length_range])

/-- Byte k of value i is byte i of plane k (45_byte_stream_split.md R260). -/
theorem gatherPlanes_div_mod (d : List Byte) (count i : Nat) {planes k : Nat} (hk : k < planes) :
    gatherPlanes d count planes i / 2 ^ (8 * k) % 2 ^ 8 = (d.getD (k * count + i) 0).toNat := by
  rw [gatherPlanes, littleEndian_div_mod, List.getD_eq_getElem _ _ (by rwa [List.length_map, List.length_range]),
    List.getElem_map, List.getElem_range]

/-- Byte j of plane k stands inside the planes, which are back to back (30_encoding.md R106). -/
theorem planeOffset_lt {count planes k j : Nat} (hj : j < count) (hk : k < planes) : k * count + j < count * planes :=
  calc k * count + j < (k + 1) * count := by rw [Nat.succ_mul]; omega
    _ ≤ planes * count := Nat.mul_le_mul_right count hk
    _ = count * planes := Nat.mul_comm planes count

/-- Byte i of every plane, in the order of the planes, is the little-endian image of value i (30_encoding.md R106). -/
theorem planeBytes_of_isPlanes {planes i : Nat} {values : List Nat} {bytes : List Byte}
    (h : IsPlanes planes values bytes) (hi : i < values.length) :
    ((List.range planes).map fun k => bytes.getD (k * values.length + i) 0) = bytesOf planes (values.getD i 0) := by
  refine List.ext_getElem (by simp) fun k hk hk' => ?_
  rw [length_bytesOf] at hk'
  have hbyte := h.gathered i hi k hk'
  rw [List.getElem_map, List.getElem_range, ← List.getD_eq_getElem _ 0, getD_bytesOf _ _ _ hk']
  apply BitVec.eq_of_toNat_eq
  rw [hbyte, BitVec.toNat_ofNat, Nat.pow_mul]

/-- The planes of some values gather back to these values (45_byte_stream_split.md R264). -/
theorem gatherPlanes_of_isPlanes {planes : Nat} {values : List Nat} {bytes : List Byte}
    (h : IsPlanes planes values bytes) :
    ((List.range values.length).map fun i => gatherPlanes bytes values.length planes i) = values := by
  refine List.ext_getElem (by simp) fun i _ hi => ?_
  have hfits := h.fits values[i] (List.getElem_mem hi)
  rw [List.getElem_map, List.getElem_range, gatherPlanes, planeBytes_of_isPlanes h hi, littleEndian_bytesOf,
    List.getD_eq_getElem _ _ hi, Nat.mod_eq_of_lt hfits]

/-! ### `BSS32` and `BSS64` -/

/-- An undisturbed byte-stream-split command whose values fit and whose planes are all in the window completes with the
values gathered from the bytes at `CURSOR`, all of them consumed (45_byte_stream_split.md R260). -/
theorem exec_bss_completes {s : State} {i : Instr} {planes : Nat} {bytes : List Byte}
    (hi : (i = .bss32 ∧ planes = 4) ∨ (i = .bss64 ∧ planes = 8)) (h : Undisturbed planes s)
    (hcap : s.arg0.toNat ≤ s.outCap.toNat) (hlen : bytes.length = s.arg0.toNat * planes) (hinput : InputAt s bytes) :
    ∃ t, exec i s = .next t ∧ CompletedWith s t planes (s.cursor.toNat + bytes.length)
      ((List.range s.arg0.toNat).map fun j => gatherPlanes bytes s.arg0.toNat planes j) := by
  have hread : readBytes (captureOperands s) (s.arg0.toNat * planes) s.inLen.toNat (startContext (captureOperands s))
      = .ok bytes { p := s.cursor.toNat + bytes.length, out := [] } := by
    rw [← hlen, readBytes_ok _ hinput.inWindow]
    exact congrArg (Run.ok · _) hinput.bytesHeld
  have hbody : bssBody planes (captureOperands s) (startContext (captureOperands s)) = .ok ()
      { p := s.cursor.toNat + bytes.length
        out := (List.range s.arg0.toNat).map fun j => gatherPlanes bytes s.arg0.toNat planes j } :=
    (andThen_ok (need_ok _ (le_of_eq_of_le (Nat.zero_add _) hcap))).trans (andThen_ok hread)
  obtain ⟨rfl, rfl⟩ | ⟨rfl, rfl⟩ := hi
  · exact exec_completes .bss32 rfl rfl rfl h hbody
  · exact exec_completes .bss64 rfl rfl rfl h hbody

/-- Settles O38: the values are gathered from the bytes read at `CURSOR`, and gathering moves each byte unchanged. -/
theorem byteStreamSplitGathersPlanes : Obligations.ByteStreamSplitGathersPlanes := by
  intro s i planes hi h hcap hin
  obtain ⟨bytes, hbytes⟩ : ∃ bytes,
      bytes = s.mem.readBytes (s.inBase.toNat + s.cursor.toNat) (s.arg0.toNat * planes) := ⟨_, rfl⟩
  have hlen : bytes.length = s.arg0.toNat * planes := by rw [hbytes, Memory.length_readBytes]
  have hinput : InputAt s bytes := ⟨by rwa [hlen], by rw [hlen, hbytes]⟩
  obtain ⟨t, hexec, hdone⟩ := exec_bss_completes hi h hcap hlen hinput
  refine ⟨t, _, hexec, hlen ▸ hdone, by rw [List.length_map, List.length_range], fun j hj => ?_⟩
  rw [List.getD_eq_getElem _ _ hj, List.getElem_map, List.getElem_range]
  rw [List.length_map, List.length_range] at hj
  refine ⟨gatherPlanes_lt _ _ _ _, fun k hk => ?_⟩
  rw [gatherPlanes_div_mod _ _ _ hk, hbytes, Memory.getD_readBytes _ _ _ _ (planeOffset_lt hj hk), ← Nat.add_assoc]

/-- Settles O39: the command gathers its input's planes, and the planes of the values gather back to them. -/
theorem byteStreamSplitRoundTrip : Obligations.ByteStreamSplitRoundTrip := by
  intro s i planes values bytes hi h hplanes hcount hcap hinput
  have hlen : bytes.length = s.arg0.toNat * planes := by rw [hplanes.size, hcount, Nat.mul_comm]
  obtain ⟨t, hexec, hdone⟩ := exec_bss_completes hi h (hcount ▸ hcap) hlen hinput
  rw [hcount, gatherPlanes_of_isPlanes hplanes] at hdone
  exact ⟨t, hexec, hdone⟩

end Sys2Proof.Machine
end

section
/-! PROOF. When the engine moves and how it fails: a block at rest takes no step, and a command that ends in ERROR was
turned away by a check, raised the fault in its body, or met a bus error (60_exceptions.md R281 to R290, R300). -/

namespace Sys2Proof.Machine

open Sys2Proof.Safety

/-! ### A block at rest -/

theorem engineStep_of_not_busy {s : State} (hs : s.state ≠ .busy) : engineStep s = .next s := by
  rw [engineStep, if_neg hs]

/-- Settles O8: with the engine next, by the list's end or its first event, the step is the engine's, which moves only
in a BUSY block. -/
theorem blockAtRestTakesNoStep : Obligations.BlockAtRestTakesNoStep := by
  refine fun s hs => ⟨fun hin => ?_, fun rest hin => ?_⟩
  · rw [step_of_no_event hin, engineStep_of_not_busy hs]
  · rw [step_of_event hin]
    exact engineStep_of_not_busy (s := { s with inputs := rest }) hs

/-! ### Input that is not all there -/

/-- A body that begins with a capacity check that passes and then reads bytes that are not all there is TRUNCATED where
it started (40_command_execution.md R135). -/
theorem exec_shortInput {α : Type} {i : Instr} {s : State} {count : Nat} {read : Eng α} {rest : α → Eng Unit}
    (hbody : bodyOf i (captureOperands s) = andThen (need (captureOperands s) count) fun _ => andThen read rest)
    (hread : read (startContext (captureOperands s)) = .raised .truncated (startContext (captureOperands s)))
    (hwf : i.wellFormed = true) (hrle : checkRleHeader i s = true) (h : Undisturbed (elementSize i) s)
    (hcount : count ≤ s.outCap.toNat) :
    ∃ t, exec i s = .next t ∧ FaultedWith s t (elementSize i) .truncated s.cursor.toNat := by
  have hneed : need (captureOperands s) count (startContext (captureOperands s))
      = .ok () (startContext (captureOperands s)) :=
    need_ok _ (le_of_eq_of_le (Nat.zero_add _) hcount)
  exact exec_faults i rfl hwf hrle h (by rw [hbody, andThen_ok hneed]; exact andThen_raised hread)

/-- Settles O42: each of these bodies reads all its bytes at once, right after its capacity check. -/
theorem shortInputFaults : Obligations.ShortInputFaults := by
  rintro s i count size hi h hcount hshort
  rcases hi with ⟨w, rfl, hw, rfl, rfl⟩ | ⟨w, rfl, hw, heven, rfl, rfl⟩ | ⟨rfl, rfl, rfl⟩ | ⟨rfl, rfl, rfl⟩
  · exact exec_shortInput rfl (bitUnpackFirst_short _ hshort) (decide_eq_true hw) rfl h hcount
  · exact exec_shortInput rfl (readBytes_short _ hshort) (decide_eq_true hw) (decide_eq_true heven) h hcount
  · exact exec_shortInput rfl (readBytes_short _ hshort) rfl rfl h hcount
  · exact exec_shortInput rfl (readBytes_short _ hshort) rfl rfl h hcount

/-! ### Bus errors -/

/-- Accesses to a range that holds an address where `BUS_ERR` holds for their kind meet a bus error. -/
theorem meetsBusError_of_mem {s : State} {b : BusRange} {q : AddrRange} {a : Nat} (hb : b ∈ s.platform.busErr)
    (hr : b.range.lo ≤ a ∧ a < b.range.hi) (hq : q.lo ≤ a ∧ a < q.hi) : meetsBusError s b.kind q = true :=
  List.any_eq_true.mpr ⟨b, hb, Bool.and_eq_true_iff.mpr ⟨decide_eq_true rfl, meets_of_common hr hq⟩⟩

/-- A run that consumed a byte, or emitted an element with a byte, where `BUS_ERR` holds for that access, meets a bus
error (60_exceptions.md R287). -/
theorem commandMeetsBusError_of_needed {esize : Nat} {s : State} {c : Ctx} {b : BusRange} {a : Nat}
    (hb : b ∈ s.platform.busErr) (hr : b.range.lo ≤ a ∧ a < b.range.hi)
    (hneeded : (b.kind = .read ∧ s.inBase.toNat + s.cursor.toNat ≤ a ∧ a < s.inBase.toNat + c.p)
      ∨ (b.kind = .write ∧ s.outBase.toNat ≤ a ∧ a < s.outBase.toNat + c.n * esize)) :
    commandMeetsBusError esize s c = true := by
  have hbody : bodyMeetsBusError esize s c = true := by
    rw [bodyMeetsBusError, Bool.or_eq_true]
    rcases hneeded with ⟨hk, hin⟩ | ⟨hk, hout⟩
    · rw [← hk]; exact .inl (meetsBusError_of_mem hb hr hin)
    · rw [← hk]; exact .inr (meetsBusError_of_mem hb hr hout)
  rw [commandMeetsBusError, hbody, Bool.true_or]

/-- A command whose checks pass and whose body succeeds, but that meets a bus error, completes with BUS_ERROR. -/
theorem exec_busError {i : Instr} {s : State} {c : Ctx} (hlegal : operandsLegal i s = true)
    (htouch : touchesSideEffects i s = false) (hrun : bodyRun i s = .ok () c)
    (hbus : commandMeetsBusError (elementSize i) s c = true) :
    ∃ u pos, exec i s = .next u ∧ FaultedWith s u (elementSize i) .busError pos := by
  rw [exec_of_legal hlegal htouch, hrun, completeBody_busError (r := .ok () c) hbus]
  exact ⟨_, _, rfl, faultedWith_takeFault_word s _ _ (Config.freePos s.draws)⟩

/-- Settles O27: checks and body do not look at `BUS_ERR`, so the body's run is the one that would be DONE, and the
bytes it consumed and the elements it emitted are those that run's registers show. -/
theorem busErrorFailsTheCommand : Obligations.BusErrorFailsTheCommand := by
  rintro i s t h hd ⟨b, hb, a, hlo, hhi, hneeded⟩
  obtain ⟨c, hran⟩ := exec_done h hd
  rw [hran.cursor, hran.outCount] at hneeded
  exact exec_busError (s := s) hran.legal hran.noSideEffect hran.run
    (commandMeetsBusError_of_needed hb ⟨hlo, hhi⟩ hneeded)

/-! ### Pieces that never raise MALFORMED -/

/-- A piece of a body that never raises MALFORMED (60_exceptions.md R282). -/
def NeverMalformed {α : Type} (x : Eng α) : Prop := ∀ c c', x c ≠ .raised .malformed c'

theorem neverMalformed_andThen {α β : Type} {x : Eng α} {f : α → Eng β} (hx : NeverMalformed x)
    (hf : ∀ a, NeverMalformed (f a)) : NeverMalformed (andThen x f) := by
  intro c c' h
  cases hr : x c with
  | ok a c1 => rw [andThen_ok hr] at h; exact hf a c1 c' h
  | raised e c1 => rw [andThen_raised hr] at h; cases h; exact hx c c' hr

theorem neverMalformed_give {α : Type} (a : α) : NeverMalformed (give a) := nofun

theorem neverMalformed_emit (vs : List Nat) : NeverMalformed (emit vs) := nofun

theorem neverMalformed_need (o : Operands) (k : Nat) : NeverMalformed (need o k) := by
  intro c c' h
  by_cases hk : c.n + k ≤ o.outCap
  · rw [need_ok o hk] at h; cases h
  · rw [need_short o (not_le.mp hk)] at h; cases h

theorem neverMalformed_readBytes (o : Operands) (k l : Nat) : NeverMalformed (readBytes o k l) := by
  intro c c' h
  by_cases hk : c.p + k ≤ l
  · rw [readBytes_ok o hk] at h; cases h
  · rw [readBytes_short o (not_le.mp hk)] at h; cases h

theorem neverMalformed_bitUnpack (o : Operands) (ng bw l : Nat) : NeverMalformed (bitUnpack o ng bw l) :=
  neverMalformed_andThen (neverMalformed_readBytes o _ l) fun _ => neverMalformed_give _

/-- The shape of the bodies without a varint: a capacity check, one read, and the emission of what was read. -/
theorem neverMalformed_need_read_emit {α : Type} {read : Eng α} (o : Operands) (count : Nat)
    (hread : NeverMalformed read) (values : α → List Nat) :
    NeverMalformed (andThen (need o count) fun _ => andThen read fun a => emit (values a)) :=
  neverMalformed_andThen (neverMalformed_need o count) fun _ =>
    neverMalformed_andThen hread fun a => neverMalformed_emit (values a)

theorem neverMalformed_bitunpackBody (bw : Nat) (o : Operands) : NeverMalformed (bitunpackBody bw o) :=
  neverMalformed_need_read_emit o _ (neverMalformed_bitUnpack o _ bw _) _

theorem neverMalformed_rleBody (bw : Nat) (o : Operands) : NeverMalformed (rleBody bw o) :=
  neverMalformed_need_read_emit o _ (neverMalformed_readBytes o _ _) _

theorem neverMalformed_bssBody (planes : Nat) (o : Operands) : NeverMalformed (bssBody planes o) :=
  neverMalformed_need_read_emit o _ (neverMalformed_readBytes o _ _) _

/-- Only a command whose input holds varints raises MALFORMED (60_exceptions.md R282). -/
theorem readsVarints_of_malformed {i : Instr} {o : Operands} {c c' : Ctx} (h : bodyOf i o c = .raised .malformed c') :
    i = .varint ∨ i = .delta32 ∨ i = .delta64 ∨ ∃ w x, i = .hybrid w x := by
  cases i with
  | varint => exact .inl rfl
  | delta32 => exact .inr (.inl rfl)
  | delta64 => exact .inr (.inr (.inl rfl))
  | hybrid w x => exact .inr (.inr (.inr ⟨w, x, rfl⟩))
  | bitunpack w => exact absurd h (neverMalformed_bitunpackBody _ o c c')
  | rle w => exact absurd h (neverMalformed_rleBody _ o c c')
  | bss32 | bss64 => exact absurd h (neverMalformed_bssBody _ o c c')

/-! ### The fault of a command that ends in ERROR -/

/-- A body's completion in ERROR reports the fault the body raised, or BUS_ERROR (60_exceptions.md R290). -/
theorem completeBody_error {esize : Nat} {s : State} {r : Run Unit} (h : (completeBody esize s r).state = .error) :
    (∃ f c, r = .raised f c ∧ (completeBody esize s r).fault = f) ∨ (completeBody esize s r).fault = .busError := by
  cases hbus : commandMeetsBusError esize s (finalContext r) with
  | true =>
    rw [completeBody_busError hbus, takeFault_fault]
    cases r with
    | ok u c => exact .inr rfl
    | raised f c =>
      rw [busErrorCode]
      split
      · exact .inl ⟨f, c, rfl, rfl⟩
      · exact .inr rfl
  | false =>
    cases r with
    | ok u c => rw [completeBody_ok (c := c) hbus] at h; cases h
    | raised f c => rw [completeBody_raised (c := c) hbus]; exact .inl ⟨f, c, rfl, rfl⟩

/-- The ways a command ends in ERROR, each with the fault it reports. -/
inductive ErrorEnd (i : Instr) (s t : State) : Prop where
  | turnedAway (hf : t.fault = .badArg) (hpos : t.faultPos = s.cursor)
  | bodyRaised (f : FaultCode) (c : Ctx) (hrun : bodyRun i s = .raised f c) (hbody : f.ofBody = true) (hf : t.fault = f)
  | busError (hf : t.fault = .busError)

theorem exec_error {i : Instr} {s t : State} (h : exec i s = .next t) (he : t.state = .error) : ErrorEnd i s t := by
  cases exec_end h with
  | turnedAway _ ht => subst ht; exact .turnedAway rfl rfl
  | ran hcheck _ ht =>
    subst ht
    obtain ⟨f, c, hrun, hf⟩ | hf := completeBody_error he
    · exact .bodyRaised f c hrun ((orderly_body i ((operandsLegal_iff i s).mp hcheck).2.2).fault f c hrun) hf
    · exact .busError hf

/-- Settles O24: BAD_ARG comes from the checks alone, and MALFORMED from a body that raised it. -/
theorem faultsOfEachCommand : Obligations.FaultsOfEachCommand := by
  intro i s t h he
  cases exec_error h he with
  | turnedAway hf hpos => simp [hf, hpos]
  | busError hf => simp [hf]
  | bodyRaised f c hrun hbody hf =>
    rw [hf]
    cases f with
    | none | invalidType | badArg | busError => cases hbody
    | truncated | capacity => simp
    | malformed => exact ⟨.inr (.inr (.inl rfl)), fun _ => readsVarints_of_malformed hrun, nofun⟩

end Sys2Proof.Machine
end

section
/-! PROOF. What the two resets do: every register at its reset value, the memory of an abandoned command, a block held
in reset and at rest after it, and a START before `CMD` was written (70_reset_and_hazards.md R320 to R322, R325). -/

namespace Sys2Proof.Machine

open Sys2Proof.Safety

/-! ### What a reset leaves -/

/-- The interrupt output of a block at its reset values is 0 (10_state.md R53). -/
theorem irq_of_atResetValues {s : State} (h : AtResetValues s) : s.irq = false := by
  rw [State.irq, h.irqEn, Bool.false_and]

/-- Memory after a reset: unchanged when no command is in flight, and in any case outside the output region and in the
input window (70_reset_and_hazards.md R322). -/
theorem resetBlock_memory (s : State) :
    (s.state ≠ .busy → (resetBlock s).mem = s.mem)
      ∧ (∀ a, ¬(s.outBase.toNat ≤ a
            ∧ a < s.outBase.toNat + s.outCap.toNat * elementSizeOf (BitVec.ofNat 8 s.cmd.toNat)) →
          (resetBlock s).mem.read a = s.mem.read a)
      ∧ (∀ a, s.inBase.toNat ≤ a → a < s.inBase.toNat + s.inLen.toNat →
          (resetBlock s).mem.read a = s.mem.read a) := by
  rw [resetBlock_mem, ← opcField_eq_ofNat]
  exact ⟨fun hs => by rw [abandonCommand_of_not_busy hs], fun a ha => abandonCommand_read (.inl ha),
    fun a hlo hhi => abandonCommand_read (.inr ⟨hlo, hhi⟩)⟩

/-- Settles O20: a write of `CTRL` with bit 2 set is `resetBlock`, whatever the engine does. -/
theorem softResetClearsTheBlock : Obligations.SoftResetClearsTheBlock := by
  intro s w hr h2
  have hvalues := resetBlock_atResetValues s
  obtain ⟨hrest, houtside, hwindow⟩ := resetBlock_memory s
  exact ⟨resetBlock s, (hostWriteReg_ctrl hr w).trans (writeCtrl_reset h2), hvalues, resetBlock_id s,
    resetBlock_owned s, irq_of_atResetValues hvalues, hrest, houtside, hwindow, resetBlock_platform s,
    resetBlock_inReset s, resetBlock_inputs s, resetBlock_hostReg s, resetBlock_hostBytes s⟩

/-! ### A START straight after reset -/

/-- The step of a host's START, of a command the model does not refuse (10_state.md R25). -/
theorem step_start {s : State} {w : Word} {rest : List Event} (hin : s.inputs = .regWrite 0x08 8 w :: rest)
    (hr : s.inReset = false) (h2 : w.getLsbD 2 = false) (h0 : w.getLsbD 0 = true) (hs : s.state ≠ .busy)
    (hc : commandRefusal s = none) :
    step s = .next (startCommand { s with irqEn := w.getLsbD 1, inputs := rest }) := by
  have hc' : commandRefusal { s with inputs := rest } = none :=
    (commandRefusal_congr rfl rfl rfl rfl rfl rfl rfl rfl).trans hc
  rw [step_of_event hin]
  exact (hostWriteReg_ctrl (s := { s with inputs := rest }) hr w).trans (writeCtrl_start h2 h0 hs hc')

/-- Settles O7: reset leaves 0 in `CMD`, and opcode 0 is reserved, so the engine turns the command away. -/
theorem startStraightAfterReset : Obligations.StartStraightAfterReset := by
  have hrefusal := commandRefusal_of_noSideEffect (s := { State.reset with inputs := [.regWrite 0x08 8 1] }) rfl rfl
  have hdecode : decode (0 : Word) = .error .invalidType := decode_of_reserved (.inl rfl)
  exact ⟨_, _, step_start rfl rfl rfl rfl (by decide) hrefusal, rfl, rfl,
    (step_of_no_event rfl).trans (engineStep_of_decode_error rfl rfl hdecode), rfl, rfl, rfl, rfl⟩

/-! ### While power-on reset is asserted -/

/-- No event but a release ends a reset, the reset values hold through it, and of memory only a host write changes
anything: register accesses are refused, and no command is in flight (70_reset_and_hazards.md R320). -/
theorem EventEnd.held_in_reset {e : Event} {s t : State} (h : EventEnd e s t) (hr : s.inReset = true)
    (hv : AtResetValues s) :
    AtResetValues t ∧ (t.inReset = true ∨ e = .releaseReset)
      ∧ (t.mem = s.mem ∨ ∃ addr bytes, e = .memWrite addr bytes) := by
  have hidle : s.state ≠ .busy := by rw [hv.state]; decide
  cases h with
  | rest _ _ ht => subst ht; exact ⟨hv, .inl hr, .inl rfl⟩
  | completes _ hs _ => exact absurd hs hidle
  | restWithStatusWrite _ _ hn _ _ | completesWithStatusWrite _ _ hn _ _ | regRead _ _ hn _ _
  | ctrlWrite _ _ _ hn _ _ _ | regWrite _ _ _ hn _ _ _ => exact absurd (hr.symm.trans hn) (by decide)
  | memRead _ _ _ ht => subst ht; exact ⟨{ hv with }, .inl hr, .inl rfl⟩
  | memWrite addr bytes he _ ht => subst ht; exact ⟨{ hv with }, .inl hr, .inr ⟨addr, bytes, he⟩⟩
  | assertReset _ ht =>
    subst ht
    exact ⟨{ resetBlock_atResetValues s with }, .inl rfl, .inl ((resetBlock_memory s).1 hidle)⟩
  | releaseReset he ht => subst ht; exact ⟨{ hv with }, .inr he, .inl rfl⟩

theorem step_held_in_reset {s t : State} (hr : s.inReset = true) (hv : AtResetValues s) (h : step s = .next t) :
    AtResetValues t ∧ (t.inReset = true ∨ ∃ rest, s.inputs = .releaseReset :: rest)
      ∧ (t.mem = s.mem ∨ ∃ addr bytes rest, s.inputs = .memWrite addr bytes :: rest) := by
  obtain ⟨e, s', rfl, he, hend⟩ := step_cases h
  obtain ⟨hvalues, hreset, hmem⟩ := hend.held_in_reset hr { hv with }
  have htaken : e ≠ .engine → s.inputs = e :: s.inputs.tail := fun hne => he.resolve_left fun hnil => hne hnil.2
  refine ⟨hvalues, hreset.imp_right ?_, hmem.imp_right ?_⟩
  · rintro rfl
    exact ⟨_, htaken nofun⟩
  · rintro ⟨addr, bytes, rfl⟩
    exact ⟨addr, bytes, _, htaken nofun⟩

/-! ### Leaving IDLE -/

theorem StoredEnd.state {r : Reg} {w : Word} {s t : State} (h : StoredEnd r w s t) : t.state = s.state := by
  cases h with
  | readOnly ht | ignored _ ht | stored _ ht => rw [ht]
  | status _ ht => rw [ht, writeStatus_state]

/-- Of the writes of `CTRL` a START alone leaves IDLE (10_state.md R25). -/
theorem CtrlEnd.busy_of_leaves_idle {w : Word} {s t : State} (h : CtrlEnd w s t) (hs : s.state = .idle)
    (hn : t.state ≠ .idle) : t.state = .busy := by
  cases h with
  | reset _ ht => subst ht; exact absurd (resetBlock_atResetValues s).state hn
  | enable _ _ ht | ignored _ _ _ ht => subst ht; exact absurd hs hn
  | start _ _ _ _ ht => subst ht; rfl

/-- Nothing but a host write of `CTRL` makes the block leave IDLE. -/
theorem EventEnd.ctrlWrite_of_leaves_idle {e : Event} {s t : State} (h : EventEnd e s t) (hs : s.state = .idle)
    (hn : t.state ≠ .idle) : ∃ w, e = .regWrite 0x08 8 w ∧ t.state = .busy := by
  have hidle : s.state ≠ .busy := by rw [hs]; decide
  have hmoved : t.state ≠ s.state := by rwa [hs]
  cases h with
  | completes _ hb _ | completesWithStatusWrite _ _ _ hb _ => exact absurd hb hidle
  | ctrlWrite offset w he _ hoff hreg ht =>
    rw [offset_of_regAt_ctrl hoff hreg] at he
    exact ⟨w, he, ht.busy_of_leaves_idle hs hn⟩
  | regWrite offset w _ _ _ _ ht =>
    subst ht
    exact absurd (writeStored_cases (regAt offset) w s).state hmoved
  | assertReset _ ht => subst ht; exact absurd (resetBlock_atResetValues s).state hn
  | rest _ _ ht | restWithStatusWrite _ _ _ _ ht | regRead _ _ _ ht _ | memRead _ _ _ ht | memWrite _ _ _ _ ht
  | releaseReset _ ht => exact absurd (congrArg State.state ht) hmoved

theorem step_leaves_idle {s t : State} (h : step s = .next t) (hs : s.state = .idle) (hn : t.state ≠ .idle) :
    ∃ w rest, s.inputs = .regWrite 0x08 8 w :: rest ∧ t.state = .busy := by
  obtain ⟨e, s', rfl, he, hend⟩ := step_cases h
  obtain ⟨w, rfl, hbusy⟩ := hend.ctrlWrite_of_leaves_idle hs hn
  obtain ⟨-, he⟩ | he := he
  · cases he
  · exact ⟨w, _, he, hbusy⟩

/-! ### Power-on reset -/

/-- The assertion of power-on reset is `resetBlock`, with the event taken off the list. -/
theorem step_assertReset {s : State} {rest : List Event} (h : s.inputs = .assertReset :: rest) :
    step s = .next { resetBlock { s with inputs := rest } with inReset := true } :=
  step_of_event h

theorem step_releaseReset {s : State} {rest : List Event} (h : s.inputs = .releaseReset :: rest) :
    step s = .next { s with inputs := rest, inReset := false } :=
  step_of_event h

/-- Settles O21: the assertion is a reset, every event keeps its values until the release, and a block at rest moves
only when a START comes. -/
theorem powerOnReset : Obligations.PowerOnReset := by
  refine ⟨fun s rest hin => ?_, fun s t hr hv hstep => ?_, fun s rest hr hv hin => ?_,
    fun u v hs hstep hn => step_leaves_idle hstep hs hn⟩
  · have hvalues : AtResetValues { resetBlock { s with inputs := rest } with inReset := true } :=
      { resetBlock_atResetValues { s with inputs := rest } with }
    exact ⟨_, step_assertReset hin, hvalues, rfl, irq_of_atResetValues hvalues,
      resetBlock_id { s with inputs := rest }, rfl, resetBlock_memory { s with inputs := rest }⟩
  · obtain ⟨hvalues, hreset, hmem⟩ := step_held_in_reset hr hv hstep
    exact ⟨hvalues, irq_of_atResetValues hvalues, (idAndPlatformNeverChange s t hstep).1, hreset, hmem⟩
  · have hatRest := blockAtRestTakesNoStep { s with inputs := rest, inReset := false } (by simp [hv.state])
    exact ⟨_, step_releaseReset hin, { hv with }, rfl, rfl, rfl, rfl, hatRest⟩

end Sys2Proof.Machine
end
